-- ==== Sys2Proof/Word.lean ====
section
/-! DEFINITION. The two word types of the block: 32-bit registers and bytes of system memory (00_scope.md R7, 20_memory.md R80). -/

namespace Sys2Proof

/-- A register value or a system-memory address: "All register values are unsigned 32-bit integers" (R7). -/
abbrev Word := BitVec 32

/-- A byte of system memory, a symbol of GF(2^8), a channel value. -/
abbrev Byte := BitVec 8

end Sys2Proof
end

