-- ==== Sys2Proof/Config.lean ====
section
/-! DEFINITION. The implementation parameters of 00_scope.md R5, and the free values: what the spec leaves open. -/

namespace Sys2Proof

/-- The parameters of R5 that carry a constraint (R5's last column, 43_frame_codec.md R233). -/
structure Params where
  canvasW      : Nat
  canvasH      : Nat
  hdrBlockSize : Nat
  hdrLevels    : Nat
  hdrParity    : Nat
  /-- GF_POLY: bit `i` is the coefficient of `x^i`, degree 8. -/
  gfPoly       : BitVec 9
  gfAlpha      : Byte
  rsFcr        : Nat
  deriving DecidableEq, Repr

namespace Config

/-- The values R5 fixes for the block (DESIGN CHOICE of which set the model takes: log 18). -/
def params : Params where
  canvasW      := 3840
  canvasH      := 2160
  hdrBlockSize := 8
  hdrLevels    := 2
  hdrParity    := 64
  gfPoly       := 0x11D
  gfAlpha      := 0x02
  rsFcr        := 0

/-- `CANVAS_W` (R5, 10_state.md R43). -/
def canvasW : Nat := params.canvasW
/-- `CANVAS_H` (R5, 10_state.md R43). -/
def canvasH : Nat := params.canvasH
/-- `FRAME_BYTES = CANVAS_W * CANVAS_H * 3` (R5). -/
def frameBytes : Nat := canvasW * canvasH * 3
/-- `MEM_BYTES = 2^32` (R5, 20_memory.md R80). -/
def memBytes : Nat := 2 ^ 32
/-- `GF_POLY` (R5, R160). -/
def gfPoly : BitVec 9 := params.gfPoly
/-- `GF_ALPHA` (R5, R161). -/
def gfAlpha : Byte := params.gfAlpha
/-- `RS_FCR`, the first consecutive root exponent (R5, R163). -/
def rsFcr : Nat := params.rsFcr
/-- `CW_LEN` (R5). -/
def cwLen : Nat := 255
/-- `PAD_BYTE` (R5). -/
def padByte : Byte := 0x00
/-- `HDR_BLOCK_SIZE`, `HDR_LEVELS`, `HDR_PARITY`: the header geometry (R5, 43_frame_codec.md R232). -/
def hdrBlockSize : Nat := params.hdrBlockSize
def hdrLevels : Nat := params.hdrLevels
def hdrParity : Nat := params.hdrParity
/-- `HDR_MAGIC`, ASCII "VSTG" (R5). -/
def hdrMagic : List Byte := [0x56, 0x53, 0x54, 0x47]
/-- `HDR_VERSION` (R5). -/
def hdrVersion : Byte := 1
/-- `HDR_LEN`, the length of the header record (R5, 44_stream.md R271). -/
def hdrLen : Nat := 112
/-- `CRF_MAX` (R5). -/
def crfMax : Nat := 51

/-- The OPEN parameter `REG_BASE` (R5, decision D10), as a number of 256-byte pages, so that it is 256-byte aligned whatever
it is (log 13). -/
opaque regPage : Nat

/-- `REG_BASE` (R5, 10_state.md R30). -/
def regBase : Nat := 256 * regPage

/-- FREE VALUE (log 3): what address `a` of system memory held at power-up; "its contents are unspecified (a draw)" (R64). -/
opaque powerUpByte : Nat → Byte

/-- FREE VALUE (log 4): whether the discarded command's write to address `a` had landed at the `k`-th reset of a busy block
(70_reset_and_hazards.md R362). -/
opaque srstLands : (k a : Nat) → Bool

end Config
end Sys2Proof
end

