-- ==== Sys2Proof/Syntax.lean ====
section
/-! DEFINITION. The commands of the block, one constructor per row of opcode_table.json (30_encoding.md R111). No command
carries an operand in its word (R115): operands are in the ARG_* registers. -/

namespace Sys2Proof

inductive Instr where
  /-- 0x00, R140 -/
  | nop
  /-- 0x01, R141 -/
  | cfgCommit
  /-- 0x10, R176 -/
  | rsEncode
  /-- 0x11, R177 -/
  | rsDecode
  /-- 0x20, R210 -/
  | quant
  /-- 0x21, R211 -/
  | dequant
  /-- 0x22, R212 -/
  | dequantBlock
  /-- 0x30, R245 -/
  | packFrame
  /-- 0x31, R246 -/
  | unpackFrame
  /-- 0x40, R280 -/
  | streamEncBegin
  /-- 0x41, R285 -/
  | streamEncFrame
  /-- 0x42, R290 -/
  | streamDecBegin
  /-- 0x43, R292 -/
  | streamDecFrame
  /-- 0x44, R296 -/
  | streamEnd
  /-- 0x45, R297 -/
  | streamAbort
  deriving DecidableEq, Repr

end Sys2Proof
end

