-- ==== Sys2Proof/Decode.lean ====
section
/-! DEFINITION. Decoding a command word (30_encoding.md R110 to R112), total and rejecting by name, and the encoder. -/

namespace Sys2Proof

/-- Why a word is no command. The first two raise ILLEGAL_CMD (R112); the third is a byte list shorter than a word. -/
inductive DecodeError where
  /-- `w[31:8] ≠ 0` (R112, first test). -/
  | reservedBits
  /-- `w[7:0]` is not in the table of R111 (R112, second test). -/
  | unassignedOpcode
  /-- fewer than four bytes -/
  | truncated
  deriving DecidableEq, Repr

/-- The field OPCODE, bits 7:0 (R110). -/
def opcodeField (w : Word) : Byte := w.extractLsb' 0 8

/-- The field RSVD, bits 31:8 (R110). -/
def rsvdField (w : Word) : BitVec 24 := w.extractLsb' 8 24

/-- The opcode map of R111, row by row. -/
def opcodeMap : List (Byte × Instr) :=
  [(0x00, .nop), (0x01, .cfgCommit),
   (0x10, .rsEncode), (0x11, .rsDecode),
   (0x20, .quant), (0x21, .dequant), (0x22, .dequantBlock),
   (0x30, .packFrame), (0x31, .unpackFrame),
   (0x40, .streamEncBegin), (0x41, .streamEncFrame), (0x42, .streamDecBegin),
   (0x43, .streamDecFrame), (0x44, .streamEnd), (0x45, .streamAbort)]

/-- The command an opcode selects, if R111 lists it. -/
def instrOfOpcode (op : Byte) : Option Instr := opcodeMap.lookup op

/-- R112: the reserved bits are tested first, then the opcode. -/
def decodeWord (w : Word) : Except DecodeError Instr :=
  if rsvdField w ≠ 0 then .error .reservedBits
  else match instrOfOpcode (opcodeField w) with
    | none => .error .unassignedOpcode
    | some i => .ok i

/-- The command of a word, or none where R112 raises ILLEGAL_CMD. -/
def decode (w : Word) : Option Instr := (decodeWord w).toOption

/-- A command word from the bytes of the CMD register on the host bus: little-endian, bits 7:0 at byte offset 0
(20_memory.md R85). The rest of the list is handed back. -/
def decodeBytes : List Byte → Except DecodeError (Instr × List Byte)
  | b0 :: b1 :: b2 :: b3 :: rest => (decodeWord (b3 ++ b2 ++ b1 ++ b0)).map (·, rest)
  | _ => .error .truncated

/-- The host's view: bit 0 of `w` is bit 0 of the command word; every row has 32 bits. -/
def decodeTableWord (nbits w : Nat) : Option Instr := decode (BitVec.ofNat 32 (w % 2 ^ nbits))

/-- The opcode of each command (R111). -/
def opcodeOf : Instr → Byte
  | .nop            => 0x00
  | .cfgCommit      => 0x01
  | .rsEncode       => 0x10
  | .rsDecode       => 0x11
  | .quant          => 0x20
  | .dequant        => 0x21
  | .dequantBlock   => 0x22
  | .packFrame      => 0x30
  | .unpackFrame    => 0x31
  | .streamEncBegin => 0x40
  | .streamEncFrame => 0x41
  | .streamDecBegin => 0x42
  | .streamDecFrame => 0x43
  | .streamEnd      => 0x44
  | .streamAbort    => 0x45

/-- The command word: RSVD = 0 above the opcode (R110). -/
def encode (i : Instr) : Word := (0 : BitVec 24) ++ opcodeOf i

/-- The four bytes of the command word on the host bus (R85). -/
def encodeBytes (i : Instr) : List Byte :=
  [(encode i).extractLsb' 0 8, (encode i).extractLsb' 8 8, (encode i).extractLsb' 16 8, (encode i).extractLsb' 24 8]

end Sys2Proof
end

