-- ==== Sys2Proof/Machine/Registers.lean ====
section
/-! DEFINITION. The register map of 10_state.md R33: names, offsets, access types. -/

namespace Sys2Proof.Machine

/-- The registers of the window (R33). -/
inductive Reg where
  | id | hwVersion | ctrl | status | cmd | irqStatus | irqEnable
  | cfgBlockSize | cfgLevels | cfgEccParity | cfgFps | cfgCrf | cfgDeq
  | actBlockSize | actLevels | actEccParity | actFps | actCrf
  | geoBpc | geoBpb | geoBx | geoBy | geoNb | geoP | geoC | geoK
  | canvasW | canvasH
  | argSrc | argDst | argLen | argAux | argEraAddr | argEraCount
  | res0 | res1 | res2
  | seqPhase | seqFrameIdx | seqTotalFrames | seqBytesRemLo | seqBytesRemHi | seqCorrectedTotal | seqCwDone
  deriving DecidableEq, Repr

/-- The access types of R31. -/
inductive Access where
  | rw | ro | w1a | w1c | cmd
  deriving DecidableEq, Repr

/-- A row of R33's table: byte offset from REG_BASE, name, access type. -/
abbrev RegRow := BitVec 8 × Reg × Access

/-- R33, offsets 0x00 to 0x18. -/
def controlRows : List RegRow :=
  [(0x00, .id, .ro), (0x04, .hwVersion, .ro), (0x08, .ctrl, .w1a), (0x0C, .status, .ro), (0x10, .cmd, .cmd),
   (0x14, .irqStatus, .w1c), (0x18, .irqEnable, .rw)]

/-- R33, offsets 0x20 to 0x50. -/
def configRows : List RegRow :=
  [(0x20, .cfgBlockSize, .rw), (0x24, .cfgLevels, .rw), (0x28, .cfgEccParity, .rw), (0x2C, .cfgFps, .rw),
   (0x30, .cfgCrf, .rw), (0x34, .cfgDeq, .rw),
   (0x40, .actBlockSize, .ro), (0x44, .actLevels, .ro), (0x48, .actEccParity, .ro), (0x4C, .actFps, .ro),
   (0x50, .actCrf, .ro)]

/-- R33, offsets 0x54 to 0x78. -/
def geometryRows : List RegRow :=
  [(0x54, .geoBpc, .ro), (0x58, .geoBpb, .ro), (0x5C, .geoBx, .ro), (0x60, .geoBy, .ro), (0x64, .geoNb, .ro),
   (0x68, .geoP, .ro), (0x6C, .geoC, .ro), (0x70, .geoK, .ro), (0x74, .canvasW, .ro), (0x78, .canvasH, .ro)]

/-- R33, offsets 0x80 to 0xA8. -/
def operandRows : List RegRow :=
  [(0x80, .argSrc, .rw), (0x84, .argDst, .rw), (0x88, .argLen, .rw), (0x8C, .argAux, .rw), (0x90, .argEraAddr, .rw),
   (0x94, .argEraCount, .rw), (0xA0, .res0, .ro), (0xA4, .res1, .ro), (0xA8, .res2, .ro)]

/-- R33, offsets 0xC0 to 0xD8. -/
def sequencerRows : List RegRow :=
  [(0xC0, .seqPhase, .ro), (0xC4, .seqFrameIdx, .ro), (0xC8, .seqTotalFrames, .ro), (0xCC, .seqBytesRemLo, .ro),
   (0xD0, .seqBytesRemHi, .ro), (0xD4, .seqCorrectedTotal, .ro), (0xD8, .seqCwDone, .ro)]

/-- R33's table. Offsets 0x1C, 0x38, 0x3C, 0x7C, 0x98, 0x9C, 0xAC..0xBC and 0xDC..0xFC are reserved. -/
def regMap : List RegRow := controlRows ++ (configRows ++ (geometryRows ++ (operandRows ++ sequencerRows)))

/-- The register at a byte offset; none for a reserved offset (R30, R33). -/
def regAt (off : BitVec 8) : Option Reg := (regMap.lookup off).map (·.1)

/-- The offset of a register (R33), written apart from `regMap`; a law says the two agree. -/
def regOffset : Reg → BitVec 8
  | .id => 0x00 | .hwVersion => 0x04 | .ctrl => 0x08 | .status => 0x0C | .cmd => 0x10
  | .irqStatus => 0x14 | .irqEnable => 0x18
  | .cfgBlockSize => 0x20 | .cfgLevels => 0x24 | .cfgEccParity => 0x28 | .cfgFps => 0x2C | .cfgCrf => 0x30 | .cfgDeq => 0x34
  | .actBlockSize => 0x40 | .actLevels => 0x44 | .actEccParity => 0x48 | .actFps => 0x4C | .actCrf => 0x50
  | .geoBpc => 0x54 | .geoBpb => 0x58 | .geoBx => 0x5C | .geoBy => 0x60 | .geoNb => 0x64 | .geoP => 0x68 | .geoC => 0x6C
  | .geoK => 0x70 | .canvasW => 0x74 | .canvasH => 0x78
  | .argSrc => 0x80 | .argDst => 0x84 | .argLen => 0x88 | .argAux => 0x8C | .argEraAddr => 0x90 | .argEraCount => 0x94
  | .res0 => 0xA0 | .res1 => 0xA4 | .res2 => 0xA8
  | .seqPhase => 0xC0 | .seqFrameIdx => 0xC4 | .seqTotalFrames => 0xC8 | .seqBytesRemLo => 0xCC | .seqBytesRemHi => 0xD0
  | .seqCorrectedTotal => 0xD4 | .seqCwDone => 0xD8

/-- The access type of a register (R33). -/
def regAccess (r : Reg) : Access := ((regMap.lookup (regOffset r)).map (·.2)).getD .ro

/-- The registers whose host writes are ignored while the engine is busy: CMD, every CFG_* and every ARG_* register (R31). -/
def busyGuarded : Reg → Bool
  | .cmd | .cfgBlockSize | .cfgLevels | .cfgEccParity | .cfgFps | .cfgCrf | .cfgDeq
  | .argSrc | .argDst | .argLen | .argAux | .argEraAddr | .argEraCount => true
  | .id | .hwVersion | .ctrl | .status | .irqStatus | .irqEnable
  | .actBlockSize | .actLevels | .actEccParity | .actFps | .actCrf
  | .geoBpc | .geoBpb | .geoBx | .geoBy | .geoNb | .geoP | .geoC | .geoK | .canvasW | .canvasH
  | .res0 | .res1 | .res2
  | .seqPhase | .seqFrameIdx | .seqTotalFrames | .seqBytesRemLo | .seqBytesRemHi | .seqCorrectedTotal | .seqCwDone => false

/-- A register access is legal when it is 32 bits wide and 4-byte aligned (20_memory.md R86). -/
def accessLegal (off : BitVec 8) (width : Nat) : Bool := width == 32 && off.toNat % 4 == 0

end Sys2Proof.Machine
end

