-- ==== Sys2Proof/Machine/HostOp.lean ====
section
/-! DEFINITION. Host programs: the bus operations of 30_encoding.md R117 and the pseudo-instructions of R118. -/

namespace Sys2Proof.Machine

/-- One host operation. `regRead`, `regWrite`, `wait` and `memStore` are R117's; `memLoad` and `takeIrq` are the host's loads and
its taking of the interrupt (20_memory.md R90); `assertReset`, `releaseReset` and `hwReset` drive the reset input
(70_reset_and_hazards.md R360; log 21). -/
inductive HostOp where
  /-- a register read of `width` bits at byte offset `off` of the window -/
  | regRead (off : BitVec 8) (width : Nat)
  /-- a register write of `width` bits at byte offset `off` of the window -/
  | regWrite (off : BitVec 8) (width : Nat) (v : Word)
  /-- repeat `rd STATUS` until BUSY reads 0 -/
  | wait
  /-- wait until the interrupt output is asserted and take the interrupt -/
  | takeIrq
  /-- store bytes to system memory at `a, a+1, ...` -/
  | memStore (a : Word) (bs : List Byte)
  /-- load `n` bytes of system memory from `a` on -/
  | memLoad (a : Word) (n : Nat)
  /-- assert the reset input; it stays asserted until it is released -/
  | assertReset
  /-- deassert the reset input -/
  | releaseReset
  /-- assert and deassert the reset input in one step -/
  | hwReset
  deriving DecidableEq, Repr

/-- A value the host has read: a register word, or bytes of system memory. -/
inductive HostRead where
  | reg (off : BitVec 8) (v : Word)
  | mem (a : Word) (bs : List Byte)
  deriving DecidableEq, Repr

/-- `wr REG, v` (R117). -/
def wr (r : Reg) (v : Word) : HostOp := .regWrite (regOffset r) 32 v

/-- `rd REG` (R117). -/
def rd (r : Reg) : HostOp := .regRead (regOffset r) 32

/-- A transaction on the host bus (R117, third column). -/
inductive BusTransaction where
  | write (addr : Nat) (width : Nat) (v : Word)
  | read (addr : Nat) (width : Nat)
  | store (addr : Nat) (b : Byte)
  | load (addr : Nat)
  deriving DecidableEq, Repr

/-- The bus transactions of one operation (R117); for `wait` the least number of them, one read of STATUS. -/
def hostTransactions : HostOp → List BusTransaction
  | .regRead off width => [.read (Config.regBase + off.toNat) width]
  | .regWrite off width v => [.write (Config.regBase + off.toNat) width v]
  | .wait => [.read (Config.regBase + (regOffset .status).toNat) 32]
  | .takeIrq => []
  | .memStore a bs => bs.zipIdx.map fun bi => .store (a.toNat + bi.2) bi.1
  | .memLoad a n => (List.range n).map fun i => .load (a.toNat + i)
  | .assertReset | .releaseReset | .hwReset => []

/-- "The encoding of a host program is the list of its bus transactions in order" (R118). -/
def encodeProgram (ops : List HostOp) : List BusTransaction := ops.flatMap hostTransactions

/-! The pseudo-instructions of R118, each with all the operands of its row. "Omitted operands are not written (they keep their
values)" is read as: a register that a row does not write keeps its value (DESIGN CHOICE, log 22). -/

/-- `wr CMD, <word>; wait`, the end of every pseudo-instruction that issues a command. -/
def issueAndWait (i : Instr) : List HostOp := [wr .cmd (encode i), .wait]

def pseudoNop : List HostOp := issueAndWait .nop
def pseudoCfgCommit : List HostOp := issueAndWait .cfgCommit
def pseudoCfgSet (s l p fps crf : Word) : List HostOp :=
  [wr .cfgBlockSize s, wr .cfgLevels l, wr .cfgEccParity p, wr .cfgFps fps, wr .cfgCrf crf]
/-- `rs.enc src, dst, m, p`; ARG_ERA_ADDR and ARG_ERA_COUNT are not in its row and keep their values (log 22). -/
def pseudoRsEnc (src dst m p : Word) : List HostOp :=
  [wr .argSrc src, wr .argDst dst, wr .argLen m, wr .argAux p] ++ issueAndWait .rsEncode
def pseudoRsDecEra (src dst n p era f : Word) : List HostOp :=
  [wr .argSrc src, wr .argDst dst, wr .argLen n, wr .argAux p, wr .argEraAddr era, wr .argEraCount f] ++
    issueAndWait .rsDecode
/-- `rs.dec src, dst, n, p`: "as above with `era = 0, f = 0`", both written. -/
def pseudoRsDec (src dst n p : Word) : List HostOp := pseudoRsDecEra src dst n p 0 0
def pseudoQuant (i : Word) : List HostOp := wr .argAux i :: issueAndWait .quant
def pseudoDequant (v : Word) : List HostOp := wr .argAux v :: issueAndWait .dequant
def pseudoDequantBlk (src n : Word) : List HostOp := [wr .argSrc src, wr .argLen n] ++ issueAndWait .dequantBlock
def pseudoPack (src dst len : Word) : List HostOp :=
  [wr .argSrc src, wr .argDst dst, wr .argLen len] ++ issueAndWait .packFrame
def pseudoUnpack (src dst : Word) : List HostOp := [wr .argSrc src, wr .argDst dst] ++ issueAndWait .unpackFrame
def pseudoEncBegin (hdr out : Word) : List HostOp := [wr .argSrc hdr, wr .argDst out] ++ issueAndWait .streamEncBegin
def pseudoEncFrame (src dst : Word) : List HostOp := [wr .argSrc src, wr .argDst dst] ++ issueAndWait .streamEncFrame
def pseudoDecBegin : List HostOp := issueAndWait .streamDecBegin
def pseudoDecFrame (src dst : Word) : List HostOp := [wr .argSrc src, wr .argDst dst] ++ issueAndWait .streamDecFrame
def pseudoStreamEnd : List HostOp := issueAndWait .streamEnd
def pseudoStreamAbort : List HostOp := issueAndWait .streamAbort
def pseudoSrst : List HostOp := [wr .ctrl 0x1]

end Sys2Proof.Machine
end

