-- ==== Sys2Proof/Machine/State.lean ====
section
/-! DEFINITION. The machine's state as plain data (10_state.md), the reasons a step can stop, and the state after reset
(R64). STATUS bits and ACT_*, GEO_* registers that copy other state are not stored twice (log 12). -/

namespace Sys2Proof.Machine

/-- The frame sequencer's phase (R55); value 7 is "never entered". -/
inductive Phase where
  | idle | encHeader | encPayload | decHeader | decPayload | done | failed
  deriving DecidableEq, Repr

/-- CFG_DEQ.VOTE (R45). -/
inductive VoteMode where
  | mean | majority
  deriving DecidableEq, Repr

/-- The error codes of 60_exceptions.md R321; "All other code values are never written". -/
inductive ErrCode where
  | none
  | illegalCmd | notConfigured | operand | bus | sequence | streamIncomplete
  | cfgInvalidLevels | cfgInvalidBlockSize | cfgInvalidFps | cfgInvalidCrf | cfgInvalidEcc
  | eccUncorrectable
  | formatBadMagic | formatBadVersion | formatMalformed | formatTruncated
  deriving DecidableEq, Repr

/-- The five `Config` fields: the staging registers (R40), and the active configuration ACT (R41). -/
structure ConfigRecord where
  blockSize : Word
  levels    : Word
  eccParity : Word
  fps       : Word
  crf       : Word
  deriving DecidableEq, Repr

/-- The operand registers (R46, R47). -/
structure ArgRegs where
  src      : Word
  dst      : Word
  len      : Word
  aux      : Word
  eraAddr  : Word
  eraCount : Word
  deriving DecidableEq, Repr

/-- The frame sequencer's registers (R55 to R58). -/
structure Sequencer where
  phase          : Phase
  frameIdx       : Word
  totalFrames    : Word
  bytesRem       : BitVec 64
  correctedTotal : Word
  cwDone         : Word
  deriving DecidableEq, Repr

/-- A range of system memory: `len` bytes from `base` on. -/
structure MemRange where
  base : Nat
  len  : Nat
  deriving DecidableEq, Repr

/-- The memory ranges a command reads and writes (20_memory.md R81). -/
structure Footprint where
  reads  : List MemRange
  writes : List MemRange
  deriving DecidableEq, Repr

/-- An issued command whose completion the host has not observed (20_memory.md R90, R91): its ranges, and once it has
completed the IRQ_STATUS bits its completion newly set (log 7). -/
structure Flight where
  ranges  : Footprint
  irqBits : Option (BitVec 2)
  deriving DecidableEq, Repr

/-- The two agents of 00_scope.md R2. -/
inductive Agent where
  | host | engine
  deriving DecidableEq, Repr

/-- System memory (20_memory.md R80) as the cells something has written since power-up, addresses strictly rising. -/
abbrev Memory := List Host.Cell

/-- The state of the block (R64), the system memory it reaches (R65), and the host (log 1, 2, 7, 16). -/
structure State where
  /-- `PENDING` (R60); STATUS.BUSY says it is not none. -/
  pending   : Option Word
  /-- `LAST_CMD` (R38) -/
  lastCmd   : Word
  /-- STATUS.ERR_CODE (R37); STATUS.ERR says it is not NONE. -/
  errCode   : ErrCode
  /-- STATUS.OVERRUN (R37, R61) -/
  overrun   : Bool
  /-- IRQ_STATUS: bit 0 DONE, bit 1 ERROR (R39) -/
  irqStatus : BitVec 2
  /-- IRQ_ENABLE (R39) -/
  irqEnable : BitVec 2
  /-- CFG_BLOCK_SIZE .. CFG_CRF (R40) -/
  staging   : ConfigRecord
  /-- CFG_DEQ.VOTE (R45) -/
  vote      : VoteMode
  /-- `ACT` (R41); STATUS.CFG_VALID says it is not none. -/
  act       : Option ConfigRecord
  /-- ARG_SRC .. ARG_ERA_COUNT (R46, R47) -/
  args      : ArgRegs
  /-- RES0, RES1, RES2 (R48) -/
  res0      : Word
  res1      : Word
  res2      : Word
  /-- SEQ_* (R55 to R58) -/
  seq       : Sequencer
  /-- the header buffer `HB` (R63), 112 bytes -/
  hb        : List Byte
  /-- system memory (R65) -/
  mem       : Memory
  /-- the reset input is asserted (70_reset_and_hazards.md R360); the platform's, not the block's (log 21) -/
  resetInput : Bool
  /-- MODEL'S OWN: the rest of the host program (R117, log 2) -/
  host      : List HostOp
  /-- MODEL'S OWN: which agent moves next (R60, R369, log 1) -/
  sched     : List Agent
  /-- MODEL'S OWN: what the host has read, newest first (R117, log 16) -/
  hostReads : List HostRead
  /-- MODEL'S OWN: commands whose completion the host has not observed, newest first (R90, R91, log 7) -/
  inFlight  : List Flight
  /-- MODEL'S OWN: how many busy resets drew from `Config.srstLands` (R362, log 4) -/
  draws     : Nat
  deriving DecidableEq, Repr

/-- Why a run stops with a fault. All three are faults of the HOST program (60_exceptions.md R333); the block itself never
stops. Each is safe: the model stops where the hardware goes on in a way the spec does not give. -/
inductive Fault where
  /-- Raised by a host register access that is not 32 bits wide or not 4-byte aligned: "answered with a bus error on the host
  bus" (20_memory.md R86). Safe. -/
  | hostBusError
  /-- Raised by a host load or store that meets a command in flight: "A model treats such a host access as a fault"
  (20_memory.md R91). Safe. -/
  | hostDataRace
  /-- Raised by a host load or store that passes the last address of system memory: 20_memory.md R80 gives it addresses
  0 .. 2^32 - 1 (log 10). Safe. -/
  | noSuchAddress
  deriving DecidableEq, Repr

/-- Why a command has no meaning. -/
inductive Refusal where
  /-- Raised by a dispatch arm without a meaning (none is left). Safe. -/
  | notModelled (mnemonic : String)
  deriving DecidableEq, Repr

/-- The reset values of R64: the CLI defaults in the staging registers (R40), no command, no active configuration, an idle
sequencer, everything else 0. Memory lists nothing: its contents at power-up are a draw (log 3). The reset input is released
(DESIGN CHOICE, log 21). The model's own fields are empty (DESIGN CHOICE, log 16). -/
def State.reset : State where
  pending   := Option.none
  lastCmd   := 0
  errCode   := .none
  overrun   := false
  irqStatus := 0
  irqEnable := 0
  staging   := { blockSize := 8, levels := 2, eccParity := 64, fps := 30, crf := 18 }
  vote      := .mean
  act       := Option.none
  args      := { src := 0, dst := 0, len := 0, aux := 0, eraAddr := 0, eraCount := 0 }
  res0      := 0
  res1      := 0
  res2      := 0
  seq       := { phase := .idle, frameIdx := 0, totalFrames := 0, bytesRem := 0, correctedTotal := 0, cwDone := 0 }
  hb        := List.replicate 112 0
  mem       := []
  resetInput := false
  host      := []
  sched     := []
  hostReads := []
  inFlight  := []
  draws     := 0

end Sys2Proof.Machine
end

