-- ==== Sys2Proof/Machine/Ops.lean ====
section
/-! DEFINITION. The shared operations: system memory (20_memory.md R82 to R84), the two completions (60_exceptions.md R325,
R326), which take the place of exceptions in this block (R320), and the first-failing-test rule of the preconditions. -/

namespace Sys2Proof.Machine

/-! System memory. -/

/-- The byte last written to address `a`, if something has written it. -/
def Memory.lookup (m : Memory) (a : Nat) : Option Byte := (m.find? (fun c => c.1 == a)).map (·.2)

/-- `M[a]` (R82); where nothing has written, the power-up content, a free value (R64, log 3). -/
def Memory.readByte (m : Memory) (a : Nat) : Byte := (Memory.lookup m a).getD (Config.powerUpByte a)

/-- `MemRead(a, n)` (R82). -/
def Memory.read (m : Memory) (a n : Nat) : List Byte := (List.range n).map fun i => Memory.readByte m (a + i)

/-- The bytes `bs` as cells from address `a` on. -/
def cellsAt : Nat → List Byte → List Host.Cell
  | _, [] => []
  | a, b :: bs => (a, b) :: cellsAt (a + 1) bs

/-- `MemWrite(a, len(bs), bs)` (R83): the cells below the range, the written bytes, the cells above it. -/
def Memory.write (m : Memory) (a : Nat) (bs : List Byte) : Memory :=
  m.filter (fun c => decide (c.1 < a)) ++ cellsAt a bs ++ m.filter (fun c => decide (a + bs.length ≤ c.1))

/-- The canonical form: addresses strictly rising, all inside system memory. An unlisted address has no value of its own, so no
entry can equal it (log 3). -/
abbrev Memory.wf (m : Memory) : Prop :=
  m.Pairwise (fun x y => x.1 < y.1) ∧ ∀ c ∈ m, c.1 < Config.memBytes

/-- Memory after some of a discarded command's byte writes landed (R362): each written byte is the new one where `lands` says
so, else what the old memory holds. -/
def Memory.blend (lands : Nat → Bool) (old new : Memory) : Memory :=
  new.filterMap fun c => if lands c.1 then some c else (Memory.lookup old c.1).map (c.1, ·)

/-- `CheckRange(a, n)`: `n = 0 ∨ a + n ≤ MEM_BYTES`, on unbounded integers (R84). -/
def checkRange (a n : Nat) : Bool := n == 0 || decide (a + n ≤ Config.memBytes)

/-! Preconditions. -/

/-- The error of the first failing test of an ordered list (00_scope.md R10, 60_exceptions.md R323). -/
def firstError : List (Bool × ErrCode) → Option ErrCode
  | [] => none
  | (failed, e) :: rest => if failed then some e else firstError rest

/-! Completions. -/

/-- A flight whose command completes now; `fresh` are the IRQ_STATUS bits that were 0 before. -/
def Flight.landed (fresh : BitVec 2) (f : Flight) : Flight :=
  match f.irqBits with
  | none => { f with irqBits := some fresh }
  | some _ => f

/-- The part the two completions share: RES0..RES2, ERR_CODE, IRQ_STATUS bits set, PENDING cleared (R325, R326). -/
def finish (e : ErrCode) (irq : BitVec 2) (r0 r1 r2 : Word) (s : State) : State :=
  { s with
    res0 := r0, res1 := r1, res2 := r2, errCode := e
    irqStatus := s.irqStatus ||| irq
    pending := none
    inFlight := s.inFlight.map (Flight.landed (irq &&& ~~~ s.irqStatus)) }

/-- `complete(r0, r1, r2)`: the success completion (R325); results are written as 32-bit words (log 17). -/
def complete (r0 r1 r2 : Nat) (s : State) : State :=
  finish .none 0b01 (BitVec.ofNat 32 r0) (BitVec.ofNat 32 r1) (BitVec.ofNat 32 r2) s

/-- `raise E`: the error completion (R326). There is no handler and nothing to return to (R320, R328). -/
def raise (e : ErrCode) (s : State) : State := finish e 0b11 0 0 0 s

/-- The end of every command: raise the error a precondition names, else go on. -/
def orRaise (pre : Option ErrCode) (s : State) (go : State → State) : State :=
  match pre with
  | some e => raise e s
  | none => go s

end Sys2Proof.Machine
end

