-- ==== Sys2Proof/Machine/Operands.lean ====
section
/-! DEFINITION. How operands are formed: number notation (00_scope.md R7), the derived geometry (R6), the ARG_* forms
(30_encoding.md R113, R114). -/

namespace Sys2Proof.Machine

/-- `ceil_div(a, b) = (a + b - 1) div b` (R7). -/
def ceilDiv (a b : Nat) : Nat := (a + b - 1) / b

/-- `sat32(x) = min(x, 0xFFFFFFFF)` (R285). -/
def sat32 (x : Nat) : Nat := min x 0xFFFFFFFF

/-- `LE16`, `LE32`, `LE64`: byte 0 least significant (R7). -/
def leNat : List Byte → Nat
  | [] => 0
  | b :: bs => b.toNat + 256 * leNat bs

/-- The `n` little-endian bytes of `v` (R7, 20_memory.md R85). -/
def leBytes : Nat → Nat → List Byte
  | 0, _ => []
  | n + 1, v => BitVec.ofNat 8 v :: leBytes n (v / 256)

/-- `b[i..j)` (R7). -/
def slice (b : List Byte) (i j : Nat) : List Byte := (b.drop i).take (j - i)

/-- `PAD^n` (R7). -/
def pad (n : Nat) : List Byte := List.replicate n Config.padByte

/-- The derived geometry of R6, with the canvas width and the configuration it comes from. -/
structure Geometry where
  cw  : Nat
  ch  : Nat
  s   : Nat
  l   : Nat
  p   : Nat
  bpc : Nat
  bpb : Nat
  bx  : Nat
  bRows : Nat
  nb  : Nat
  pay : Nat
  c   : Nat
  k   : Nat
  deriving DecidableEq, Repr

/-- R6 on a canvas of `cw × ch` pixels: `BPC, BPB, BX, BY, NB, P, C, K`. -/
def geometryOn (cw ch s l p : Nat) : Geometry :=
  let bpc := Nat.log2 l
  let bpb := 3 * bpc
  let bx := cw / s
  let bRows := ch / s
  let nb := bx * bRows
  let pay := nb * bpb / 8
  { cw := cw, ch := ch, s := s, l := l, p := p, bpc := bpc, bpb := bpb, bx := bx, bRows := bRows, nb := nb, pay := pay
    c := pay / Config.cwLen, k := Config.cwLen - p }

/-- R6 on the block's canvas. -/
def geometry (s l p : Nat) : Geometry := geometryOn Config.canvasW Config.canvasH s l p

/-- The geometry of a configuration. -/
def configGeometry (c : ConfigRecord) : Geometry := geometry c.blockSize.toNat c.levels.toNat c.eccParity.toNat

/-- The header geometry (43_frame_codec.md R232). -/
def headerGeometry : Geometry := geometry Config.hdrBlockSize Config.hdrLevels Config.hdrParity

/-- All zero: what GEO_* read when there is no active configuration (10_state.md R42). -/
def noGeometry : Geometry :=
  { cw := Config.canvasW, ch := Config.canvasH, s := 0, l := 0, p := 0, bpc := 0, bpb := 0, bx := 0, bRows := 0, nb := 0
    pay := 0, c := 0, k := 0 }

/-- The geometry of the active configuration, zero where there is none (R42; log 11). -/
def activeGeometry (s : State) : Geometry :=
  match s.act with
  | none => noGeometry
  | some c => configGeometry c

/-- STATUS.CFG_VALID (R37, R41). -/
def cfgValid (s : State) : Bool := s.act.isSome

/-- ARG_SRC, ARG_DST, ARG_LEN as byte addresses and a count (R46). -/
def argSrc (s : State) : Nat := s.args.src.toNat
def argDst (s : State) : Nat := s.args.dst.toNat
def argLen (s : State) : Nat := s.args.len.toNat
/-- ARG_AUX as QUANT and DEQUANT read it (R113). -/
def argAux (s : State) : Nat := s.args.aux.toNat
/-- `p = ARG_AUX[7:0]`, zero-extended (R113, R115). -/
def auxParity (s : State) : Nat := (s.args.aux.extractLsb' 0 8).toNat
/-- `ARG_AUX[31:8] ≠ 0` or `p > 254`: the parity operand is illegal (R113). -/
def auxParityBad (s : State) : Bool := s.args.aux.extractLsb' 8 24 != 0 || decide (254 < auxParity s)
/-- ARG_ERA_ADDR and ARG_ERA_COUNT (R47). -/
def argEraAddr (s : State) : Nat := s.args.eraAddr.toNat
def argEraCount (s : State) : Nat := s.args.eraCount.toNat

end Sys2Proof.Machine
end

