-- ==== Sys2Proof/Machine/ConfigCmd.lean ====
section
/-! DEFINITION. The configuration commands (40_config.md): Validate R142, NOP R140, CFG_COMMIT R141. -/

namespace Sys2Proof.Machine

/-- The legal level counts (R142 test 1, R144). -/
def legalLevels : List Nat := [2, 4, 8, 16, 32, 64, 128, 256]

/-- `Validate(S, L, p, fps, crf)` on a canvas of `cw × ch`: the first failing test decides; none is `ok` (R142). -/
def validateOn (cw ch : Nat) (r : ConfigRecord) : Option ErrCode :=
  let s := r.blockSize.toNat
  let l := r.levels.toNat
  let p := r.eccParity.toNat
  firstError
    [(!legalLevels.contains l, .cfgInvalidLevels),
     (s == 0 || cw % s != 0 || ch % s != 0, .cfgInvalidBlockSize),
     (r.fps.toNat == 0, .cfgInvalidFps),
     (decide (Config.crfMax < r.crf.toNat), .cfgInvalidCrf),
     (decide (254 < p), .cfgInvalidEcc),
     ((geometryOn cw ch s l p).c == 0, .cfgInvalidBlockSize)]

/-- `Validate` on the block's canvas (R142). -/
def validate (r : ConfigRecord) : Option ErrCode := validateOn Config.canvasW Config.canvasH r

/-- The phases in which a stream is in progress (44_stream.md R275). -/
def streamActive : Phase → Bool
  | .encHeader | .encPayload | .decHeader | .decPayload => true
  | .idle | .done | .failed => false

/-- NOP (R140). -/
def execNop (s : State) : Host.Outcome State Fault Refusal := .next (complete 0 0 0 s)

/-- CFG_COMMIT's precondition (R141). -/
def cfgCommitPre (s : State) : Option ErrCode := firstError [(streamActive s.seq.phase, .sequence)]

/-- CFG_COMMIT (R141): validate the staging registers, make them ACT, answer `P`, `C`, `K`. -/
def execCfgCommit (s : State) : Host.Outcome State Fault Refusal :=
  .next (orRaise (cfgCommitPre s) s fun s => orRaise (validate s.staging) s fun s =>
    let g := configGeometry s.staging
    complete g.pay g.c g.k { s with act := some s.staging })

end Sys2Proof.Machine
end

