-- ==== Sys2Proof/Machine/Quant.lean ====
section
/-! DEFINITION. The quantizer and dequantizer (42_quantizer.md): R200 to R207, commands QUANT R210, DEQUANT R211,
DEQUANT_BLOCK R212. -/

namespace Sys2Proof.Machine

/-- `q_L(i)` (R200). -/
def quantLevel (l i : Nat) : Nat := (510 * i + (l - 1)) / (2 * (l - 1))

/-- `dq_L(v)` (R202). -/
def dequantLevel (l v : Nat) : Nat := (2 * v * (l - 1) + 255) / 510

/-- The sum Σ of channel values. -/
def sampleSum (vs : List Byte) : Nat := (vs.map (·.toNat)).sum

/-- `mean_idx_L(v_1..v_n)` (R205). -/
def meanIndex (l : Nat) (vs : List Byte) : Nat :=
  (2 * sampleSum vs * (l - 1) + 255 * vs.length) / (510 * vs.length)

/-- `cnt[k]`: the votes for index `k` (R206). -/
def voteCount (l : Nat) (vs : List Byte) (k : Nat) : Nat := vs.countP fun v => dequantLevel l v.toNat == k

/-- `maj_idx_L(v_1..v_n)`: the index with the most votes, the smallest one when several tie (R206). -/
def majorityIndex (l : Nat) (vs : List Byte) : Nat :=
  (List.range l).foldl (fun best k => if voteCount l vs best < voteCount l vs k then k else best) 0

/-- `BlockIndex_L(samples)` (R207). -/
def blockIndex (l : Nat) (vote : VoteMode) (vs : List Byte) : Nat :=
  match vote with
  | .mean => meanIndex l vs
  | .majority => majorityIndex l vs

/-- QUANT's preconditions (R210). -/
def quantPre (s : State) : Option ErrCode :=
  firstError [(!cfgValid s, .notConfigured), (decide ((activeGeometry s).l ≤ argAux s), .operand)]

/-- QUANT (R210). -/
def execQuant (s : State) : Host.Outcome State Fault Refusal :=
  .next (orRaise (quantPre s) s fun s => complete (quantLevel (activeGeometry s).l (argAux s)) 0 0 s)

/-- DEQUANT's preconditions (R211). -/
def dequantPre (s : State) : Option ErrCode :=
  firstError [(!cfgValid s, .notConfigured), (decide (255 < argAux s), .operand)]

/-- DEQUANT (R211). -/
def execDequant (s : State) : Host.Outcome State Fault Refusal :=
  .next (orRaise (dequantPre s) s fun s => complete (dequantLevel (activeGeometry s).l (argAux s)) 0 0 s)

/-- DEQUANT_BLOCK's preconditions (R212). -/
def dequantBlockPre (s : State) : Option ErrCode :=
  firstError
    [(!cfgValid s, .notConfigured),
     (argLen s == 0 || decide (65535 < argLen s), .operand),
     (!checkRange (argSrc s) (argLen s), .bus)]

/-- RES1 of DEQUANT_BLOCK: the sum under MEAN, the winning vote count under MAJORITY (R212). -/
def blockAux (l : Nat) (vote : VoteMode) (vs : List Byte) : Nat :=
  match vote with
  | .mean => sampleSum vs
  | .majority => voteCount l vs (majorityIndex l vs)

/-- DEQUANT_BLOCK (R212). -/
def execDequantBlock (s : State) : Host.Outcome State Fault Refusal :=
  .next (orRaise (dequantBlockPre s) s fun s =>
    let l := (activeGeometry s).l
    let vs := Memory.read s.mem (argSrc s) (argLen s)
    complete (blockIndex l s.vote vs) (blockAux l s.vote vs) (argLen s) s)

end Sys2Proof.Machine
end

