-- ==== Sys2Proof/Machine/Frame.lean ====
section
/-! DEFINITION. The frame codec (43_frame_codec.md): pixel layout R230, R231, bit stream R236 to R238, PackFrame R239,
UnpackFrame R240, slots R243, commands PACK_FRAME R245 and UNPACK_FRAME R246. Every function takes the geometry, so it means
the same on any canvas. -/

namespace Sys2Proof.Machine

/-- FRAME_BYTES of a geometry's canvas (R230). -/
def frameLen (g : Geometry) : Nat := g.cw * g.ch * 3

/-- The byte offset of channel `c` of pixel `(x, y)` (R230). -/
def pixelOffset (g : Geometry) (x y c : Nat) : Nat := (y * g.cw + x) * 3 + c

/-- `bit(t)` of a payload buffer: most significant bit of each byte first, 0 past `8 * P` (R236, R238). -/
def streamBit (g : Geometry) (buf : List Byte) (t : Nat) : Bool :=
  decide (t < 8 * g.pay) && (buf.getD (t / 8) 0).getLsbD (7 - t % 8)

/-- A number from `n` bits, the first one most significant. -/
def bitsValue (bits : Nat → Bool) : Nat → Nat
  | 0 => 0
  | n + 1 => 2 * bitsValue bits n + (bits n).toNat

/-- `idx(b, c)` (R237). -/
def packIndex (g : Geometry) (buf : List Byte) (b c : Nat) : Nat :=
  bitsValue (fun j => streamBit g buf (b * g.bpb + c * g.bpc + j)) g.bpc

/-- The block that pixel `(x, y)` belongs to (R231). -/
def blockOfPixel (g : Geometry) (x y : Nat) : Nat := (y / g.s) * g.bx + x / g.s

/-- The byte of `PackFrame(B)` at an offset: `q_L(idx(b, c))` of the pixel and channel there (R239). -/
def packByte (g : Geometry) (buf : List Byte) (o : Nat) : Byte :=
  let px := o / 3
  BitVec.ofNat 8 (quantLevel g.l (packIndex g buf (blockOfPixel g (px % g.cw) (px / g.cw)) (o % 3)))

/-- `PackFrame(B)` (R239). -/
def packFrame (g : Geometry) (buf : List Byte) : List Byte := (List.range (frameLen g)).map (packByte g buf)

/-- `samples(b, c)`: the `S * S` bytes of channel `c` over block `b` (R231, R240), read from a frame by offset. -/
def blockSamples (g : Geometry) (frame : Nat → Byte) (b c : Nat) : List Byte :=
  (List.range (g.s * g.s)).map fun k =>
    frame (pixelOffset g ((b % g.bx) * g.s + k % g.s) ((b / g.bx) * g.s + k / g.s) c)

/-- `k(b, c)` (R240). -/
def unpackIndex (g : Geometry) (vote : VoteMode) (frame : Nat → Byte) (b c : Nat) : Nat :=
  blockIndex g.l vote (blockSamples g frame b c)

/-- The stream bit at position `t` of the unpacked frame: bit `j` of channel `c` of block `b`, most significant first (R240). -/
def unpackBit (g : Geometry) (vote : VoteMode) (frame : Nat → Byte) (t : Nat) : Bool :=
  (unpackIndex g vote frame (t / g.bpb) (t % g.bpb / g.bpc)).testBit (g.bpc - 1 - t % g.bpc)

/-- `B[j]`: the byte whose bit `7 - i` is stream bit `8j + i` (R240). -/
def unpackByte (g : Geometry) (vote : VoteMode) (frame : Nat → Byte) (j : Nat) : Byte :=
  BitVec.ofNat 8 (bitsValue (fun i => unpackBit g vote frame (8 * j + i)) 8)

/-- `UnpackFrame(F)` (R240), of the frame that holds `frame o` at offset `o`. It undoes `packFrame`, in both vote modes (R241),
and so it does with every byte changed by at most `M_L` (R242). -/
def unpackFrame (g : Geometry) (vote : VoteMode) (frame : Nat → Byte) : List Byte :=
  (List.range g.pay).map (unpackByte g vote frame)

/-- `PlaceSlots(w_0, ..., w_{u-1})` (R243). -/
def placeSlots (g : Geometry) (ws : List (List Byte)) : List Byte :=
  ws.flatten ++ pad (g.pay - Config.cwLen * ws.length)

/-- Slot `s` of a payload buffer: `B[255*s .. 255*s + 255)` (R243). -/
def slot (buf : List Byte) (i : Nat) : List Byte := slice buf (Config.cwLen * i) (Config.cwLen * i + Config.cwLen)

/-- The frame in system memory at `a`, by offset (R230). -/
def frameAt (m : Memory) (a : Nat) : Nat → Byte := fun o => Memory.readByte m (a + o)

/-! PACK_FRAME (R245). -/

def packFramePre (s : State) : Option ErrCode :=
  firstError
    [(!cfgValid s, .notConfigured),
     (decide ((activeGeometry s).pay < argLen s), .operand),
     (!checkRange (argSrc s) (argLen s) || !checkRange (argDst s) Config.frameBytes, .bus)]

/-- PACK_FRAME (R245). -/
def execPackFrame (s : State) : Host.Outcome State Fault Refusal :=
  .next (orRaise (packFramePre s) s fun s =>
    let g := activeGeometry s
    let buf := Memory.read s.mem (argSrc s) (argLen s) ++ pad (g.pay - argLen s)
    complete g.pay (argLen s) g.nb { s with mem := Memory.write s.mem (argDst s) (packFrame g buf) })

/-! UNPACK_FRAME (R246). -/

def unpackFramePre (s : State) : Option ErrCode :=
  firstError
    [(!cfgValid s, .notConfigured),
     (!checkRange (argSrc s) Config.frameBytes || !checkRange (argDst s) (activeGeometry s).pay, .bus)]

/-- UNPACK_FRAME (R246). -/
def execUnpackFrame (s : State) : Host.Outcome State Fault Refusal :=
  .next (orRaise (unpackFramePre s) s fun s =>
    let g := activeGeometry s
    complete g.pay 0 g.nb
      { s with mem := Memory.write s.mem (argDst s) (unpackFrame g s.vote (frameAt s.mem (argSrc s))) })

end Sys2Proof.Machine
end

