-- ==== Sys2Proof/Machine/Gf.lean ====
section
/-! DEFINITION. The field GF(2^8) (00_scope.md R8, 41_rs_codec.md R160, R161). -/

namespace Sys2Proof.Machine

/-- The loop of R160's `gf_mul` for `k = 7 - n .. 7`: `r` the sum so far, `t` the 9-bit shifted multiplicand. -/
def gfMulLoop (poly : BitVec 9) (b : Byte) : Nat → Byte → BitVec 9 → Byte
  | 0, r, _ => r
  | n + 1, r, t =>
    let r' := if b.getLsbD (7 - n) then r ^^^ t.extractLsb' 0 8 else r
    let t' := t <<< 1
    gfMulLoop poly b n r' (if t'.getLsbD 8 then t' ^^^ poly else t')

/-- `gf_mul(a, b)` modulo a polynomial of degree 8. -/
def gfMulMod (poly : BitVec 9) (a b : Byte) : Byte := gfMulLoop poly b 8 0 (a.zeroExtend 9)

/-- `a ⊗ b` (R160). Addition `a ⊕ b` is `a ^^^ b`. -/
def gfMul (a b : Byte) : Byte := gfMulMod Config.gfPoly a b

/-- `α` multiplied by itself `i` times. -/
def gfPowNat : Nat → Byte
  | 0 => 0x01
  | i + 1 => gfMul (gfPowNat i) Config.gfAlpha

/-- `α^i`, the exponent taken mod 255 (R8, R161). -/
def gfAlphaPow (i : Nat) : Byte := gfPowNat (i % 255)

/-- The search behind `log`: `cur = α^k`. -/
def gfLogFrom (a : Byte) : (fuel k : Nat) → (cur : Byte) → Nat
  | 0, k, _ => k
  | fuel + 1, k, cur => if cur = a then k else gfLogFrom a fuel (k + 1) (gfMul cur Config.gfAlpha)

/-- `log(a)`, the exponent in `[0, 254]` with `α^log(a) = a`, for `a ≠ 0` (R161). -/
def gfLog (a : Byte) : Nat := gfLogFrom a 254 0 0x01

/-- `a^-1 = α^((255 - log(a)) mod 255)`, for `a ≠ 0` (R161); "0x00 has no inverse and no rule divides by it". -/
def gfInv (a : Byte) : Byte := gfAlphaPow (255 - gfLog a)

/-- `Σ a_i ⊗ b_i`, as far as both lists reach. -/
def gfDot : List Byte → List Byte → Byte
  | a :: as, b :: bs => gfMul a b ^^^ gfDot as bs
  | _, _ => 0

/-- The product of a list of field elements. -/
def gfProd : List Byte → Byte
  | [] => 0x01
  | a :: as => gfMul a (gfProd as)

end Sys2Proof.Machine
end

