-- ==== Sys2Proof/Machine/Rs.lean ====
section
/-! DEFINITION. The Reed-Solomon codec (41_rs_codec.md): encoder R166, decoder R170, commands RS_ENCODE R176 and RS_DECODE
R177. -/

namespace Sys2Proof.Machine

/-! Codewords (R162 to R165). -/

/-- A polynomial, highest degree first, times `x ⊕ a`. -/
def polyMulLinear (a : Byte) (g : List Byte) : List Byte :=
  List.zipWith (· ^^^ ·) (g ++ [0]) (0 :: g.map (gfMul a))

/-- `g_p(x)`, highest degree first (R163). -/
def genPoly : Nat → List Byte
  | 0 => [0x01]
  | p + 1 => polyMulLinear (gfAlphaPow (Config.rsFcr + p)) (genPoly p)

/-- `eval(r, x)` by Horner's rule (R165). -/
def polyEval (r : List Byte) (x : Byte) : Byte := r.foldl (fun y ri => gfMul y x ^^^ ri) 0

/-- The syndrome `S_j(r) = r(α^(FCR+j))` (R165). -/
def syndrome (r : List Byte) (j : Nat) : Byte := polyEval r (gfAlphaPow (Config.rsFcr + j))

/-- `S_0 .. S_{p-1}` (R165). -/
def syndromes (r : List Byte) (p : Nat) : List Byte := (List.range p).map (syndrome r)

/-- `r ∈ RS(len(r), p)`: every syndrome is zero (R164, R165). -/
def isCodeword (p : Nat) (r : List Byte) : Bool := (syndromes r p).all (· == 0)

/-! Encoding (R166). -/

/-- Adds `t ⊗ gs` to the front of `w`. -/
def addScaled (t : Byte) : List Byte → List Byte → List Byte
  | g :: gs, x :: w => (x ^^^ gfMul g t) :: addScaled t gs w
  | _, w => w

/-- R166's loop: `m` steps of division by the monic polynomial `x^p + gs`, leaving the remainder at the front. -/
def rsDivide (gs : List Byte) : Nat → List Byte → List Byte
  | 0, w => w
  | _ + 1, [] => []
  | m + 1, t :: w => rsDivide gs m (if t = 0 then w else addScaled t gs w)

/-- The parity bytes: `d(x) ⊗ x^p` modulo `g_p(x)` (R166). -/
def rsParity (d : List Byte) (p : Nat) : List Byte :=
  rsDivide (genPoly p).tail d.length (d ++ List.replicate p 0)

/-- `RSEnc(d, p) = d || parity` (R166). -/
def rsEnc (d : List Byte) (p : Nat) : List Byte := d ++ rsParity d p

/-! Decoding (R168 to R172). -/

/-- A legal erasure list for length `n`: every entry below `n`, pairwise distinct (R168; `f ≤ p` is tested before). -/
def erasuresLegal (n : Nat) (era : List Nat) : Bool := era.all (fun e => decide (e < n)) && decide era.Nodup

/-- `|{ i : c_i ≠ r_i }|` (R170, R172). -/
def changedCount (c r : List Byte) : Nat := (List.zip c r).countP fun x => x.1 != x.2

/-- `e(c) = |{ i ∉ E : c_i ≠ r_i }|` (R169). -/
def errorCount (c r : List Byte) (era : List Nat) : Nat :=
  (List.zip c r).zipIdx.countP fun x => x.1.1 != x.1.2 && !era.contains x.2

/-- What `OK(data, corrected, errors)` carries (R170). -/
structure RsResult where
  data      : List Byte
  corrected : Nat
  errors    : Nat
  deriving DecidableEq, Repr

/-- The locator `X_i = α^(n-1-i)` of position `i` (R162). -/
def locator (n i : Nat) : Byte := gfAlphaPow (n - 1 - i)

/-- `∏ (1 ⊕ X x)` over the locators `xs`, LOWEST degree first: the erasure locator of R174 step 2. -/
def locatorPoly : List Byte → List Byte
  | [] => [0x01]
  | x :: xs => let q := locatorPoly xs; List.zipWith (· ^^^ ·) (q ++ [0]) (0 :: q.map (gfMul x))

/-- Σ_k q_k x^k, LOWEST degree first. -/
def evalLow (q : List Byte) (x : Byte) : Byte := polyEval q.reverse x

/-- `∏ (x ⊕ X)` over the locators `xs`, LOWEST degree first. -/
def rootPoly (xs : List Byte) : List Byte := (locatorPoly xs).reverse

/-- Σ_k q_k s_{j-k}: one coefficient of a product with the sequence `s`. -/
def convAt (q s : List Byte) (j : Nat) : Byte := gfDot q ((List.range (j + 1)).map fun k => s.getD (j - k) 0)

/-- A non-zero solution of `row · x = 0` for every row, of the given number of unknowns, if there is one: eliminate the first
unknown with a row in which it is non-zero, solve for the others, substitute back. -/
def kernelVector : Nat → List (List Byte) → Option (List Byte)
  | 0, _ => none
  | n + 1, rows =>
    match rows.find? (fun r => r.headD 0 != 0) with
    | none => some (0x01 :: List.replicate n 0)
    | some q =>
      let inv := gfInv (q.headD 0)
      let reduced := rows.map fun r => List.zipWith (fun a b => a ^^^ gfMul (gfMul (r.headD 0) inv) b) r.tail q.tail
      (kernelVector n reduced).map fun y => gfMul inv (gfDot q.tail y) :: y

/-- A polynomial of degree at most `τ = (p - f) div 2`, LOWEST degree first, that vanishes at `X_i^-1` for every error position
`i` outside the erasures when there are at most `τ` errors. With `T` the syndromes times the erasure locator,
`T_j = Σ_i Y_i Γ(X_i^-1) X_i^j` runs over the errors only for `j ≥ f`, so any non-zero `Λ` with `Σ_k Λ_k T_{j-k} = 0` for
`f + τ ≤ j < p` does (a Vandermonde system). log 5. -/
def errorLocator (p : Nat) (synd : List Byte) (eraX : List Byte) : Option (List Byte) :=
  let f := eraX.length
  let tau := (p - f) / 2
  let gamma := locatorPoly eraX
  let mods := (List.range p).map (convAt gamma synd)
  let rows := (List.range (p - f - tau)).map fun d => (List.range (tau + 1)).map fun k => mods.getD (f + tau + d - k) 0
  kernelVector (tau + 1) rows

/-- The change at position `i` of the only word that agrees with the received one outside `pos` and could be a codeword: with
`W(x) = ∏_{k ∈ pos, k ≠ i} (x ⊕ X_k)`, `Y_i = (Σ_j W_j S_j) ⊗ (X_i^FCR ⊗ W(X_i))^-1`. -/
def magnitude (n : Nat) (synd : List Byte) (pos : List Nat) (i : Nat) : Byte :=
  let w := rootPoly ((pos.filter (· != i)).map (locator n))
  gfMul (gfDot w synd) (gfInv (gfMul (gfAlphaPow (Config.rsFcr * (n - 1 - i))) (evalLow w (locator n i))))

/-- The received word with the positions `pos` changed by their magnitudes. -/
def fillPositions (r synd : List Byte) (pos : List Nat) : List Byte :=
  r.zipIdx.map fun x => if pos.contains x.2 then x.1 ^^^ magnitude r.length synd pos x.2 else x.1

/-- The word the decoder proposes: errors located by `errorLocator`, values filled in. -/
def candidate (r : List Byte) (p : Nat) (era : List Nat) : Option (List Byte) :=
  let n := r.length
  let synd := syndromes r p
  (errorLocator p synd (era.map (locator n))).map fun lam =>
    let errs := (List.range n).filter fun i => !era.contains i && evalLow lam (gfInv (locator n i)) == 0
    fillPositions r synd (era ++ errs)

/-- The radius of R169: `2 e(c) + f ≤ p`. -/
def withinRadius (p : Nat) (era : List Nat) (r c : List Byte) : Bool :=
  decide (2 * errorCount c r era + era.length ≤ p)

/-- `OK(data, corrected, errors)` for the code member `c` (R170). -/
def rsOk (p : Nat) (era : List Nat) (r c : List Byte) : RsResult :=
  { data := c.take (r.length - p), corrected := changedCount c r, errors := errorCount c r era }

/-- `RSDec(r, p, E)` (R170): the member of the code within the radius of R169 if there is one (R171: at most one), else FAIL
(`none`). The last tests are R170's own, so whatever is returned is a member within the radius; that none is missed is argued
at `errorLocator` and stated as an obligation (log 5). -/
def rsDec (r : List Byte) (p : Nat) (era : List Nat) : Option RsResult :=
  match candidate r p era with
  | none => none
  | some c => if isCodeword p c && withinRadius p era r c then some (rsOk p era r c) else none

/-! RS_ENCODE (R176). -/

/-- R176's preconditions, in order. -/
def rsEncodePre (s : State) : Option ErrCode :=
  firstError
    [(auxParityBad s, .operand),
     (decide (255 < argLen s + auxParity s), .operand),
     (!checkRange (argSrc s) (argLen s) || !checkRange (argDst s) (argLen s + auxParity s), .bus)]

/-- RS_ENCODE (R176). -/
def execRsEncode (s : State) : Host.Outcome State Fault Refusal :=
  .next (orRaise (rsEncodePre s) s fun s =>
    let d := Memory.read s.mem (argSrc s) (argLen s)
    complete (argLen s + auxParity s) 0 0
      { s with mem := Memory.write s.mem (argDst s) (rsEnc d (auxParity s)) })

/-! RS_DECODE (R177). -/

/-- R177's preconditions 1 to 4, on operand registers. -/
def rsDecodePre (s : State) : Option ErrCode :=
  firstError
    [(auxParityBad s, .operand),
     (decide (255 < argLen s) || decide (argLen s < auxParity s), .operand),
     (decide (auxParity s < argEraCount s), .operand),
     (!checkRange (argSrc s) (argLen s) || !checkRange (argEraAddr s) (argEraCount s) ||
        !checkRange (argDst s) (argLen s - auxParity s), .bus)]

/-- The erasure list RS_DECODE reads (R177). -/
def erasureList (s : State) : List Nat := (Memory.read s.mem (argEraAddr s) (argEraCount s)).map (·.toNat)

/-- R177's precondition 5, on the list in memory. -/
def rsDecodeListPre (s : State) : Option ErrCode :=
  firstError [(!erasuresLegal (argLen s) (erasureList s), .operand)]

/-- RS_DECODE (R177). -/
def execRsDecode (s : State) : Host.Outcome State Fault Refusal :=
  .next (orRaise (rsDecodePre s) s fun s => orRaise (rsDecodeListPre s) s fun s =>
    match rsDec (Memory.read s.mem (argSrc s) (argLen s)) (auxParity s) (erasureList s) with
    | none => raise .eccUncorrectable s
    | some ok => complete ok.corrected ok.errors (argLen s - auxParity s)
        { s with mem := Memory.write s.mem (argDst s) ok.data })

end Sys2Proof.Machine
end

