-- ==== Sys2Proof/Machine/Stream.lean ====
section
/-! DEFINITION. Stream framing and the frame sequencer (44_stream.md): the header record R271, stream counts R272, header frame
R273, payload frames R274, ParseHeader R276, and the six stream commands R280 to R297. -/

namespace Sys2Proof.Machine

/-! The header record (R271). -/

/-- The 112-byte record STREAM_ENC_BEGIN builds from the host record `h`, the configuration and `PF` (R271, R280): flags,
plaintext_len, payload_len, checksum, salt and nonce are kept from `h`. -/
def buildRecord (h : List Byte) (c : ConfigRecord) (pf : Nat) : List Byte :=
  Config.hdrMagic ++ [Config.hdrVersion] ++ slice h 5 6 ++
    leBytes 1 c.eccParity.toNat ++ leBytes 1 c.crf.toNat ++
    leBytes 2 c.blockSize.toNat ++ leBytes 2 c.levels.toNat ++ leBytes 4 c.fps.toNat ++
    slice h 16 32 ++ leBytes 4 pf ++ slice h 36 108 ++ [0x00, 0x00, 0x00, 0x00]

/-- `hdr[5][7:1] ≠ 0` (R276 step 7, R280 precondition 4). -/
def flagsReservedSet (hdr : List Byte) : Bool := (hdr.getD 5 0).extractLsb' 1 7 != 0

/-- A bit or byte that R271 reserves is not 0: `hdr[5][7:1]` or `hdr[108 .. 112)` (R276 step 7; 93_implementation_defined.md
item 18). -/
def reservedSet (hdr : List Byte) : Bool := flagsReservedSet hdr || slice hdr 108 112 != [0, 0, 0, 0]

/-- `payload_len`, at offset 24 (R271). -/
def recordPayloadLen (hdr : List Byte) : Nat := leNat (slice hdr 24 32)

/-- `payload_frames`, at offset 32 (R271). -/
def recordFrames (hdr : List Byte) : Nat := leNat (slice hdr 32 36)

/-- The configuration snapshot of a record (R276 step 8). -/
def recordConfig (hdr : List Byte) : ConfigRecord :=
  { blockSize := BitVec.ofNat 32 (leNat (slice hdr 8 10))
    levels    := BitVec.ofNat 32 (leNat (slice hdr 10 12))
    eccParity := BitVec.ofNat 32 (leNat (slice hdr 6 7))
    fps       := BitVec.ofNat 32 (leNat (slice hdr 12 16))
    crf       := BitVec.ofNat 32 (leNat (slice hdr 7 8)) }

/-! Stream counts (R272). -/

/-- `NCW = ceil_div(payload_len, K)`. -/
def payloadCodewordCount (g : Geometry) (plen : Nat) : Nat := ceilDiv plen g.k

/-- `PF = ceil_div(NCW, C)`. -/
def payloadFrameCount (g : Geometry) (plen : Nat) : Nat := ceilDiv (payloadCodewordCount g plen) g.c

/-- `PF > 2^32 - 2`: the frame count does not fit (R280, R276 step 9). -/
def frameCountTooLarge (pf : Nat) : Bool := decide (2 ^ 32 - 2 < pf)

/-! The header frame (R273). -/

/-- `HS = LE16(HDR_LEN) || HB`. -/
def headerStream (hb : List Byte) : List Byte := leBytes 2 Config.hdrLen ++ hb

/-- `W0 = RSEnc(HS || PAD, 64)`. -/
def headerCodeword (hb : List Byte) : List Byte :=
  rsEnc (headerStream hb ++ pad (headerGeometry.k - (headerStream hb).length)) Config.hdrParity

/-- `B_H = PlaceSlots(W0)`. -/
def headerPayload (hb : List Byte) : List Byte := placeSlots headerGeometry [headerCodeword hb]

/-- `F_H = PackFrame_H(B_H)`. -/
def headerFrame (hb : List Byte) : List Byte := packFrame headerGeometry (headerPayload hb)

/-- The tests of ParseHeader on the decoded data `d` of the header codeword, steps 4 to 9 (R276). -/
def headerError (d : List Byte) : Option ErrCode :=
  let lenp := leNat (slice d 0 2)
  let hdr := slice d 2 114
  let cfg := recordConfig hdr
  let pf := recordFrames hdr
  let g := configGeometry cfg
  firstError
    [(slice hdr 0 4 != Config.hdrMagic, .formatBadMagic),
     (hdr.getD 4 0 != Config.hdrVersion, .formatBadVersion),
     (lenp != Config.hdrLen, .formatMalformed),
     (reservedSet hdr, .formatMalformed),
     ((validate cfg).isSome, .formatMalformed),
     (pf != ceilDiv (recordPayloadLen hdr) (g.c * g.k), .formatMalformed),
     (frameCountTooLarge pf, .formatMalformed)]

/-- `ParseHeader(F)` (R276): the record and the corrected count, or the first failing step's error. -/
def parseHeader (vote : VoteMode) (frame : Nat → Byte) : Except ErrCode (List Byte × Nat) :=
  let buf := unpackFrame headerGeometry vote frame
  match rsDec (slice buf 0 Config.cwLen) Config.hdrParity [] with
  | none => .error .eccUncorrectable
  | some ok =>
    match headerError ok.data with
    | some e => .error e
    | none => .ok (slice ok.data 2 114, ok.corrected)

/-! Payload frames (R274). -/

/-- `cnt = min(SEQ_BYTES_REM, C * K)` (R285, R292). -/
def payloadChunk (s : State) : Nat := min s.seq.bytesRem.toNat ((activeGeometry s).c * (activeGeometry s).k)

/-- The codeword that carries `D[j*K .. min((j+1)*K, cnt))`, padded to `K` bytes (R274, R285). -/
def payloadCodeword (g : Geometry) (d : List Byte) (j : Nat) : List Byte :=
  rsEnc (slice d (j * g.k) (min ((j + 1) * g.k) d.length) ++ pad ((j + 1) * g.k - d.length)) g.p

/-- The codewords of a payload frame that carries the bytes `d` (R274). -/
def payloadCodewords (g : Geometry) (d : List Byte) : List (List Byte) :=
  (List.range (ceilDiv d.length g.k)).map (payloadCodeword g d)

/-- The payload frame of R285 for the bytes `d`. -/
def payloadFrame (g : Geometry) (d : List Byte) : List Byte := packFrame g (placeSlots g (payloadCodewords g d))

/-- Decodes the slots `js` of a payload buffer; FAIL if one fails (R292). -/
def decodeSlots (p : Nat) (buf : List Byte) : List Nat → Option (List RsResult)
  | [] => some []
  | j :: js =>
    match rsDec (slot buf j) p [] with
    | none => none
    | some ok => (decodeSlots p buf js).map (ok :: ·)

/-- `c_0 + ... + c_{u-1}` (R292). -/
def correctedSum (oks : List RsResult) : Nat := (oks.map (·.corrected)).sum

/-- `d_0 || ... || d_{u-1}` (R292). -/
def decodedBytes (oks : List RsResult) : List Byte := (oks.map (·.data)).flatten

/-! STREAM_ENC_BEGIN (R280). -/

/-- The phases in which a stream may begin: IDLE, DONE, FAILED (R270). -/
def mayBegin (p : Phase) : Bool := !streamActive p

/-- R280's preconditions 1 to 3. -/
def streamEncBeginPre (s : State) : Option ErrCode :=
  firstError
    [(!cfgValid s, .notConfigured),
     (!mayBegin s.seq.phase, .sequence),
     (!checkRange (argSrc s) Config.hdrLen || !checkRange (argDst s) Config.hdrLen, .bus)]

/-- The host record (R280). -/
def hostRecord (s : State) : List Byte := Memory.read s.mem (argSrc s) Config.hdrLen

/-- `PF` for the host record's `payload_len` (R272, R280). -/
def hostFrameCount (s : State) : Nat := payloadFrameCount (activeGeometry s) (recordPayloadLen (hostRecord s))

/-- R280's precondition 4, on the host record, with the test of 93_implementation_defined.md item 18 (DEDUCED, log 20): non-zero
bytes 108..111 raise OPERAND as non-zero flags 7:1 do. -/
def streamEncBeginRecordPre (s : State) : Option ErrCode :=
  firstError [(reservedSet (hostRecord s), .operand), (frameCountTooLarge (hostFrameCount s), .operand)]

/-- The record STREAM_ENC_BEGIN emits (R280); without an active configuration, the zero configuration's (log 11). -/
def emittedRecord (s : State) : List Byte :=
  buildRecord (hostRecord s)
    (s.act.getD { blockSize := 0, levels := 0, eccParity := 0, fps := 0, crf := 0 }) (hostFrameCount s)

/-- STREAM_ENC_BEGIN (R280). -/
def execStreamEncBegin (s : State) : Host.Outcome State Fault Refusal :=
  .next (orRaise (streamEncBeginPre s) s fun s => orRaise (streamEncBeginRecordPre s) s fun s =>
    let hb := emittedRecord s
    let pf := hostFrameCount s
    complete (1 + pf) pf (activeGeometry s).k
      { s with
        hb := hb
        mem := Memory.write s.mem (argDst s) hb
        seq := { phase := .encHeader, frameIdx := 0, totalFrames := BitVec.ofNat 32 (1 + pf)
                 bytesRem := BitVec.ofNat 64 (recordPayloadLen (hostRecord s)), correctedTotal := 0, cwDone := 0 } })

/-! STREAM_ENC_FRAME (R285). -/

/-- R285's preconditions. -/
def streamEncFramePre (s : State) : Option ErrCode :=
  match s.seq.phase with
  | .encHeader => firstError [(!checkRange (argDst s) Config.frameBytes, .bus)]
  | .encPayload =>
    firstError [(!checkRange (argSrc s) (payloadChunk s) || !checkRange (argDst s) Config.frameBytes, .bus)]
  | .idle | .decHeader | .decPayload | .done | .failed => some .sequence

/-- The header-frame branch of R285. -/
def encodeHeaderFrame (s : State) : State :=
  complete 0 0 1
    { s with
      mem := Memory.write s.mem (argDst s) (headerFrame s.hb)
      seq := { s.seq with frameIdx := 1, phase := if s.seq.totalFrames = 1 then .done else .encPayload } }

/-- The sequencer after payload frame `SEQ_FRAME_IDX`: `cnt` bytes and `u` codewords on (R285, R292). -/
def advanceSeq (q : Sequencer) (cnt u corrected : Nat) : Sequencer :=
  { phase          := if q.frameIdx.toNat + 1 = q.totalFrames.toNat then .done else q.phase
    frameIdx       := BitVec.ofNat 32 (q.frameIdx.toNat + 1)
    totalFrames    := q.totalFrames
    bytesRem       := BitVec.ofNat 64 (q.bytesRem.toNat - cnt)
    correctedTotal := BitVec.ofNat 32 (sat32 (q.correctedTotal.toNat + corrected))
    cwDone         := BitVec.ofNat 32 (sat32 (q.cwDone.toNat + u)) }

/-- The payload-frame branch of R285. -/
def encodePayloadFrame (s : State) : State :=
  let g := activeGeometry s
  let cnt := payloadChunk s
  let u := ceilDiv cnt g.k
  complete s.seq.frameIdx.toNat cnt u
    { s with
      mem := Memory.write s.mem (argDst s) (payloadFrame g (Memory.read s.mem (argSrc s) cnt))
      seq := advanceSeq s.seq cnt u 0 }

/-- STREAM_ENC_FRAME (R285). -/
def execStreamEncFrame (s : State) : Host.Outcome State Fault Refusal :=
  .next (orRaise (streamEncFramePre s) s fun s =>
    if s.seq.phase = .encHeader then encodeHeaderFrame s else encodePayloadFrame s)

/-! STREAM_DEC_BEGIN (R290). -/

def streamDecBeginPre (s : State) : Option ErrCode := firstError [(!mayBegin s.seq.phase, .sequence)]

/-- STREAM_DEC_BEGIN (R290). -/
def execStreamDecBegin (s : State) : Host.Outcome State Fault Refusal :=
  .next (orRaise (streamDecBeginPre s) s fun s =>
    complete 0 0 0
      { s with seq := { phase := .decHeader, frameIdx := 0, totalFrames := 0, bytesRem := 0, correctedTotal := 0, cwDone := 0 } })

/-! STREAM_DEC_FRAME (R292). -/

/-- R292's preconditions. -/
def streamDecFramePre (s : State) : Option ErrCode :=
  match s.seq.phase with
  | .decHeader =>
    firstError [(!checkRange (argSrc s) Config.frameBytes, .bus), (!checkRange (argDst s) Config.hdrLen, .bus)]
  | .decPayload =>
    firstError [(!checkRange (argSrc s) Config.frameBytes, .bus), (!checkRange (argDst s) (payloadChunk s), .bus)]
  | .idle | .encHeader | .encPayload | .done | .failed => some .sequence

/-- A processing error of a stream command: the phase becomes FAILED, then `raise E` (R292, R296, R326). -/
def failStream (e : ErrCode) (s : State) : State := raise e { s with seq := { s.seq with phase := .failed } }

/-- The state writes of a successful header-frame decode (R292): HB, staging, ACT, memory, SEQ_*. -/
def acceptHeader (hdr : List Byte) (corr : Nat) (s : State) : State :=
  let cfg := recordConfig hdr
  let pf := recordFrames hdr
  complete 0 Config.hdrLen corr
    { s with
      hb := hdr
      staging := cfg
      act := some cfg
      mem := Memory.write s.mem (argDst s) hdr
      seq := { s.seq with
        totalFrames := BitVec.ofNat 32 (1 + pf)
        bytesRem := BitVec.ofNat 64 (recordPayloadLen hdr)
        frameIdx := 1
        correctedTotal := BitVec.ofNat 32 corr
        phase := if pf = 0 then .done else .decPayload } }

/-- The header-frame branch of R292. -/
def decodeHeaderFrame (s : State) : State :=
  match parseHeader s.vote (frameAt s.mem (argSrc s)) with
  | .error e => failStream e s
  | .ok (hdr, corr) => acceptHeader hdr corr s

/-- The payload-frame branch of R292: every codeword is decoded before any byte is written. -/
def decodePayloadFrame (s : State) : State :=
  let g := activeGeometry s
  let cnt := payloadChunk s
  let u := ceilDiv cnt g.k
  let buf := unpackFrame g s.vote (frameAt s.mem (argSrc s))
  match decodeSlots g.p buf (List.range u) with
  | none => failStream .eccUncorrectable s
  | some oks =>
    complete s.seq.frameIdx.toNat cnt (correctedSum oks)
      { s with
        mem := Memory.write s.mem (argDst s) ((decodedBytes oks).take cnt)
        seq := advanceSeq s.seq cnt u (correctedSum oks) }

/-- STREAM_DEC_FRAME (R292). -/
def execStreamDecFrame (s : State) : Host.Outcome State Fault Refusal :=
  .next (orRaise (streamDecFramePre s) s fun s =>
    if s.seq.phase = .decHeader then decodeHeaderFrame s else decodePayloadFrame s)

/-! STREAM_END (R296). -/

/-- R296's precondition: a stream is in progress or done. -/
def streamEndPre (s : State) : Option ErrCode :=
  match s.seq.phase with
  | .idle | .failed => some .sequence
  | .encHeader | .encPayload | .decHeader | .decPayload | .done => none

/-- STREAM_END (R296). -/
def execStreamEnd (s : State) : Host.Outcome State Fault Refusal :=
  .next (orRaise (streamEndPre s) s fun s =>
    match s.seq.phase with
    | .decHeader | .decPayload => failStream .formatTruncated s
    | .encHeader | .encPayload => failStream .streamIncomplete s
    | .done | .idle | .failed =>
      complete s.seq.totalFrames.toNat 0 0 { s with seq := { s.seq with phase := .idle } })

/-! STREAM_ABORT (R297). -/

/-- STREAM_ABORT (R297). -/
def execStreamAbort (s : State) : Host.Outcome State Fault Refusal :=
  .next (complete 0 0 0 { s with seq := { s.seq with phase := .idle } })

end Sys2Proof.Machine
end

