-- ==== Sys2Proof/Machine/Footprint.lean ====
section
/-! DEFINITION. Which memory each command reaches (20_memory.md R81), and what a CMD write does (10_state.md R38). -/

namespace Sys2Proof.Machine

/-- The preconditions of a command on registers: those tested before it reads any memory (60_exceptions.md R323 steps 2 to 5). -/
def commandPre : Instr → State → Option ErrCode
  | .nop, _            => none
  | .cfgCommit, s      => cfgCommitPre s
  | .rsEncode, s       => rsEncodePre s
  | .rsDecode, s       => rsDecodePre s
  | .quant, s          => quantPre s
  | .dequant, s        => dequantPre s
  | .dequantBlock, s   => dequantBlockPre s
  | .packFrame, s      => packFramePre s
  | .unpackFrame, s    => unpackFramePre s
  | .streamEncBegin, s => streamEncBeginPre s
  | .streamEncFrame, s => streamEncFramePre s
  | .streamDecBegin, s => streamDecBeginPre s
  | .streamDecFrame, s => streamDecFramePre s
  | .streamEnd, s      => streamEndPre s
  | .streamAbort, _    => none

/-- No memory access. -/
def noRanges : Footprint := { reads := [], writes := [] }

/-- The rows of R81's table. -/
def commandRanges : Instr → State → Footprint
  | .nop, _ | .cfgCommit, _ | .quant, _ | .dequant, _ | .streamDecBegin, _ | .streamEnd, _ | .streamAbort, _ => noRanges
  | .rsEncode, s =>
    { reads := [⟨argSrc s, argLen s⟩], writes := [⟨argDst s, argLen s + auxParity s⟩] }
  | .rsDecode, s =>
    { reads := [⟨argSrc s, argLen s⟩, ⟨argEraAddr s, argEraCount s⟩], writes := [⟨argDst s, argLen s - auxParity s⟩] }
  | .dequantBlock, s => { reads := [⟨argSrc s, argLen s⟩], writes := [] }
  | .packFrame, s => { reads := [⟨argSrc s, argLen s⟩], writes := [⟨argDst s, Config.frameBytes⟩] }
  | .unpackFrame, s =>
    { reads := [⟨argSrc s, Config.frameBytes⟩], writes := [⟨argDst s, (activeGeometry s).pay⟩] }
  | .streamEncBegin, s => { reads := [⟨argSrc s, Config.hdrLen⟩], writes := [⟨argDst s, Config.hdrLen⟩] }
  | .streamEncFrame, s =>
    { reads := if s.seq.phase = .encHeader then [] else [⟨argSrc s, payloadChunk s⟩]
      writes := [⟨argDst s, Config.frameBytes⟩] }
  | .streamDecFrame, s =>
    { reads := [⟨argSrc s, Config.frameBytes⟩]
      writes := [⟨argDst s, if s.seq.phase = .decHeader then Config.hdrLen else payloadChunk s⟩] }

/-- What a command reads and may write from the state it is issued in: nothing if a register precondition fails (R326), else
R81's ranges (log 6). -/
def commandFootprint (i : Instr) (s : State) : Footprint :=
  match commandPre i s with
  | some _ => noRanges
  | none => commandRanges i s

/-- The footprint of a command word; an illegal one "reads and writes no memory" (30_encoding.md R112). -/
def wordFootprint (w : Word) (s : State) : Footprint :=
  match decode w with
  | none => noRanges
  | some i => commandFootprint i s

/-- An accepted CMD write (R38): LAST_CMD, BUSY, PENDING. -/
def issue (w : Word) (s : State) : State :=
  { s with
    lastCmd := w
    pending := some w
    inFlight := { ranges := wordFootprint w s, irqBits := none } :: s.inFlight }

end Sys2Proof.Machine
end

