-- ==== Sys2Proof/Machine/Dispatch.lean ====
section
/-! DEFINITION. One arm per command: the command's meaning. -/

namespace Sys2Proof.Machine

def exec (i : Instr) (s : State) : Host.Outcome State Fault Refusal :=
  match i with
  | .nop => Sys2Proof.Machine.execNop s
  | .cfgCommit => Sys2Proof.Machine.execCfgCommit s
  | .rsEncode => Sys2Proof.Machine.execRsEncode s
  | .rsDecode => Sys2Proof.Machine.execRsDecode s
  | .quant => Sys2Proof.Machine.execQuant s
  | .dequant => Sys2Proof.Machine.execDequant s
  | .dequantBlock => Sys2Proof.Machine.execDequantBlock s
  | .packFrame => Sys2Proof.Machine.execPackFrame s
  | .unpackFrame => Sys2Proof.Machine.execUnpackFrame s
  | .streamEncBegin => Sys2Proof.Machine.execStreamEncBegin s
  | .streamEncFrame => Sys2Proof.Machine.execStreamEncFrame s
  | .streamDecBegin => Sys2Proof.Machine.execStreamDecBegin s
  | .streamDecFrame => Sys2Proof.Machine.execStreamDecFrame s
  | .streamEnd => Sys2Proof.Machine.execStreamEnd s
  | .streamAbort => Sys2Proof.Machine.execStreamAbort s

end Sys2Proof.Machine
end

