-- ==== Sys2Proof/Machine/Flags.lean ====
section
/-! DEFINITION. The status and interrupt bits as words: error codes (60_exceptions.md R321), phases (10_state.md R55), STATUS
(R37), IRQ_STATUS (R39) and the interrupt output (R49). -/

namespace Sys2Proof.Machine

/-- The numeric error codes (R321). -/
def errCodeBits : ErrCode → BitVec 8
  | .none                => 0x00
  | .illegalCmd          => 0x01
  | .notConfigured       => 0x02
  | .operand             => 0x03
  | .bus                 => 0x04
  | .sequence            => 0x05
  | .streamIncomplete    => 0x06
  | .cfgInvalidLevels    => 0x10
  | .cfgInvalidBlockSize => 0x11
  | .cfgInvalidFps       => 0x12
  | .cfgInvalidCrf       => 0x13
  | .cfgInvalidEcc       => 0x14
  | .eccUncorrectable    => 0x20
  | .formatBadMagic      => 0x30
  | .formatBadVersion    => 0x31
  | .formatMalformed     => 0x32
  | .formatTruncated     => 0x33

/-- The phase values (R55). -/
def phaseBits : Phase → BitVec 3
  | .idle       => 0
  | .encHeader  => 1
  | .encPayload => 2
  | .decHeader  => 3
  | .decPayload => 4
  | .done       => 5
  | .failed     => 6

/-- STATUS.BUSY (R37): a command is pending (R60). -/
def busy (s : State) : Bool := s.pending.isSome

/-- STATUS.ERR (R37): `ERR_CODE ≠ 0`. -/
def errFlag (s : State) : Bool := s.errCode != .none

/-- One bit as a bit vector. -/
def bit (b : Bool) : BitVec 1 := BitVec.ofBool b

/-- The STATUS word (R37): 31:19 zero, PHASE 18:16, ERR_CODE 15:8, 7:4 zero, OVERRUN, ERR, CFG_VALID, BUSY. -/
def statusWord (s : State) : Word :=
  (0 : BitVec 13) ++ phaseBits s.seq.phase ++ errCodeBits s.errCode ++ (0 : BitVec 4) ++ bit s.overrun ++ bit (errFlag s) ++
    bit (cfgValid s) ++ bit (busy s)

/-- CFG_DEQ as it reads (R45): bit 0 is VOTE. -/
def voteWord : VoteMode → Word
  | .mean => 0
  | .majority => 1

/-- CFG_DEQ from a written word: bits 31:1 are ignored (R45). -/
def voteOfWord (v : Word) : VoteMode := if v.getLsbD 0 then .majority else .mean

/-- The W1C write of IRQ_STATUS (R31, R39): bits written 1 are cleared, the others unchanged. -/
def clearIrq (st : BitVec 2) (v : Word) : BitVec 2 := st &&& ~~~ (v.extractLsb' 0 2)

/-- The interrupt output (R49): `((IRQ_STATUS & IRQ_ENABLE) & 0x3) ≠ 0`. -/
def irqLine (s : State) : Bool := s.irqStatus &&& s.irqEnable != 0

end Sys2Proof.Machine
end

