-- ==== Sys2Proof/Machine/Window.lean ====
section
/-! DEFINITION. The value each register of the window reads (10_state.md R32 to R58). -/

namespace Sys2Proof.Machine

/-- A number as a register value. -/
def regWord (n : Nat) : Word := BitVec.ofNat 32 n

/-- A field of the active configuration: 0 when `CFG_VALID = 0` (R41). -/
def actField (f : ConfigRecord → Word) (s : State) : Word :=
  match s.act with
  | none => 0
  | some c => f c

/-- The current value of a register, undefined bits 0 (R32, R33). -/
def readReg (r : Reg) (s : State) : Word :=
  match r with
  | .id                => 0x47545356                                        -- R34
  | .hwVersion         => 0x00000101                                        -- R35
  | .ctrl              => 0                                                 -- R36
  | .status            => statusWord s                                      -- R37
  | .cmd               => s.lastCmd                                         -- R38
  | .irqStatus         => s.irqStatus.zeroExtend 32                         -- R39
  | .irqEnable         => s.irqEnable.zeroExtend 32                         -- R39
  | .cfgBlockSize      => s.staging.blockSize                               -- R40
  | .cfgLevels         => s.staging.levels
  | .cfgEccParity      => s.staging.eccParity
  | .cfgFps            => s.staging.fps
  | .cfgCrf            => s.staging.crf
  | .cfgDeq            => voteWord s.vote                                   -- R45
  | .actBlockSize      => actField (·.blockSize) s                          -- R41
  | .actLevels         => actField (·.levels) s
  | .actEccParity      => actField (·.eccParity) s
  | .actFps            => actField (·.fps) s
  | .actCrf            => actField (·.crf) s
  | .geoBpc            => regWord (activeGeometry s).bpc                    -- R42
  | .geoBpb            => regWord (activeGeometry s).bpb
  | .geoBx             => regWord (activeGeometry s).bx
  | .geoBy             => regWord (activeGeometry s).bRows
  | .geoNb             => regWord (activeGeometry s).nb
  | .geoP              => regWord (activeGeometry s).pay
  | .geoC              => regWord (activeGeometry s).c
  | .geoK              => regWord (activeGeometry s).k
  | .canvasW           => regWord Config.canvasW                            -- R43
  | .canvasH           => regWord Config.canvasH
  | .argSrc            => s.args.src                                        -- R46
  | .argDst            => s.args.dst
  | .argLen            => s.args.len
  | .argAux            => s.args.aux
  | .argEraAddr        => s.args.eraAddr                                    -- R47
  | .argEraCount       => s.args.eraCount
  | .res0              => s.res0                                            -- R48
  | .res1              => s.res1
  | .res2              => s.res2
  | .seqPhase          => (phaseBits s.seq.phase).zeroExtend 32             -- R55
  | .seqFrameIdx       => s.seq.frameIdx                                    -- R56
  | .seqTotalFrames    => s.seq.totalFrames
  | .seqBytesRemLo     => s.seq.bytesRem.extractLsb' 0 32                   -- R57
  | .seqBytesRemHi     => s.seq.bytesRem.extractLsb' 32 32
  | .seqCorrectedTotal => s.seq.correctedTotal                              -- R58
  | .seqCwDone         => s.seq.cwDone

/-- The word a host read of a byte offset returns: 0 at a reserved offset (R30, R32). -/
def readOffset (off : BitVec 8) (s : State) : Word :=
  match regAt off with
  | none => 0
  | some r => readReg r s

/-- A plain storage write: RW registers take the written bits, W1C clears (R31). CTRL and CMD are not storage; RO ignores. -/
def storeReg (r : Reg) (v : Word) (s : State) : State :=
  match r with
  | .irqStatus    => { s with irqStatus := clearIrq s.irqStatus v }
  | .irqEnable    => { s with irqEnable := v.extractLsb' 0 2 }
  | .cfgBlockSize => { s with staging := { s.staging with blockSize := v } }
  | .cfgLevels    => { s with staging := { s.staging with levels := v } }
  | .cfgEccParity => { s with staging := { s.staging with eccParity := v } }
  | .cfgFps       => { s with staging := { s.staging with fps := v } }
  | .cfgCrf       => { s with staging := { s.staging with crf := v } }
  | .cfgDeq       => { s with vote := voteOfWord v }
  | .argSrc       => { s with args := { s.args with src := v } }
  | .argDst       => { s with args := { s.args with dst := v } }
  | .argLen       => { s with args := { s.args with len := v } }
  | .argAux       => { s with args := { s.args with aux := v } }
  | .argEraAddr   => { s with args := { s.args with eraAddr := v } }
  | .argEraCount  => { s with args := { s.args with eraCount := v } }
  | .ctrl | .cmd => s
  | .id | .hwVersion | .status
  | .actBlockSize | .actLevels | .actEccParity | .actFps | .actCrf
  | .geoBpc | .geoBpb | .geoBx | .geoBy | .geoNb | .geoP | .geoC | .geoK | .canvasW | .canvasH
  | .res0 | .res1 | .res2
  | .seqPhase | .seqFrameIdx | .seqTotalFrames | .seqBytesRemLo | .seqBytesRemHi | .seqCorrectedTotal | .seqCwDone => s

end Sys2Proof.Machine
end

