-- ==== Sys2Proof/Machine/HostStep.lean ====
section
/-! DEFINITION. The two agents' steps (00_scope.md R2): the engine runs the pending command (10_state.md R60); the host does the
next operation of its program (30_encoding.md R117) on the register window (R31, R32), on system memory (20_memory.md R90, R91)
or on the reset input (70_reset_and_hazards.md R360, R362). -/

namespace Sys2Proof.Machine

/-! The engine. -/

/-- Executes the command word `w`: R112's decoding, then the command. -/
def runWord (w : Word) (s : State) : Host.Outcome State Fault Refusal :=
  match decode w with
  | none => .next (raise .illegalCmd s)
  | some i => exec i s

/-- The engine's step: "enabled only when `PENDING = w ≠ none`" (R60). It makes all the
command's memory accesses (log 14). -/
def engineStep (s : State) : Host.Outcome State Fault Refusal :=
  match s.pending with
  | none => .next s
  | some w => runWord w s

/-! Reset (R64, R360, R362). -/

/-- The memory the pending command would leave. -/
def landedMemory (s : State) : Memory :=
  match engineStep s with
  | .next t => t.mem
  | .fault _ => s.mem
  | .refused _ => s.mem

/-- Memory after a reset: unchanged, but that each byte the discarded command would have written is the old or the new one, a
free choice per byte (R362, log 4). -/
def resetMemory (s : State) : Memory :=
  match s.pending with
  | none => s.mem
  | some _ => Memory.blend (Config.srstLands s.draws) s.mem (landedMemory s)

/-- Every register and hidden item of the block at its value of R64; what lies outside the block as it is: system memory, the
reset input, the host, its program and what it has read. -/
def registersReset (s : State) : State :=
  { State.reset with
    mem := s.mem
    resetInput := s.resetInput
    host := s.host
    sched := s.sched
    hostReads := s.hostReads
    inFlight := s.inFlight
    draws := s.draws }

/-- A reset of the block, by CTRL.SRST or by the reset input (R360, R362, log 8): every item of R64 takes its reset value; a
discarded command is in flight no more (log 9). -/
def resetBlock (s : State) : State :=
  { registersReset s with
    mem := resetMemory s
    inFlight := s.inFlight.filter (·.irqBits.isSome)
    draws := if busy s then s.draws + 1 else s.draws }

/-- The reset input is asserted: the block is reset (R360). -/
def assertResetInput (s : State) : State := { resetBlock s with resetInput := true }

/-- The reset input is deasserted: "and at its deassertion" every item takes its reset value (R360); with the input not asserted
nothing happens. -/
def releaseResetInput (s : State) : State := if s.resetInput then { resetBlock s with resetInput := false } else s

/-! The register window. -/

/-- What a CTRL write does (R36); with both bits set, SRST acts and OVERRUN is 0 either way. -/
def writeCtrl (v : Word) (s : State) : State :=
  if v.getLsbD 0 then resetBlock s
  else if v.getLsbD 1 then { s with overrun := false }
  else s

/-- A host write of `v` to a register (R31). -/
def writeReg (r : Reg) (v : Word) (s : State) : State :=
  if busy s && busyGuarded r then { s with overrun := true }
  else match regAccess r with
    | .w1a => writeCtrl v s
    | .cmd => issue v s
    | .rw | .w1c => storeReg r v s
    | .ro => s

/-- A host write of `v` to a byte offset: reserved offsets ignore it (R30). -/
def writeOffset (off : BitVec 8) (v : Word) (s : State) : State :=
  match regAt off with
  | none => s
  | some r => writeReg r v s

/-- A legal host write on the bus: while the reset input is asserted every register holds its reset value (R360), so the write has
no effect (DEDUCED, log 21). -/
def hostWrite (off : BitVec 8) (v : Word) (s : State) : State := if s.resetInput then s else writeOffset off v s

/-- A read of STATUS that returns BUSY = 0 observes every completion (R90 item 4). -/
def observeStatus (off : BitVec 8) (s : State) : State :=
  if off = regOffset .status && !busy s then { s with inFlight := [] } else s

/-- A host read of a byte offset (R32): the host gets the value; the block does not change. -/
def hostRead (off : BitVec 8) (s : State) : State :=
  { observeStatus off s with hostReads := .reg off (readOffset off s) :: s.hostReads }

/-! The interrupt (R90 item 4, R331). -/

/-- The interrupt the host takes is that of this flight's completion: a bit it newly set drives the line (log 7). -/
def signalled (s : State) (f : Flight) : Bool := f.irqBits.getD 0 &&& s.irqStatus &&& s.irqEnable != 0

/-- Taking the interrupt observes the completion it belongs to, and every earlier one: flights are kept newest first. -/
def observeIrq (s : State) : State := { s with inFlight := s.inFlight.takeWhile (fun f => !signalled s f) }

/-! System memory (R91). -/

/-- Two ranges share a byte. -/
def overlaps (a n : Nat) (r : MemRange) : Bool := decide (a < r.base + r.len) && decide (r.base < a + n) && n != 0 && r.len != 0

/-- A host store of `n` bytes at `a` meets a byte a command in flight reads or writes (R91). -/
def storeRaces (s : State) (a n : Nat) : Bool :=
  s.inFlight.any fun f => f.ranges.reads.any (overlaps a n) || f.ranges.writes.any (overlaps a n)

/-- A host load of `n` bytes at `a` meets a byte a command in flight writes (R91). -/
def loadRaces (s : State) (a n : Nat) : Bool := s.inFlight.any fun f => f.ranges.writes.any (overlaps a n)

/-- A host store (R117 `mem`), all its bytes in one step (log 19). -/
def hostStore (a : Nat) (bs : List Byte) (s : State) : Host.Outcome State Fault Refusal :=
  if !checkRange a bs.length then .fault .noSuchAddress
  else if storeRaces s a bs.length then .fault .hostDataRace
  else .next { s with mem := Memory.write s.mem a bs }

/-- A host load. -/
def hostLoad (a : Word) (n : Nat) (s : State) : Host.Outcome State Fault Refusal :=
  if !checkRange a.toNat n then .fault .noSuchAddress
  else if loadRaces s a.toNat n then .fault .hostDataRace
  else .next { s with hostReads := .mem a (Memory.read s.mem a.toNat n) :: s.hostReads }

/-! The host. -/

/-- One host operation (R117), already taken off the program. -/
def runHostOp (op : HostOp) (s : State) : Host.Outcome State Fault Refusal :=
  match op with
  | .regRead off width => if accessLegal off width then .next (hostRead off s) else .fault .hostBusError
  | .regWrite off width v => if accessLegal off width then .next (hostWrite off v s) else .fault .hostBusError
  | .wait =>
    let t := hostRead (regOffset .status) s
    .next (if busy s then { t with host := .wait :: t.host } else t)
  | .takeIrq => .next (if irqLine s then observeIrq s else { s with host := .takeIrq :: s.host })
  | .memStore a bs => hostStore a.toNat bs s
  | .memLoad a n => hostLoad a n s
  | .assertReset => .next (assertResetInput s)
  | .releaseReset => .next (releaseResetInput s)
  | .hwReset => .next (releaseResetInput (assertResetInput s))

/-- The host's step: the next operation of its program, if one is left. -/
def hostStep (s : State) : Host.Outcome State Fault Refusal :=
  match s.host with
  | [] => .next s
  | op :: rest => runHostOp op { s with host := rest }

end Sys2Proof.Machine
end

