-- ==== Sys2Proof/Machine/Step.lean ====
section
/-! DEFINITION. One step of the machine, and the placing of a command word where the next step runs it. -/

namespace Sys2Proof.Machine

/-- One step. The agent `sched` names moves; when `sched` is used up a pending command runs, else the host moves (R60, R369,
log 1). With nothing to do the machine stays as it is: "the block runs nothing until the host issues a command" (R361). -/
def step (s : State) : Host.Outcome State Fault Refusal :=
  match s.sched with
  | .engine :: rest => engineStep { s with sched := rest }
  | .host :: rest => hostStep { s with sched := rest }
  | [] => if busy s then engineStep s else hostStep s

/-- The command word `w` issued as a CMD write issues it (R38), whatever was pending, and the engine named as the next agent to
move, so that the very next step runs it (log 2). The reset input is released: while it is asserted no command is pending
(R360). -/
def State.withFetchWord (s : State) (nbits w : Nat) : State :=
  { issue (BitVec.ofNat 32 (w % 2 ^ nbits)) s with sched := .engine :: s.sched, resetInput := false }

end Sys2Proof.Machine
end

