-- ==== Sys2Proof/Safety.lean ====
section
/-! DEFINITION. What counts as a safe run, the invariant of the state, and the words in which claims say what a command changes
and what it leaves alone. -/

namespace Sys2Proof.Machine

/-! Runs. -/

/-- No fault of the host program in any number of steps (60_exceptions.md R333). -/
def RunsWithoutFault (s : State) : Prop := ∀ (k : Nat) (f : Fault), Host.Core.run Sys2Proof.core k s ≠ .fault f

/-! The invariant. -/

/-- Payload frames still to come for `SEQ_BYTES_REM` under the active configuration (44_stream.md R272). -/
def framesLeft (s : State) : Nat := payloadFrameCount (activeGeometry s) s.seq.bytesRem.toNat

/-- The sequencer's registers agree with its phase: a stream in progress has a configuration, except before the header frame of
a decode (60_exceptions.md R322); the frames produced and still to come make SEQ_TOTAL_FRAMES (10_state.md R56); every payload
phase has a byte left, and none is left when DONE (44_stream.md R285). -/
def SequencerAgrees (s : State) : Prop :=
  match s.seq.phase with
  | .idle | .failed => True
  | .encHeader =>
    s.act.isSome = true ∧ s.seq.frameIdx = 0 ∧ s.seq.totalFrames.toNat = 1 + framesLeft s
  | .encPayload | .decPayload =>
    s.act.isSome = true ∧ 1 ≤ s.seq.frameIdx.toNat ∧ 1 ≤ framesLeft s ∧
      s.seq.totalFrames.toNat = s.seq.frameIdx.toNat + framesLeft s
  | .decHeader => s.seq.frameIdx = 0 ∧ s.seq.totalFrames = 0 ∧ s.seq.bytesRem = 0
  | .done => s.seq.bytesRem = 0 ∧ s.seq.frameIdx = s.seq.totalFrames

/-- The flights agree with PENDING: the newest one is the pending command's, with the ranges it has from the operands as they are
now (they are frozen, 70_reset_and_hazards.md R366); all others have completed. -/
def FlightsAgree (s : State) : Prop :=
  match s.pending, s.inFlight with
  | none, fs => ∀ f ∈ fs, f.irqBits.isSome = true
  | some _, [] => False
  | some w, f :: fs => f.irqBits = none ∧ f.ranges = wordFootprint w s ∧ ∀ g ∈ fs, g.irqBits.isSome = true

/-- Every register and hidden item of the block holds its value of R64. -/
def HeldInReset (s : State) : Prop := registersReset s = s

/-- The invariant of the machine. -/
structure State.Inv (s : State) : Prop where
  /-- memory is in its canonical form (20_memory.md R80) -/
  mem     : Memory.wf s.mem
  /-- `HB` is 112 bytes (10_state.md R63) -/
  hb      : s.hb.length = Config.hdrLen
  /-- the active configuration is a validated one (10_state.md R41) -/
  act     : ∀ c, s.act = some c → validate c = none
  seq     : SequencerAgrees s
  flights : FlightsAgree s
  /-- while the reset input is asserted every register holds its reset value (70_reset_and_hazards.md R360; log 21) -/
  held    : s.resetInput = true → HeldInReset s

/-! What a command changes. -/

/-- A range of system memory exists: `CheckRange` (20_memory.md R84). -/
def InMemory (a n : Nat) : Prop := n = 0 ∨ a + n ≤ 2 ^ 32

/-- Everything no command ever writes: the host-written registers (10_state.md R46, R47, R45, R39), LAST_CMD and OVERRUN (R38,
R61), the reset input, the host's own state, and which memory ranges are in flight. -/
structure KeepsHostWritten (s t : State) : Prop where
  lastCmd   : t.lastCmd = s.lastCmd
  overrun   : t.overrun = s.overrun
  irqEnable : t.irqEnable = s.irqEnable
  vote      : t.vote = s.vote
  args      : t.args = s.args
  resetInput : t.resetInput = s.resetInput
  host      : t.host = s.host
  sched     : t.sched = s.sched
  hostReads : t.hostReads = s.hostReads
  draws     : t.draws = s.draws
  flights   : t.inFlight.map (·.ranges) = s.inFlight.map (·.ranges)

/-- The configuration is unchanged: staging registers, ACT and CFG_VALID. -/
structure KeepsConfig (s t : State) : Prop where
  staging : t.staging = s.staging
  act     : t.act = s.act

/-- The stream is unchanged: every SEQ_* register and `HB`. -/
structure KeepsStream (s t : State) : Prop where
  seq : t.seq = s.seq
  hb  : t.hb = s.hb

/-- Every byte of system memory reads as before. -/
def StoresNothing (s t : State) : Prop := ∀ a, Memory.readByte t.mem a = Memory.readByte s.mem a

/-- The bytes `bs` are stored from address `dst` on; every other byte of system memory reads as before. -/
def StoresAt (s t : State) (dst : Nat) (bs : List Byte) : Prop :=
  (∀ i, i < bs.length → Memory.readByte t.mem (dst + i) = bs.getD i 0) ∧
    ∀ a, (a < dst ∨ dst + bs.length ≤ a) → Memory.readByte t.mem a = Memory.readByte s.mem a

/-- A success completion (60_exceptions.md R325): the results, ERR_CODE NONE, DONE set (ERROR unchanged), BUSY = 0. -/
structure Succeeded (s t : State) (r0 r1 r2 : Nat) : Prop where
  res0      : t.res0 = BitVec.ofNat 32 r0
  res1      : t.res1 = BitVec.ofNat 32 r1
  res2      : t.res2 = BitVec.ofNat 32 r2
  errCode   : t.errCode = .none
  irqStatus : t.irqStatus = s.irqStatus ||| 0b01
  pending   : t.pending = none

/-- An error completion (60_exceptions.md R326): results 0, the code, DONE and ERROR set, BUSY = 0. -/
structure Failed (s t : State) (e : ErrCode) : Prop where
  res0      : t.res0 = 0
  res1      : t.res1 = 0
  res2      : t.res2 = 0
  errCode   : t.errCode = e
  irqStatus : t.irqStatus = s.irqStatus ||| 0b11
  pending   : t.pending = none

/-- The outcome is a next state with a success completion, what no command writes unchanged, and the rest as `rest` says. -/
def EndsOk (o : Host.Outcome State Fault Refusal) (s : State) (r0 r1 r2 : Nat) (rest : State → Prop) : Prop :=
  ∃ t, o = .next t ∧ Succeeded s t r0 r1 r2 ∧ KeepsHostWritten s t ∧ rest t

/-- The outcome is a next state with an error completion and NOTHING else changed: configuration, sequencer, `HB` and memory are
as before (60_exceptions.md R326, a precondition failure). -/
def EndsInError (o : Host.Outcome State Fault Refusal) (s : State) (e : ErrCode) : Prop :=
  ∃ t, o = .next t ∧ Failed s t e ∧ KeepsHostWritten s t ∧ KeepsConfig s t ∧ KeepsStream s t ∧ t.mem = s.mem

/-- As `EndsInError`, but that SEQ_PHASE becomes FAILED: a processing error of STREAM_DEC_FRAME or STREAM_END (R326). -/
def EndsFailingStream (o : Host.Outcome State Fault Refusal) (s : State) (e : ErrCode) : Prop :=
  ∃ t, o = .next t ∧ Failed s t e ∧ KeepsHostWritten s t ∧ KeepsConfig s t ∧ t.seq = { s.seq with phase := .failed } ∧
    t.hb = s.hb ∧ t.mem = s.mem

/-! The words of the spec's tables and definitions, written out for claims. -/

/-- The 15 command words of 30_encoding.md R111. -/
def commandWords : List Word :=
  [0x00, 0x01, 0x10, 0x11, 0x20, 0x21, 0x22, 0x30, 0x31, 0x40, 0x41, 0x42, 0x43, 0x44, 0x45]

/-- `c` is a member of `RS(n, p)`: length `n`, every syndrome `c(α^j)`, `j < p`, zero (41_rs_codec.md R164, R165, RS_FCR = 0). -/
def RsMember (n p : Nat) (c : List Byte) : Prop := c.length = n ∧ ∀ j, j < p → polyEval c (gfAlphaPow j) = 0

/-- `|{ i ∉ E : c_i ≠ r_i }|` over positions below `n` (R169); with `E` empty, the changed positions (R172). -/
def differCount (n : Nat) (c r : List Byte) (era : List Nat) : Nat :=
  ((List.range n).filter fun i => decide (i ∉ era) && decide (c.getD i 0 ≠ r.getD i 0)).length

/-- A legal erasure list for length `n` and `p` parity bytes (R168). -/
def ErasuresLegal (n p : Nat) (era : List Nat) : Prop := era.length ≤ p ∧ (∀ e ∈ era, e < n) ∧ era.Nodup

/-- The phases each command may leave the sequencer in, from each phase, when it completes as its rule says (44_stream.md R270's
table; the commands it does not list never change the phase); an empty list is the table's "-". -/
def phaseTable : Instr → Phase → List Phase
  | .streamEncBegin, .idle | .streamEncBegin, .done | .streamEncBegin, .failed => [.encHeader]
  | .streamEncBegin, _ => []
  | .streamEncFrame, .encHeader | .streamEncFrame, .encPayload => [.encPayload, .done]
  | .streamEncFrame, _ => []
  | .streamDecBegin, .idle | .streamDecBegin, .done | .streamDecBegin, .failed => [.decHeader]
  | .streamDecBegin, _ => []
  | .streamDecFrame, .decHeader | .streamDecFrame, .decPayload => [.decPayload, .done, .failed]
  | .streamDecFrame, _ => []
  | .streamEnd, .encHeader | .streamEnd, .encPayload | .streamEnd, .decHeader | .streamEnd, .decPayload => [.failed]
  | .streamEnd, .done => [.idle]
  | .streamEnd, _ => []
  | .streamAbort, _ => [.idle]
  | .cfgCommit, .idle => [.idle]
  | .cfgCommit, .done => [.done]
  | .cfgCommit, .failed => [.failed]
  | .cfgCommit, _ => []
  | .nop, q | .rsEncode, q | .rsDecode, q | .quant, q | .dequant, q | .dequantBlock, q | .packFrame, q | .unpackFrame, q => [q]

/-- The margins `M_L` of 42_quantizer.md R204. -/
def guardMargins : List (Nat × Nat) := [(2, 127), (4, 42), (8, 17), (16, 8), (32, 3), (64, 1), (128, 0), (256, 0)]

/-- The geometry numbers of 00_scope.md R6 on the default canvas, written out. -/
def blocksPerFrame (c : ConfigRecord) : Nat := 3840 / c.blockSize.toNat * (2160 / c.blockSize.toNat)
def payloadBytes (c : ConfigRecord) : Nat := blocksPerFrame c * (3 * Nat.log2 c.levels.toNat) / 8
def codewordsPerFrame (c : ConfigRecord) : Nat := payloadBytes c / 255
def dataBytes (c : ConfigRecord) : Nat := 255 - c.eccParity.toNat

/-- The error codes with their numbers, 60_exceptions.md R321. -/
def errorNumbers : List (ErrCode × BitVec 8) :=
  [(.none, 0x00), (.illegalCmd, 0x01), (.notConfigured, 0x02), (.operand, 0x03), (.bus, 0x04), (.sequence, 0x05),
   (.streamIncomplete, 0x06), (.cfgInvalidLevels, 0x10), (.cfgInvalidBlockSize, 0x11), (.cfgInvalidFps, 0x12),
   (.cfgInvalidCrf, 0x13), (.cfgInvalidEcc, 0x14), (.eccUncorrectable, 0x20), (.formatBadMagic, 0x30),
   (.formatBadVersion, 0x31), (.formatMalformed, 0x32), (.formatTruncated, 0x33)]

/-- The phases with their numbers, 10_state.md R55. -/
def phaseNumbers : List (Phase × BitVec 3) :=
  [(.idle, 0), (.encHeader, 1), (.encPayload, 2), (.decHeader, 3), (.decPayload, 4), (.done, 5), (.failed, 6)]

/-- The register map of 10_state.md R33, row by row: offset, register, access type. -/
def registerTable : List (BitVec 8 × Reg × Access) :=
  [(0x00, .id, .ro), (0x04, .hwVersion, .ro), (0x08, .ctrl, .w1a), (0x0C, .status, .ro), (0x10, .cmd, .cmd),
   (0x14, .irqStatus, .w1c), (0x18, .irqEnable, .rw), (0x20, .cfgBlockSize, .rw), (0x24, .cfgLevels, .rw),
   (0x28, .cfgEccParity, .rw), (0x2C, .cfgFps, .rw), (0x30, .cfgCrf, .rw), (0x34, .cfgDeq, .rw)] ++
  [(0x40, .actBlockSize, .ro), (0x44, .actLevels, .ro), (0x48, .actEccParity, .ro), (0x4C, .actFps, .ro),
   (0x50, .actCrf, .ro), (0x54, .geoBpc, .ro), (0x58, .geoBpb, .ro), (0x5C, .geoBx, .ro), (0x60, .geoBy, .ro),
   (0x64, .geoNb, .ro), (0x68, .geoP, .ro), (0x6C, .geoC, .ro), (0x70, .geoK, .ro), (0x74, .canvasW, .ro),
   (0x78, .canvasH, .ro)] ++
  [(0x80, .argSrc, .rw), (0x84, .argDst, .rw), (0x88, .argLen, .rw), (0x8C, .argAux, .rw), (0x90, .argEraAddr, .rw),
   (0x94, .argEraCount, .rw), (0xA0, .res0, .ro), (0xA4, .res1, .ro), (0xA8, .res2, .ro), (0xC0, .seqPhase, .ro),
   (0xC4, .seqFrameIdx, .ro), (0xC8, .seqTotalFrames, .ro), (0xCC, .seqBytesRemLo, .ro), (0xD0, .seqBytesRemHi, .ro),
   (0xD4, .seqCorrectedTotal, .ro), (0xD8, .seqCwDone, .ro)]

/-- `samples(b, ch)` on the default canvas: channel `ch` of the pixels `(bx * S + u, by * S + w)` of block `b`
(43_frame_codec.md R230, R231, R240). -/
def blockPixels (c : ConfigRecord) (frame : Nat → Byte) (b ch : Nat) : List Byte :=
  let s := c.blockSize.toNat
  (List.range s).flatMap fun w => (List.range s).map fun u =>
    frame (((b / (3840 / s) * s + w) * 3840 + (b % (3840 / s) * s + u)) * 3 + ch)

/-- `k` is `BlockIndex_L` of the channel values: under MEAN the formula of 42_quantizer.md R205; under MAJORITY the smallest
index with the most votes, a value voting for its nearest level (R202, R206, R207). -/
def IsBlockIndex (l : Nat) (vote : VoteMode) (vs : List Byte) (k : Nat) : Prop :=
  match vote with
  | .mean => k = (2 * (vs.map (·.toNat)).sum * (l - 1) + 255 * vs.length) / (510 * vs.length)
  | .majority =>
    let cnt := fun j => (vs.filter fun v => (2 * v.toNat * (l - 1) + 255) / 510 == j).length
    k < l ∧ (∀ j, j < l → cnt j ≤ cnt k) ∧ ∀ j, j < k → cnt j < cnt k

/-- `buf` is the payload buffer of a frame that carries the bytes `d` (44_stream.md R274, R285; 43_frame_codec.md R243): slot `j`
is a codeword whose data part is `d[j*K .. min((j+1)*K, len))` padded with zeros; every byte after the used slots is 0. -/
structure IsPayloadBuffer (c : ConfigRecord) (d buf : List Byte) : Prop where
  length : buf.length = payloadBytes c
  member : ∀ j, j < ceilDiv d.length (dataBytes c) →
    RsMember 255 c.eccParity.toNat (slice buf (255 * j) (255 * j + 255))
  data   : ∀ j, j < ceilDiv d.length (dataBytes c) →
    slice buf (255 * j) (255 * j + dataBytes c) =
      slice d (j * dataBytes c) (min ((j + 1) * dataBytes c) d.length) ++
        List.replicate ((j + 1) * dataBytes c - d.length) 0x00
  rest   : ∀ x, 255 * ceilDiv d.length (dataBytes c) ≤ x → buf.getD x 0 = 0x00

/-- Taking the interrupt observes the completion of `f`: a bit that this completion newly set is still 1 and enabled (log 7). -/
def Signals (s : State) (f : Flight) : Prop :=
  ∃ (b : BitVec 2) (k : Nat), f.irqBits = some b ∧ k < 2 ∧ b.getLsbD k = true ∧ s.irqStatus.getLsbD k = true ∧
    s.irqEnable.getLsbD k = true

/-- The `n` bytes from `a` on share none with the range `r`. -/
def Apart (a n : Nat) (r : MemRange) : Prop := ∀ x, a ≤ x → x < a + n → x < r.base ∨ r.base + r.len ≤ x

/-- `t` is what a reset makes of `s`: a write of CTRL with SRST (10_state.md R36), or the reset input asserted, deasserted after it
was asserted, or both in one step (70_reset_and_hazards.md R360). -/
def IsReset (s t : State) : Prop :=
  (∃ v : Word, v.getLsbD 0 = true ∧ t = writeOffset 0x08 v s) ∨
    runHostOp .assertReset s = .next t ∨ (s.resetInput = true ∧ runHostOp .releaseReset s = .next t) ∨
    runHostOp .hwReset s = .next t

/-- `P` of the active configuration (00_scope.md R6), 0 without one. -/
def activePayloadBytes (s : State) : Nat :=
  match s.act with
  | none => 0
  | some c => payloadBytes c

/-- `min(SEQ_BYTES_REM, C * K)` (20_memory.md R81), 0 without a configuration. -/
def chunkBytes (s : State) : Nat :=
  match s.act with
  | none => 0
  | some c => min s.seq.bytesRem.toNat (codewordsPerFrame c * dataBytes c)

/-- The rows of 20_memory.md R81, with the numbers of the default canvas. -/
def memoryRanges : Instr → State → Footprint
  | .nop, _ | .cfgCommit, _ | .quant, _ | .dequant, _ | .streamDecBegin, _ | .streamEnd, _ | .streamAbort, _ =>
    { reads := [], writes := [] }
  | .rsEncode, s =>
    { reads := [⟨s.args.src.toNat, s.args.len.toNat⟩], writes := [⟨s.args.dst.toNat, s.args.len.toNat + s.args.aux.toNat⟩] }
  | .rsDecode, s =>
    { reads := [⟨s.args.src.toNat, s.args.len.toNat⟩, ⟨s.args.eraAddr.toNat, s.args.eraCount.toNat⟩]
      writes := [⟨s.args.dst.toNat, s.args.len.toNat - s.args.aux.toNat⟩] }
  | .dequantBlock, s => { reads := [⟨s.args.src.toNat, s.args.len.toNat⟩], writes := [] }
  | .packFrame, s => { reads := [⟨s.args.src.toNat, s.args.len.toNat⟩], writes := [⟨s.args.dst.toNat, 24883200⟩] }
  | .unpackFrame, s => { reads := [⟨s.args.src.toNat, 24883200⟩], writes := [⟨s.args.dst.toNat, activePayloadBytes s⟩] }
  | .streamEncBegin, s => { reads := [⟨s.args.src.toNat, 112⟩], writes := [⟨s.args.dst.toNat, 112⟩] }
  | .streamEncFrame, s =>
    { reads := if s.seq.phase = .encHeader then [] else [⟨s.args.src.toNat, chunkBytes s⟩]
      writes := [⟨s.args.dst.toNat, 24883200⟩] }
  | .streamDecFrame, s =>
    { reads := [⟨s.args.src.toNat, 24883200⟩]
      writes := [⟨s.args.dst.toNat, if s.seq.phase = .decHeader then 112 else chunkBytes s⟩] }

/-- The tests that a command which reaches memory makes on registers, before it reads any memory (60_exceptions.md R323 steps 2
to 5; R176, R177, R212, R245, R246, R280, R285, R292). The commands that reach no memory have no row to guard. -/
def PassesRegisterTests : Instr → State → Prop
  | .nop, _ | .cfgCommit, _ | .quant, _ | .dequant, _ | .streamDecBegin, _ | .streamEnd, _ | .streamAbort, _ => True
  | .rsEncode, s => s.args.aux.toNat ≤ 254 ∧ s.args.len.toNat + s.args.aux.toNat ≤ 255 ∧
    InMemory s.args.src.toNat s.args.len.toNat ∧ InMemory s.args.dst.toNat (s.args.len.toNat + s.args.aux.toNat)
  | .rsDecode, s => s.args.aux.toNat ≤ 254 ∧ s.args.len.toNat ≤ 255 ∧ s.args.aux.toNat ≤ s.args.len.toNat ∧
    s.args.eraCount.toNat ≤ s.args.aux.toNat ∧ InMemory s.args.src.toNat s.args.len.toNat ∧
    InMemory s.args.eraAddr.toNat s.args.eraCount.toNat ∧ InMemory s.args.dst.toNat (s.args.len.toNat - s.args.aux.toNat)
  | .dequantBlock, s => s.act ≠ none ∧ 1 ≤ s.args.len.toNat ∧ s.args.len.toNat ≤ 65535 ∧
    InMemory s.args.src.toNat s.args.len.toNat
  | .packFrame, s => s.act ≠ none ∧ s.args.len.toNat ≤ activePayloadBytes s ∧
    InMemory s.args.src.toNat s.args.len.toNat ∧ InMemory s.args.dst.toNat 24883200
  | .unpackFrame, s => s.act ≠ none ∧ InMemory s.args.src.toNat 24883200 ∧ InMemory s.args.dst.toNat (activePayloadBytes s)
  | .streamEncBegin, s => s.act ≠ none ∧ s.seq.phase ∈ [.idle, .done, .failed] ∧ InMemory s.args.src.toNat 112 ∧
    InMemory s.args.dst.toNat 112
  | .streamEncFrame, s => InMemory s.args.dst.toNat 24883200 ∧
    (s.seq.phase = .encHeader ∨ (s.seq.phase = .encPayload ∧ InMemory s.args.src.toNat (chunkBytes s)))
  | .streamDecFrame, s => InMemory s.args.src.toNat 24883200 ∧
    ((s.seq.phase = .decHeader ∧ InMemory s.args.dst.toNat 112) ∨
      (s.seq.phase = .decPayload ∧ InMemory s.args.dst.toNat (chunkBytes s)))

end Sys2Proof.Machine
end

