-- ==== Sys2Proof/WellFormed.lean ====
section
/-! DEFINITION. What is well-formed: a command (it has no operand fields), a host operation (20_memory.md R80, R86), a parameter
set (00_scope.md R5, 43_frame_codec.md R233). -/

namespace Sys2Proof

/-- A command has no field that could be ill-formed: "There are no immediate fields inside the command word" (R115). -/
def Instr.wf : Instr → Bool
  | .nop | .cfgCommit | .rsEncode | .rsDecode | .quant | .dequant | .dequantBlock | .packFrame | .unpackFrame
  | .streamEncBegin | .streamEncFrame | .streamDecBegin | .streamDecFrame | .streamEnd | .streamAbort => true

open Machine in
/-- A host operation that is no fault by its form alone: a register access is aligned and 32 bits wide (R86), a memory access
stays inside system memory (R80). -/
def hostOpWf : HostOp → Bool
  | .regRead off width => accessLegal off width
  | .regWrite off width _ => accessLegal off width
  | .memStore a bs => checkRange a.toNat bs.length
  | .memLoad a n => checkRange a.toNat n
  | .wait | .takeIrq | .assertReset | .releaseReset | .hwReset => true

/-! Parameters: one test per constraint of R5 and R233. -/

/-- `CANVAS_W mod HDR_BLOCK_SIZE = 0` and `CANVAS_H mod HDR_BLOCK_SIZE = 0`. -/
def Params.canvasTiles (q : Params) : Bool :=
  q.hdrBlockSize != 0 && q.canvasW % q.hdrBlockSize == 0 && q.canvasH % q.hdrBlockSize == 0

/-- `CANVAS_W ≤ 65535` and `CANVAS_H ≤ 65535` (90_conflicts.md C10). -/
def Params.canvasFits (q : Params) : Bool := decide (q.canvasW ≤ 65535) && decide (q.canvasH ≤ 65535)

open Machine in
/-- The header geometry holds at least one codeword. -/
def Params.headerFits (q : Params) : Bool :=
  (geometryOn q.canvasW q.canvasH q.hdrBlockSize q.hdrLevels q.hdrParity).c != 0

open Machine in
/-- The first power `a^(k+1), a^(k+2), ...` that is 1 is the last of `n`: `a` has order `n` when started at `cur = a`, `k = 0`. -/
def orderIs (poly : BitVec 9) (a : Byte) : (n : Nat) → (cur : Byte) → Bool
  | 0, _ => false
  | 1, cur => cur == 1
  | n + 2, cur => cur != 1 && orderIs poly a (n + 1) (gfMulMod poly cur a)

/-- GF_POLY has degree 8 and is primitive: `x` has order 255 modulo it. -/
def Params.polyPrimitive (q : Params) : Bool := q.gfPoly.getLsbD 8 && orderIs q.gfPoly 0x02 255 0x02

/-- GF_ALPHA generates the multiplicative group. -/
def Params.alphaGenerates (q : Params) : Bool := orderIs q.gfPoly q.gfAlpha 255 q.gfAlpha

/-- RS_FCR is in 0 .. 254. -/
def Params.fcrInRange (q : Params) : Bool := decide (q.rsFcr ≤ 254)

/-- "A model with parameters that break this has no header frame and must be refused" (R233). -/
def Params.wf (q : Params) : Bool :=
  q.canvasTiles && q.canvasFits && q.headerFits && q.polyPrimitive && q.alphaGenerates && q.fcrInRange

end Sys2Proof
end

