-- ==== Sys2Proof/Certificates/Slice0/Obligations.lean ====
section
/-! DEFINITION. The statements about the model. Each docstring names the rule of spec/ it formalises. -/

open Sys2Proof Sys2Proof.Machine

/-! Encoding (30_encoding.md). -/

/-- Decoding an encoded command gives it back, as a word and as bytes on the host bus (R110, R111, R85). -/
def Obligations.DecodeInvertsEncode : Prop :=
  ∀ i : Instr, i.wf = true → decode (encode i) = some i ∧ decodeBytes (encodeBytes i) = .ok (i, [])

/-- The opcode map of R111, word by word. -/
def Obligations.OpcodeMapWordsDecode : Prop :=
  decode 0x00000000 = some .nop ∧ decode 0x00000001 = some .cfgCommit ∧ decode 0x00000010 = some .rsEncode ∧
  decode 0x00000011 = some .rsDecode ∧ decode 0x00000020 = some .quant ∧ decode 0x00000021 = some .dequant ∧
  decode 0x00000022 = some .dequantBlock ∧ decode 0x00000030 = some .packFrame ∧ decode 0x00000031 = some .unpackFrame ∧
  decode 0x00000040 = some .streamEncBegin ∧ decode 0x00000041 = some .streamEncFrame ∧
  decode 0x00000042 = some .streamDecBegin ∧ decode 0x00000043 = some .streamDecFrame ∧
  decode 0x00000044 = some .streamEnd ∧ decode 0x00000045 = some .streamAbort

/-- R112's decoding for ALL 2^32 words: the reserved bits are tested first, then the opcode; every word outside the table is
rejected by name, and a word that decodes is the encoding of what it decodes to. -/
def Obligations.DecodingIsExact : Prop :=
  (∀ w : Word, 256 ≤ w.toNat → decodeWord w = .error .reservedBits) ∧
  (∀ w : Word, w.toNat < 256 → w ∉ commandWords → decodeWord w = .error .unassignedOpcode) ∧
  (∀ (w : Word) (i : Instr), decode w = some i → w = encode i ∧ w ∈ commandWords)

/-! One step (10_state.md R60). `sched` is the model's own field: log 1. -/

/-- The engine's step executes the decoded pending command; the step takes nothing else away or adds nothing around it, but for
the schedule entry it uses up. While nothing is scheduled a pending command runs, else the host moves (log 1): its step does the
next operation of its program, used up as well (R117). An agent with nothing to do leaves the state as it is (R361, log 2). -/
def Obligations.StepRunsDecodedCommand : Prop :=
  (∀ (s : State) (w : Word) (i : Instr), s.pending = some w → decode w = some i →
    (s.sched = [] → step s = exec i s) ∧
    (∀ rest, s.sched = .engine :: rest → step s = exec i { s with sched := rest })) ∧
  (∀ (s : State) (op : HostOp) (ops : List HostOp), s.host = op :: ops →
    (s.sched = [] → s.pending = none → step s = runHostOp op { s with host := ops }) ∧
    (∀ rest, s.sched = .host :: rest → step s = runHostOp op { s with sched := rest, host := ops })) ∧
  ∀ s : State,
    (s.host = [] → s.sched = [] → s.pending = none → step s = .next s) ∧
    (s.host = [] → ∀ rest, s.sched = .host :: rest → step s = .next { s with sched := rest }) ∧
    (s.pending = none → ∀ rest, s.sched = .engine :: rest → step s = .next { s with sched := rest })

/-- R112, R326: a word outside the table ends in ILLEGAL_CMD, touches no memory and changes nothing but the completion state, in
the engine's step and so in the machine's, when the engine moves (log 1). -/
def Obligations.IllegalWordEndsInIllegalCmd : Prop :=
  ∀ (s : State) (w : Word), s.pending = some w → w ∉ commandWords →
    EndsInError (engineStep s) s .illegalCmd ∧ wordFootprint w s = noRanges ∧
    (s.sched = [] → EndsInError (step s) s .illegalCmd) ∧
    (∀ rest, s.sched = .engine :: rest → EndsInError (step s) { s with sched := rest } .illegalCmd)

/-- R320: every command, in every state, ends with exactly one completion, of one of the two forms of R325 and R326. -/
def Obligations.EveryCommandEndsWithOneCompletion : Prop :=
  ∀ (i : Instr) (s : State), ∃ t, exec i s = .next t ∧
    ((∃ e, e ≠ .none ∧ Failed s t e) ∨ ∃ r0 r1 r2, Succeeded s t r0 r1 r2)

/-! Configuration (40_config.md). -/

/-- NOP (R140): completes with 0, 0, 0 in every state and changes no configuration, sequencer or memory state. -/
def Obligations.NopCompletesAndChangesNothing : Prop :=
  decode 0x00000000 = some .nop ∧ ∀ s : State, EndsOk (exec .nop s) s 0 0 0 fun t => KeepsConfig s t ∧ KeepsStream s t ∧ StoresNothing s t

/-- `Validate` (R142) on the default canvas: the tests in order, the first that fails decides. -/
def Obligations.ValidateFirstFailingTestDecides : Prop :=
  ∀ c : ConfigRecord,
    let badL := c.levels.toNat ∉ [2, 4, 8, 16, 32, 64, 128, 256]
    let badS := c.blockSize.toNat = 0 ∨ 3840 % c.blockSize.toNat ≠ 0 ∨ 2160 % c.blockSize.toNat ≠ 0
    let badFps := c.fps.toNat = 0
    let badCrf := 51 < c.crf.toNat
    let badP := 254 < c.eccParity.toNat
    let badC := codewordsPerFrame c = 0
    (badL → validate c = some .cfgInvalidLevels) ∧
    (¬badL → badS → validate c = some .cfgInvalidBlockSize) ∧
    (¬badL → ¬badS → badFps → validate c = some .cfgInvalidFps) ∧
    (¬badL → ¬badS → ¬badFps → badCrf → validate c = some .cfgInvalidCrf) ∧
    (¬badL → ¬badS → ¬badFps → ¬badCrf → badP → validate c = some .cfgInvalidEcc) ∧
    (¬badL → ¬badS → ¬badFps → ¬badCrf → ¬badP → badC → validate c = some .cfgInvalidBlockSize) ∧
    (¬badL → ¬badS → ¬badFps → ¬badCrf → ¬badP → ¬badC → validate c = none)

/-- R143: with the other fields legal, a pair `(S, L)` is accepted exactly when `S` is one of the twenty divisors of 240, `L` a
power of two in [2, 256], and the pair is not one of the five that hold no codeword. -/
def Obligations.AcceptedConfigurations : Prop :=
  ∀ c : ConfigRecord, 0 < c.fps.toNat → c.crf.toNat ≤ 51 → c.eccParity.toNat ≤ 254 →
    (validate c = none ↔
      c.blockSize.toNat ∈ [1, 2, 3, 4, 5, 6, 8, 10, 12, 15, 16, 20, 24, 30, 40, 48, 60, 80, 120, 240] ∧
      c.levels.toNat ∈ [2, 4, 8, 16, 32, 64, 128, 256] ∧
      (c.blockSize.toNat, c.levels.toNat) ∉ [(120, 2), (240, 2), (240, 4), (240, 8), (240, 16)])

/-- CFG_COMMIT (R141): SEQUENCE during a stream; else Validate's error with ACT and CFG_VALID kept; else the staging values become
ACT, the results are `P`, `C`, `K` of R6, and CFG_VALID, ACT_*, GEO_P, GEO_C and GEO_K read the new values. -/
def Obligations.CfgCommitRule : Prop :=
  decode 0x00000001 = some .cfgCommit ∧ ∀ s : State,
    (s.seq.phase ∈ [.encHeader, .encPayload, .decHeader, .decPayload] → EndsInError (exec .cfgCommit s) s .sequence) ∧
    (s.seq.phase ∉ [.encHeader, .encPayload, .decHeader, .decPayload] → ∀ e, validate s.staging = some e →
      EndsInError (exec .cfgCommit s) s e) ∧
    (s.seq.phase ∉ [.encHeader, .encPayload, .decHeader, .decPayload] → validate s.staging = none →
      EndsOk (exec .cfgCommit s) s (payloadBytes s.staging) (codewordsPerFrame s.staging) (dataBytes s.staging) fun t =>
        t.act = some s.staging ∧ t.staging = s.staging ∧ KeepsStream s t ∧ StoresNothing s t ∧
        (readReg .status t).getLsbD 1 = true ∧ readReg .actBlockSize t = s.staging.blockSize ∧
        readReg .actLevels t = s.staging.levels ∧ readReg .actEccParity t = s.staging.eccParity ∧
        readReg .actFps t = s.staging.fps ∧ readReg .actCrf t = s.staging.crf ∧
        (readReg .geoP t).toNat = payloadBytes s.staging ∧ (readReg .geoC t).toNat = codewordsPerFrame s.staging ∧
        (readReg .geoK t).toNat = dataBytes s.staging)

/-! The field and the code (41_rs_codec.md). -/

/-- GF(2^8) with `⊕` and `⊗` is a field: the laws of multiplication (R160, R8). -/
def Obligations.GfMulObeysFieldLaws : Prop :=
  (∀ a b : Byte, gfMul a b = gfMul b a) ∧
  (∀ a b c : Byte, gfMul (gfMul a b) c = gfMul a (gfMul b c)) ∧
  (∀ a b c : Byte, gfMul a (b ^^^ c) = gfMul a b ^^^ gfMul a c) ∧
  (∀ a : Byte, gfMul 0x01 a = a) ∧
  (∀ a b : Byte, gfMul a b = 0 → a = 0 ∨ b = 0)

/-- R161: `α = 0x02` is primitive: its powers 0 to 254 are distinct, its 255th is 1, `log` inverts them, every non-zero byte has
an inverse. -/
def Obligations.AlphaIsPrimitive : Prop :=
  gfPowNat 8 = 0x1D ∧ gfPowNat 255 = 0x01 ∧
  (∀ i, i < 255 → ∀ j, j < i → gfAlphaPow i ≠ gfAlphaPow j) ∧
  (∀ a : Byte, a ≠ 0 → gfLog a < 255 ∧ gfAlphaPow (gfLog a) = a ∧ gfMul a (gfInv a) = 0x01)

/-- R163: `g_p` is monic of degree `p` and has the roots `α^0 .. α^(p-1)`. -/
def Obligations.GeneratorPolynomialHasItsRoots : Prop :=
  ∀ p, p ≤ 255 → (genPoly p).length = p + 1 ∧ (genPoly p).head? = some 0x01 ∧
    ∀ j, j < p → polyEval (genPoly p) (gfAlphaPow j) = 0

/-- R166: `RSEnc(d, p)` is systematic, of length `m + p`, and a member of `RS(m + p, p)`. -/
def Obligations.RsEncIsSystematicCodeword : Prop :=
  ∀ (d : List Byte) (p : Nat), d.length + p ≤ 255 →
    (rsEnc d p).take d.length = d ∧ RsMember (d.length + p) p (rsEnc d p)

/-- R171: at most one member is within the radius. -/
def Obligations.RsMemberInRadiusIsUnique : Prop :=
  ∀ (n p : Nat) (era : List Nat) (r c c' : List Byte), n ≤ 255 → p ≤ n → r.length = n → ErasuresLegal n p era →
    RsMember n p c → RsMember n p c' →
    2 * differCount n c r era + era.length ≤ p → 2 * differCount n c' r era + era.length ≤ p → c = c'

/-- R170, the FAIL side and the meaning of a result: what `RSDec` returns is the data of a member within the radius, with the counts
of R172; so without such a member it FAILs. -/
def Obligations.RsDecResultIsMemberInRadius : Prop :=
  ∀ (p : Nat) (era : List Nat) (r : List Byte) (ok : RsResult), r.length ≤ 255 → p ≤ r.length →
    ErasuresLegal r.length p era → rsDec r p era = some ok →
    ∃ c, RsMember r.length p c ∧ 2 * differCount r.length c r era + era.length ≤ p ∧
      ok = { data := c.take (r.length - p), corrected := differCount r.length c r [],
             errors := differCount r.length c r era }

/-- R170, the OK side: whenever SOME member is within the radius, `RSDec` returns its data and counts. The model's decoder is an
algorithm (log 5); with the statement before this says it is the function R170 defines. -/
def Obligations.RsDecFindsMemberInRadius : Prop :=
  ∀ (p : Nat) (era : List Nat) (r c : List Byte), r.length ≤ 255 → p ≤ r.length → ErasuresLegal r.length p era →
    RsMember r.length p c → 2 * differCount r.length c r era + era.length ≤ p →
    rsDec r p era = some { data := c.take (r.length - p), corrected := differCount r.length c r [],
                           errors := differCount r.length c r era }

/-- RS_ENCODE (R176): the preconditions in order, then the codeword stored at ARG_DST and `RES0 = m + p`. -/
def Obligations.RsEncodeRule : Prop :=
  decode 0x00000010 = some .rsEncode ∧ ∀ s : State,
    let m := s.args.len.toNat
    let p := s.args.aux.toNat
    (254 < p → EndsInError (exec .rsEncode s) s .operand) ∧
    (p ≤ 254 → 255 < m + p → EndsInError (exec .rsEncode s) s .operand) ∧
    (p ≤ 254 → m + p ≤ 255 → ¬(InMemory (argSrc s) m ∧ InMemory (argDst s) (m + p)) →
      EndsInError (exec .rsEncode s) s .bus) ∧
    (p ≤ 254 → m + p ≤ 255 → InMemory (argSrc s) m → InMemory (argDst s) (m + p) →
      EndsOk (exec .rsEncode s) s (m + p) 0 0 fun t => KeepsConfig s t ∧ KeepsStream s t ∧
        StoresAt s t (argDst s) (rsEnc (Memory.read s.mem (argSrc s) m) p))

/-- RS_DECODE (R177): the preconditions in order (`ARG_AUX` above 254 covers its bits 31:8), then FAIL as ECC_UNCORRECTABLE with
nothing written, or the data stored at ARG_DST and the counts in RES0..RES2. -/
def Obligations.RsDecodeRule : Prop :=
  decode 0x00000011 = some .rsDecode ∧ ∀ s : State,
    let n := s.args.len.toNat
    let p := s.args.aux.toNat
    let f := s.args.eraCount.toNat
    let ranges := InMemory (argSrc s) n ∧ InMemory (argEraAddr s) f ∧ InMemory (argDst s) (n - p)
    let era := (Memory.read s.mem (argEraAddr s) f).map (·.toNat)
    let r := Memory.read s.mem (argSrc s) n
    (254 < p → EndsInError (exec .rsDecode s) s .operand) ∧
    (p ≤ 254 → 255 < n ∨ n < p → EndsInError (exec .rsDecode s) s .operand) ∧
    (p ≤ 254 → n ≤ 255 → p ≤ n → p < f → EndsInError (exec .rsDecode s) s .operand) ∧
    (p ≤ 254 → n ≤ 255 → p ≤ n → f ≤ p → ¬ranges → EndsInError (exec .rsDecode s) s .bus) ∧
    (p ≤ 254 → n ≤ 255 → p ≤ n → f ≤ p → ranges → ¬ErasuresLegal n p era → EndsInError (exec .rsDecode s) s .operand) ∧
    (p ≤ 254 → n ≤ 255 → p ≤ n → f ≤ p → ranges → ErasuresLegal n p era → rsDec r p era = none →
      EndsInError (exec .rsDecode s) s .eccUncorrectable) ∧
    (p ≤ 254 → n ≤ 255 → p ≤ n → f ≤ p → ranges → ErasuresLegal n p era → ∀ ok, rsDec r p era = some ok →
      EndsOk (exec .rsDecode s) s ok.corrected ok.errors (n - p) fun t => KeepsConfig s t ∧ KeepsStream s t ∧
        StoresAt s t (argDst s) ok.data)

/-! The quantizer (42_quantizer.md). -/

/-- QUANT (R210): NOT_CONFIGURED, then OPERAND for `i ≥ L`, else `q_L(i)` of R200. -/
def Obligations.QuantRule : Prop :=
  decode 0x00000020 = some .quant ∧ ∀ s : State,
    (s.act = none → EndsInError (exec .quant s) s .notConfigured) ∧
    ∀ c, s.act = some c →
      (c.levels.toNat ≤ s.args.aux.toNat → EndsInError (exec .quant s) s .operand) ∧
      (s.args.aux.toNat < c.levels.toNat →
        EndsOk (exec .quant s) s
          ((510 * s.args.aux.toNat + (c.levels.toNat - 1)) / (2 * (c.levels.toNat - 1))) 0 0 fun t =>
            KeepsConfig s t ∧ KeepsStream s t ∧ StoresNothing s t)

/-- DEQUANT (R211): NOT_CONFIGURED, then OPERAND for `v > 255`, else `dq_L(v)` of R202, whatever CFG_DEQ holds. -/
def Obligations.DequantRule : Prop :=
  decode 0x00000021 = some .dequant ∧ ∀ s : State,
    (s.act = none → EndsInError (exec .dequant s) s .notConfigured) ∧
    ∀ c, s.act = some c →
      (255 < s.args.aux.toNat → EndsInError (exec .dequant s) s .operand) ∧
      (s.args.aux.toNat ≤ 255 →
        EndsOk (exec .dequant s) s ((2 * s.args.aux.toNat * (c.levels.toNat - 1) + 255) / 510) 0 0 fun t =>
          KeepsConfig s t ∧ KeepsStream s t ∧ StoresNothing s t)

/-- DEQUANT_BLOCK (R212): the preconditions in order; under MEAN the index of R205 and the sum; under MAJORITY the index of R206
and its vote count; RES2 = `n`. -/
def Obligations.DequantBlockRule : Prop :=
  decode 0x00000022 = some .dequantBlock ∧ ∀ s : State,
    let n := s.args.len.toNat
    let vs := Memory.read s.mem (argSrc s) n
    let sum := (vs.map (·.toNat)).sum
    (s.act = none → EndsInError (exec .dequantBlock s) s .notConfigured) ∧
    ∀ c, s.act = some c →
      let cnt := fun k => (vs.filter fun v => (2 * v.toNat * (c.levels.toNat - 1) + 255) / 510 == k).length
      (n = 0 ∨ 65535 < n → EndsInError (exec .dequantBlock s) s .operand) ∧
      (n ≠ 0 → n ≤ 65535 → ¬InMemory (argSrc s) n → EndsInError (exec .dequantBlock s) s .bus) ∧
      (n ≠ 0 → n ≤ 65535 → InMemory (argSrc s) n → s.vote = .mean →
        EndsOk (exec .dequantBlock s) s ((2 * sum * (c.levels.toNat - 1) + 255 * n) / (510 * n)) sum n fun t =>
          KeepsConfig s t ∧ KeepsStream s t ∧ StoresNothing s t) ∧
      (n ≠ 0 → n ≤ 65535 → InMemory (argSrc s) n → s.vote = .majority → validate c = none →
        ∃ idx, idx < c.levels.toNat ∧ (∀ k, k < c.levels.toNat → cnt k ≤ cnt idx) ∧ (∀ k, k < idx → cnt k < cnt idx) ∧
          EndsOk (exec .dequantBlock s) s idx (cnt idx) n fun t =>
            KeepsConfig s t ∧ KeepsStream s t ∧ StoresNothing s t)

/-- R204: within the margin `M_L` of a level value the index is unchanged, and `M_L` is the largest such margin. -/
def Obligations.GuardBandMargins : Prop :=
  ∀ l m, (l, m) ∈ guardMargins →
    (∀ i, i < l → ∀ v, v ≤ 255 → v ≤ quantLevel l i + m → quantLevel l i ≤ v + m → dequantLevel l v = i) ∧
    ∃ i v, i < l ∧ v ≤ 255 ∧ (v = quantLevel l i + m + 1 ∨ quantLevel l i = v + m + 1) ∧ dequantLevel l v ≠ i

/-- R205: the MEAN index is in `[0, L)` and is the level nearest to the exact mean, a tie going to the higher index:
`k - 1/2 ≤ mean * (L - 1) / 255 < k + 1/2`. -/
def Obligations.MeanIndexIsNearestLevel : Prop :=
  ∀ l, l ∈ legalLevels → ∀ vs : List Byte, vs ≠ [] →
    let sum := (vs.map (·.toNat)).sum
    let k := blockIndex l .mean vs
    k < l ∧ 510 * vs.length * k ≤ 2 * sum * (l - 1) + 255 * vs.length ∧
      2 * sum * (l - 1) + 255 * vs.length < 510 * vs.length * (k + 1)

/-! The frame codec (43_frame_codec.md). -/

/-- R239 with R230, R231, R236, R237 written out: on the default canvas, every pixel of block `b` carries in channel `ch` the level
value of the index its bits form, most significant first; every byte of the frame is written. -/
def Obligations.PackFramePixels : Prop :=
  ∀ c : ConfigRecord, validate c = none → ∀ buf : List Byte, buf.length = payloadBytes c →
    let S := c.blockSize.toNat
    let L := c.levels.toNat
    let bpc := Nat.log2 L
    let bit := fun t => if t < 8 * payloadBytes c then ((buf.getD (t / 8) 0).getLsbD (7 - t % 8)).toNat else 0
    (packFrame (configGeometry c) buf).length = 24883200 ∧
    ∀ b, b < blocksPerFrame c → ∀ ch, ch < 3 → ∀ u, u < S → ∀ w, w < S →
      let x := b % (3840 / S) * S + u
      let y := b / (3840 / S) * S + w
      let idx := ((List.range bpc).map fun j => bit (b * (3 * bpc) + ch * bpc + j) * 2 ^ (bpc - 1 - j)).sum
      (packFrame (configGeometry c) buf).getD ((y * 3840 + x) * 3 + ch) 0 =
        BitVec.ofNat 8 ((510 * idx + (L - 1)) / (2 * (L - 1)))

/-- R242 (with R241 where the noise is 0): if every byte of a packed frame is changed by at most `M_L`, unpacking gives the buffer
back, in both vote modes. -/
def Obligations.UnpackToleratesGuardBandNoise : Prop :=
  ∀ (c : ConfigRecord) (m : Nat) (buf : List Byte) (vote : VoteMode) (frame : Nat → Byte), validate c = none →
    (c.levels.toNat, m) ∈ guardMargins → buf.length = payloadBytes c →
    (∀ o, o < 24883200 →
      (frame o).toNat ≤ ((packFrame (configGeometry c) buf).getD o 0).toNat + m ∧
      ((packFrame (configGeometry c) buf).getD o 0).toNat ≤ (frame o).toNat + m) →
    unpackFrame (configGeometry c) vote frame = buf

/-- PACK_FRAME (R245): the preconditions in order, then the packed frame of the padded payload stored at ARG_DST. -/
def Obligations.PackFrameRule : Prop :=
  decode 0x00000030 = some .packFrame ∧ ∀ s : State,
    let len := s.args.len.toNat
    (s.act = none → EndsInError (exec .packFrame s) s .notConfigured) ∧
    ∀ c, s.act = some c →
      (payloadBytes c < len → EndsInError (exec .packFrame s) s .operand) ∧
      (len ≤ payloadBytes c → ¬(InMemory (argSrc s) len ∧ InMemory (argDst s) 24883200) →
        EndsInError (exec .packFrame s) s .bus) ∧
      (len ≤ payloadBytes c → InMemory (argSrc s) len → InMemory (argDst s) 24883200 →
        EndsOk (exec .packFrame s) s (payloadBytes c) len (blocksPerFrame c) fun t => KeepsConfig s t ∧ KeepsStream s t ∧
          StoresAt s t (argDst s) (packFrame (configGeometry c)
            (Memory.read s.mem (argSrc s) len ++ List.replicate (payloadBytes c - len) 0x00)))

/-- UNPACK_FRAME (R246): the preconditions in order, then the unpacked payload stored at ARG_DST; it never fails on pixels. What
is unpacked, R240 written out for ANY frame: bit `b * BPB + ch * BPC + j` of the buffer, most significant bit of each byte first,
is bit `BPC - 1 - j` of the block index, in the vote mode, of channel `ch` over all pixels of block `b`. -/
def Obligations.UnpackFrameRule : Prop :=
  (decode 0x00000031 = some .unpackFrame ∧ ∀ s : State,
    (s.act = none → EndsInError (exec .unpackFrame s) s .notConfigured) ∧
    ∀ c, s.act = some c →
      (¬(InMemory (argSrc s) 24883200 ∧ InMemory (argDst s) (payloadBytes c)) →
        EndsInError (exec .unpackFrame s) s .bus) ∧
      (InMemory (argSrc s) 24883200 → InMemory (argDst s) (payloadBytes c) →
        EndsOk (exec .unpackFrame s) s (payloadBytes c) 0 (blocksPerFrame c) fun t => KeepsConfig s t ∧ KeepsStream s t ∧
          StoresAt s t (argDst s) (unpackFrame (configGeometry c) s.vote fun o => Memory.readByte s.mem (argSrc s + o)))) ∧
  ∀ (c : ConfigRecord) (vote : VoteMode) (frame : Nat → Byte), validate c = none →
    let bpc := Nat.log2 c.levels.toNat
    let buf := unpackFrame (configGeometry c) vote frame
    buf.length = payloadBytes c ∧
    ∀ b, b < blocksPerFrame c → ∀ ch, ch < 3 →
      ∃ k, IsBlockIndex c.levels.toNat vote (blockPixels c frame b ch) k ∧
        ∀ j, j < bpc →
          let pos := b * (3 * bpc) + ch * bpc + j
          (buf.getD (pos / 8) 0).getLsbD (7 - pos % 8) = k.testBit (bpc - 1 - j)

/-! The stream (44_stream.md). -/

/-- STREAM_ENC_BEGIN (R280): the preconditions in order; non-zero bytes 108..111 of the host record end in OPERAND by
93_implementation_defined.md item 18 (log 20). -/
def Obligations.StreamEncBeginPreconditions : Prop :=
  ∀ s : State,
    let h := Memory.read s.mem (argSrc s) 112
    (s.act = none → EndsInError (exec .streamEncBegin s) s .notConfigured) ∧
    ∀ c, s.act = some c →
      let pf := ceilDiv (ceilDiv (leNat (slice h 24 32)) (dataBytes c)) (codewordsPerFrame c)
      (s.seq.phase ∉ [.idle, .done, .failed] → EndsInError (exec .streamEncBegin s) s .sequence) ∧
      (s.seq.phase ∈ [.idle, .done, .failed] → ¬(InMemory (argSrc s) 112 ∧ InMemory (argDst s) 112) →
        EndsInError (exec .streamEncBegin s) s .bus) ∧
      (s.seq.phase ∈ [.idle, .done, .failed] → InMemory (argSrc s) 112 → InMemory (argDst s) 112 →
        2 ≤ (h.getD 5 0).toNat ∨ slice h 108 112 ≠ [0, 0, 0, 0] ∨ 2 ^ 32 - 2 < pf →
        EndsInError (exec .streamEncBegin s) s .operand)

/-- STREAM_ENC_BEGIN (R280, R271, R272): the record, the sequencer and the results, from a validated configuration and a host
record whose reserved bits and bytes are 0 (the statement before says what happens else). -/
def Obligations.StreamEncBeginResult : Prop :=
  ∀ (s : State) (c : ConfigRecord),
    let h := Memory.read s.mem (argSrc s) 112
    let pf := ceilDiv (ceilDiv (leNat (slice h 24 32)) (dataBytes c)) (codewordsPerFrame c)
    s.act = some c → validate c = none → s.seq.phase ∈ [.idle, .done, .failed] →
    InMemory (argSrc s) 112 → InMemory (argDst s) 112 → (h.getD 5 0).toNat < 2 → slice h 108 112 = [0, 0, 0, 0] →
    pf ≤ 2 ^ 32 - 2 →
      EndsOk (exec .streamEncBegin s) s (1 + pf) pf (dataBytes c) fun t => KeepsConfig s t ∧ StoresAt s t (argDst s) t.hb ∧
        t.hb.length = 112 ∧ slice t.hb 0 4 = [0x56, 0x53, 0x54, 0x47] ∧ slice t.hb 4 5 = [1] ∧ slice t.hb 5 6 = slice h 5 6 ∧
        leNat (slice t.hb 6 7) = c.eccParity.toNat ∧ leNat (slice t.hb 7 8) = c.crf.toNat ∧
        leNat (slice t.hb 8 10) = c.blockSize.toNat ∧ leNat (slice t.hb 10 12) = c.levels.toNat ∧
        leNat (slice t.hb 12 16) = c.fps.toNat ∧ slice t.hb 16 32 = slice h 16 32 ∧ leNat (slice t.hb 32 36) = pf ∧
        slice t.hb 36 108 = slice h 36 108 ∧ slice t.hb 108 112 = [0, 0, 0, 0] ∧
        t.seq.phase = .encHeader ∧ t.seq.frameIdx = 0 ∧ t.seq.totalFrames.toNat = 1 + pf ∧
        t.seq.bytesRem.toNat = leNat (slice h 24 32) ∧ t.seq.correctedTotal = 0 ∧ t.seq.cwDone = 0

/-- R273: the header frame's payload buffer: length prefix, record, pad, 64 parity bytes making a codeword, then pad only; and the
header frame is that buffer packed in the header geometry (`S = 8, L = 2, p = 64`, R232). -/
def Obligations.HeaderPayloadLayout : Prop :=
  ∀ hb : List Byte, hb.length = 112 →
    (headerPayload hb).length = 48600 ∧ slice (headerPayload hb) 0 2 = [0x70, 0x00] ∧ slice (headerPayload hb) 2 114 = hb ∧
    slice (headerPayload hb) 114 191 = List.replicate 77 0x00 ∧ RsMember 255 64 (slice (headerPayload hb) 0 255) ∧
    (∀ j, 255 ≤ j → (headerPayload hb).getD j 0 = 0x00) ∧
    headerFrame hb =
      packFrame (configGeometry { blockSize := 8, levels := 2, eccParity := 64, fps := 30, crf := 18 }) (headerPayload hb)

/-- STREAM_ENC_FRAME (R285), the header frame and the errors: SEQUENCE outside an encode stream, BUS, else `F_H` of `HB`. -/
def Obligations.StreamEncFrameHeaderAndErrors : Prop :=
  ∀ s : State,
    (s.seq.phase ∉ [.encHeader, .encPayload] → EndsInError (exec .streamEncFrame s) s .sequence) ∧
    (s.seq.phase = .encHeader → ¬InMemory (argDst s) 24883200 → EndsInError (exec .streamEncFrame s) s .bus) ∧
    (s.seq.phase = .encPayload → ¬(InMemory (argSrc s) (payloadChunk s) ∧ InMemory (argDst s) 24883200) →
      EndsInError (exec .streamEncFrame s) s .bus) ∧
    (s.seq.phase = .encHeader → InMemory (argDst s) 24883200 →
      EndsOk (exec .streamEncFrame s) s 0 0 1 fun t => KeepsConfig s t ∧ t.hb = s.hb ∧
        StoresAt s t (argDst s) (headerFrame s.hb) ∧
        t.seq = { s.seq with frameIdx := 1, phase := if s.seq.totalFrames = 1 then .done else .encPayload })

/-- STREAM_ENC_FRAME (R285), a payload frame, in a state that meets the invariant: `cnt = min(SEQ_BYTES_REM, C * K) ≥ 1` bytes in
`u = ceil(cnt / K)` codewords; the frame stored is the packed buffer of those codewords in slots, with every other byte 0 (R274,
R243). -/
def Obligations.StreamEncFramePayload : Prop :=
  ∀ (s : State) (c : ConfigRecord), s.Inv → s.seq.phase = .encPayload → s.act = some c →
    let cnt := min s.seq.bytesRem.toNat (codewordsPerFrame c * dataBytes c)
    let u := ceilDiv cnt (dataBytes c)
    InMemory (argSrc s) cnt → InMemory (argDst s) 24883200 →
      1 ≤ cnt ∧ u ≤ codewordsPerFrame c ∧
      (∃ buf, payloadFrame (configGeometry c) (Memory.read s.mem (argSrc s) cnt) = packFrame (configGeometry c) buf ∧
        IsPayloadBuffer c (Memory.read s.mem (argSrc s) cnt) buf) ∧
      EndsOk (exec .streamEncFrame s) s s.seq.frameIdx.toNat cnt u fun t => KeepsConfig s t ∧ t.hb = s.hb ∧
        StoresAt s t (argDst s) (payloadFrame (configGeometry c) (Memory.read s.mem (argSrc s) cnt)) ∧
        t.seq.bytesRem.toNat = s.seq.bytesRem.toNat - cnt ∧
        t.seq.cwDone.toNat = min (s.seq.cwDone.toNat + u) 0xFFFFFFFF ∧
        t.seq.frameIdx.toNat = s.seq.frameIdx.toNat + 1 ∧ t.seq.totalFrames = s.seq.totalFrames ∧
        t.seq.correctedTotal = s.seq.correctedTotal ∧
        t.seq.phase = if s.seq.frameIdx.toNat + 1 = s.seq.totalFrames.toNat then .done else .encPayload

/-- STREAM_DEC_BEGIN (R290): SEQUENCE during a stream, else DEC_HEADER with zeroed counters; no configuration is needed. -/
def Obligations.StreamDecBeginRule : Prop :=
  decode 0x00000042 = some .streamDecBegin ∧ ∀ s : State,
    (s.seq.phase ∉ [.idle, .done, .failed] → EndsInError (exec .streamDecBegin s) s .sequence) ∧
    (s.seq.phase ∈ [.idle, .done, .failed] →
      EndsOk (exec .streamDecBegin s) s 0 0 0 fun t => KeepsConfig s t ∧ t.hb = s.hb ∧ StoresNothing s t ∧
        t.seq = { phase := .decHeader, frameIdx := 0, totalFrames := 0, bytesRem := 0, correctedTotal := 0, cwDone := 0 })

/-- STREAM_DEC_FRAME (R292), the preconditions. -/
def Obligations.StreamDecFramePreconditions : Prop :=
  ∀ s : State,
    (s.seq.phase ∉ [.decHeader, .decPayload] → EndsInError (exec .streamDecFrame s) s .sequence) ∧
    (s.seq.phase = .decHeader → ¬(InMemory (argSrc s) 24883200 ∧ InMemory (argDst s) 112) →
      EndsInError (exec .streamDecFrame s) s .bus) ∧
    (s.seq.phase = .decPayload → ¬(InMemory (argSrc s) 24883200 ∧ InMemory (argDst s) (payloadChunk s)) →
      EndsInError (exec .streamDecFrame s) s .bus)

/-- STREAM_DEC_FRAME (R292), a header frame, with the steps of ParseHeader (R276) written out: the header codeword is the first 255
bytes unpacked in the header geometry (`S = 8, L = 2, p = 64`); its first failing step fails the stream with nothing else changed,
in the order ECC, magic, version, then MALFORMED for the prefix, the flags and reserved bytes, Validate and the frame count; else
the record goes to `HB` and memory, its configuration to the staging registers and ACT, its counts to the sequencer. -/
def Obligations.StreamDecFrameHeader : Prop :=
  ∀ s : State, s.seq.phase = .decHeader → InMemory (argSrc s) 24883200 → InMemory (argDst s) 112 →
    let buf := unpackFrame (configGeometry { blockSize := 8, levels := 2, eccParity := 64, fps := 30, crf := 18 }) s.vote
      fun o => Memory.readByte s.mem (argSrc s + o)
    let word := slice buf 0 255
    (rsDec word 64 [] = none → EndsFailingStream (exec .streamDecFrame s) s .eccUncorrectable) ∧
    ∀ ok, rsDec word 64 [] = some ok →
      let hdr := slice ok.data 2 114
      let cfg : ConfigRecord :=
        { blockSize := BitVec.ofNat 32 (leNat (slice hdr 8 10)), levels := BitVec.ofNat 32 (leNat (slice hdr 10 12))
          eccParity := BitVec.ofNat 32 (leNat (slice hdr 6 7)), fps := BitVec.ofNat 32 (leNat (slice hdr 12 16))
          crf := BitVec.ofNat 32 (leNat (slice hdr 7 8)) }
      let pf := leNat (slice hdr 32 36)
      let plen := leNat (slice hdr 24 32)
      let badMagic := slice hdr 0 4 ≠ [0x56, 0x53, 0x54, 0x47]
      let badVersion := hdr.getD 4 0 ≠ 1
      let malformed := leNat (slice ok.data 0 2) ≠ 112 ∨ 2 ≤ (hdr.getD 5 0).toNat ∨ slice hdr 108 112 ≠ [0, 0, 0, 0] ∨
        validate cfg ≠ none ∨ pf ≠ ceilDiv plen (codewordsPerFrame cfg * dataBytes cfg) ∨ 2 ^ 32 - 2 < pf
      (badMagic → EndsFailingStream (exec .streamDecFrame s) s .formatBadMagic) ∧
      (¬badMagic → badVersion → EndsFailingStream (exec .streamDecFrame s) s .formatBadVersion) ∧
      (¬badMagic → ¬badVersion → malformed → EndsFailingStream (exec .streamDecFrame s) s .formatMalformed) ∧
      (¬badMagic → ¬badVersion → ¬malformed →
        EndsOk (exec .streamDecFrame s) s 0 112 ok.corrected fun t => t.hb = hdr ∧ StoresAt s t (argDst s) hdr ∧
          t.staging = cfg ∧ t.act = some cfg ∧
          t.seq.totalFrames.toNat = 1 + pf ∧ t.seq.bytesRem.toNat = plen ∧
          t.seq.frameIdx = 1 ∧ t.seq.correctedTotal.toNat = ok.corrected ∧ t.seq.cwDone = s.seq.cwDone ∧
          t.seq.phase = if pf = 0 then .done else .decPayload)

/-- STREAM_DEC_FRAME (R292), a payload frame, in a state that meets the invariant: an uncorrectable slot fails the stream with
nothing written; else the first `cnt` decoded bytes are stored and the counters advance. -/
def Obligations.StreamDecFramePayload : Prop :=
  ∀ (s : State) (c : ConfigRecord), s.Inv → s.seq.phase = .decPayload → s.act = some c →
    let cnt := min s.seq.bytesRem.toNat (codewordsPerFrame c * dataBytes c)
    let u := ceilDiv cnt (dataBytes c)
    let buf := unpackFrame (configGeometry c) s.vote fun o => Memory.readByte s.mem (argSrc s + o)
    InMemory (argSrc s) 24883200 → InMemory (argDst s) cnt →
      ((∃ j, j < u ∧ rsDec (slice buf (255 * j) (255 * j + 255)) c.eccParity.toNat [] = none) →
        EndsFailingStream (exec .streamDecFrame s) s .eccUncorrectable) ∧
      (∀ oks : List RsResult, oks.length = u →
        (∀ j, j < u → rsDec (slice buf (255 * j) (255 * j + 255)) c.eccParity.toNat [] = oks[j]?) →
        EndsOk (exec .streamDecFrame s) s s.seq.frameIdx.toNat cnt ((oks.map (·.corrected)).sum) fun t =>
          KeepsConfig s t ∧ t.hb = s.hb ∧ StoresAt s t (argDst s) (((oks.map (·.data)).flatten).take cnt) ∧
          t.seq.bytesRem.toNat = s.seq.bytesRem.toNat - cnt ∧
          t.seq.cwDone.toNat = min (s.seq.cwDone.toNat + u) 0xFFFFFFFF ∧
          t.seq.correctedTotal.toNat = min (s.seq.correctedTotal.toNat + (oks.map (·.corrected)).sum) 0xFFFFFFFF ∧
          t.seq.frameIdx.toNat = s.seq.frameIdx.toNat + 1 ∧ t.seq.totalFrames = s.seq.totalFrames ∧
          t.seq.phase = if s.seq.frameIdx.toNat + 1 = s.seq.totalFrames.toNat then .done else .decPayload)

/-- STREAM_END (R296): SEQUENCE in IDLE and FAILED; IDLE after DONE with the frame count; an unfinished stream FAILS, by
FORMAT_TRUNCATED or STREAM_INCOMPLETE; the other SEQ_* registers are kept. -/
def Obligations.StreamEndRule : Prop :=
  decode 0x00000044 = some .streamEnd ∧ ∀ s : State,
    (s.seq.phase ∈ [.idle, .failed] → EndsInError (exec .streamEnd s) s .sequence) ∧
    (s.seq.phase = .done →
      EndsOk (exec .streamEnd s) s s.seq.totalFrames.toNat 0 0 fun t => KeepsConfig s t ∧ t.hb = s.hb ∧ StoresNothing s t ∧
        t.seq = { s.seq with phase := .idle }) ∧
    (s.seq.phase ∈ [.decHeader, .decPayload] → EndsFailingStream (exec .streamEnd s) s .formatTruncated) ∧
    (s.seq.phase ∈ [.encHeader, .encPayload] → EndsFailingStream (exec .streamEnd s) s .streamIncomplete)

/-- STREAM_ABORT (R297): IDLE from every phase, without error; the other SEQ_* registers, `HB` and ACT are kept. -/
def Obligations.StreamAbortRule : Prop :=
  decode 0x00000045 = some .streamAbort ∧ ∀ s : State, EndsOk (exec .streamAbort s) s 0 0 0 fun t => KeepsConfig s t ∧ t.hb = s.hb ∧ StoresNothing s t ∧
    t.seq = { s.seq with phase := .idle }

/-- The header frame round trip (R273, R276): whatever host record, validated configuration and fitting frame count the record was
built from, a decoder given the header frame, wherever it lies in memory and in either vote mode, gets exactly that record with
nothing corrected. -/
def Obligations.HeaderFrameRoundTrip : Prop :=
  ∀ (h : List Byte) (c : ConfigRecord) (vote : VoteMode) (m : Memory) (a : Nat),
    let pf := ceilDiv (leNat (slice h 24 32)) (codewordsPerFrame c * dataBytes c)
    let hdr := buildRecord h c pf
    h.length = 112 → (h.getD 5 0).toNat < 2 → validate c = none → pf ≤ 2 ^ 32 - 2 →
    parseHeader vote (frameAt (Memory.write m a (headerFrame hdr)) a) = .ok (hdr, 0)

/-- The payload frame round trip (R274, R285, R292): a decoder in DEC_PAYLOAD given the frame an encoder made of the next
`cnt` payload bytes `d` stores exactly `d`, with nothing corrected. -/
def Obligations.PayloadFrameRoundTrip : Prop :=
  ∀ (s : State) (c : ConfigRecord) (d : List Byte), s.Inv → s.seq.phase = .decPayload → s.act = some c →
    d.length = min s.seq.bytesRem.toNat (codewordsPerFrame c * dataBytes c) →
    InMemory (argSrc s) 24883200 → InMemory (argDst s) d.length →
    (∀ o, o < 24883200 → Memory.readByte s.mem (argSrc s + o) = (payloadFrame (configGeometry c) d).getD o 0) →
      EndsOk (exec .streamDecFrame s) s s.seq.frameIdx.toNat d.length 0 fun t =>
        KeepsConfig s t ∧ t.hb = s.hb ∧ StoresAt s t (argDst s) d

/-! Rules over all commands. -/

/-- R270: the phase table. A command leaves a phase of its row, or ends in error with the phase unchanged; where the table has "-"
the error is SEQUENCE (after NOT_CONFIGURED, R323) and nothing else changes. -/
def Obligations.PhaseTransitionsFollowTable : Prop :=
  ∀ (i : Instr) (s t : State), exec i s = .next t →
    (t.seq.phase ∈ phaseTable i s.seq.phase ∨ (t.seq = s.seq ∧ t.errCode ≠ .none)) ∧
    (phaseTable i s.seq.phase = [] →
      EndsInError (exec i s) s .sequence ∨ (i = .streamEncBegin ∧ s.act = none ∧ EndsInError (exec i s) s .notConfigured))

/-- R326, R327: a command that fails has written no memory, no configuration and no `HB`; of the sequencer only SEQ_PHASE, to
FAILED, and only by STREAM_DEC_FRAME or STREAM_END. -/
def Obligations.FailedCommandChangesNothingElse : Prop :=
  ∀ (i : Instr) (s t : State), exec i s = .next t → t.errCode ≠ .none →
    t.mem = s.mem ∧ KeepsConfig s t ∧ t.hb = s.hb ∧
      (t.seq = s.seq ∨ ((i = .streamDecFrame ∨ i = .streamEnd) ∧ t.seq = { s.seq with phase := .failed }))

/-- R46, R38, R61: no command writes an operand register, CFG_DEQ, IRQ_ENABLE, LAST_CMD or OVERRUN, or the host's own
state (model's fields, log 16). -/
def Obligations.CommandsKeepHostWrittenRegisters : Prop :=
  ∀ (i : Instr) (s t : State), exec i s = .next t → KeepsHostWritten s t

/-- R41, R275: ACT is written only by a successful CFG_COMMIT, outside a stream, and by a successful header-frame decode; no command
clears it; the staging registers are written only by the header decode (R40). -/
def Obligations.ActiveConfigurationWriters : Prop :=
  ∀ (i : Instr) (s t : State), exec i s = .next t →
    (t.act ≠ s.act → t.errCode = .none ∧ t.act ≠ none ∧
      ((i = .cfgCommit ∧ s.seq.phase ∉ [.encHeader, .encPayload, .decHeader, .decPayload]) ∨
        (i = .streamDecFrame ∧ s.seq.phase = .decHeader))) ∧
    (t.staging ≠ s.staging → i = .streamDecFrame ∧ s.seq.phase = .decHeader ∧ t.errCode = .none)

/-! The register window (10_state.md). -/

/-- STATUS (R37): every field of the word, ERR_CODE with the numbers of R321 and PHASE with those of R55, and the bits that read
0; and what RES0..RES2 (R48), IRQ_STATUS, IRQ_ENABLE (R39), the SEQ_* registers (R55 to R58, SEQ_BYTES_REM in two halves), the
CFG_* registers (R40, R45) and the operand registers (R46, R47) read, at the offsets of R33. CTRL
reads 0 (R36) and CMD the last word issued (R38). R33's table, row by row, is the register map. -/
def Obligations.StatusWordFields : Prop :=
  ∀ s : State,
    let w := readOffset 0x0C s
    ((w.getLsbD 0 = true ↔ s.pending ≠ none) ∧ (w.getLsbD 1 = true ↔ s.act ≠ none) ∧
      (w.getLsbD 2 = true ↔ s.errCode ≠ .none) ∧ w.getLsbD 3 = s.overrun ∧ w.extractLsb' 4 4 = 0 ∧
      (s.errCode, w.extractLsb' 8 8) ∈ errorNumbers ∧ (s.seq.phase, w.extractLsb' 16 3) ∈ phaseNumbers ∧
      w.extractLsb' 19 13 = 0) ∧
    (readOffset 0x08 s = 0 ∧ readOffset 0x10 s = s.lastCmd) ∧
    (readOffset 0xA0 s = s.res0 ∧ readOffset 0xA4 s = s.res1 ∧ readOffset 0xA8 s = s.res2) ∧
    ((readOffset 0x14 s).toNat = s.irqStatus.toNat ∧ (readOffset 0x18 s).toNat = s.irqEnable.toNat) ∧
    ((s.seq.phase, (readOffset 0xC0 s).extractLsb' 0 3) ∈ phaseNumbers ∧ (readOffset 0xC0 s).extractLsb' 3 29 = 0 ∧
      readOffset 0xC4 s = s.seq.frameIdx ∧ readOffset 0xC8 s = s.seq.totalFrames ∧
      (readOffset 0xCC s).toNat = s.seq.bytesRem.toNat % 2 ^ 32 ∧ (readOffset 0xD0 s).toNat = s.seq.bytesRem.toNat / 2 ^ 32 ∧
      readOffset 0xD4 s = s.seq.correctedTotal ∧ readOffset 0xD8 s = s.seq.cwDone) ∧
    (readOffset 0x20 s = s.staging.blockSize ∧ readOffset 0x24 s = s.staging.levels ∧
      readOffset 0x28 s = s.staging.eccParity ∧ readOffset 0x2C s = s.staging.fps ∧ readOffset 0x30 s = s.staging.crf ∧
      readOffset 0x34 s = (if s.vote = .majority then 1 else 0)) ∧
    (readOffset 0x80 s = s.args.src ∧ readOffset 0x84 s = s.args.dst ∧ readOffset 0x88 s = s.args.len ∧
      readOffset 0x8C s = s.args.aux ∧ readOffset 0x90 s = s.args.eraAddr ∧ readOffset 0x94 s = s.args.eraCount) ∧
    ∀ off r acc, (off, r, acc) ∈ registerTable →
      regAt off = some r ∧ regOffset r = off ∧ regAccess r = acc ∧ readOffset off s = readReg r s

/-- R41, R42: without an active configuration ACT_* and GEO_* read 0; with a validated one they read its fields and the geometry of
R6, which fits in 32 bits. -/
def Obligations.ActiveAndGeometryRegisters : Prop :=
  ∀ s : State,
    (s.act = none → ∀ r ∈ [Reg.actBlockSize, .actLevels, .actEccParity, .actFps, .actCrf, .geoBpc, .geoBpb, .geoBx, .geoBy,
      .geoNb, .geoP, .geoC, .geoK], readReg r s = 0) ∧
    (∀ c, s.act = some c → validate c = none →
      readReg .actBlockSize s = c.blockSize ∧ readReg .actLevels s = c.levels ∧ readReg .actEccParity s = c.eccParity ∧
      readReg .actFps s = c.fps ∧ readReg .actCrf s = c.crf ∧
      (readReg .geoBpc s).toNat = Nat.log2 c.levels.toNat ∧ (readReg .geoBpb s).toNat = 3 * Nat.log2 c.levels.toNat ∧
      (readReg .geoBx s).toNat = 3840 / c.blockSize.toNat ∧ (readReg .geoBy s).toNat = 2160 / c.blockSize.toNat ∧
      (readReg .geoNb s).toNat = blocksPerFrame c ∧ (readReg .geoP s).toNat = payloadBytes c ∧
      (readReg .geoC s).toNat = codewordsPerFrame c ∧ (readReg .geoK s).toNat = dataBytes c)

/-- R31, the RW row: a host write to a RW register of an idle block, or to IRQ_ENABLE of any block, is read back in its defined
bits (bit 0 of CFG_DEQ, bits 1:0 of IRQ_ENABLE, all bits of the others) and changes no other register; memory, sequencer, ACT and
the pending command are untouched. Offset by offset (R33): which field of the state the write sets, and that it sets no other. -/
def Obligations.RwRegisterTakesWrittenBits : Prop :=
  (∀ (r : Reg) (v : Word) (s : State), regAccess r = .rw → s.pending = none ∨ r = .irqEnable →
    let t := writeOffset (regOffset r) v s
    readReg r t = (v &&& if r = .cfgDeq then 1 else if r = .irqEnable then 3 else 0xFFFFFFFF) ∧
    (∀ r', r' ≠ r → readReg r' t = readReg r' s) ∧ t.mem = s.mem ∧ t.seq = s.seq ∧ t.act = s.act ∧ t.hb = s.hb ∧
    t.pending = s.pending) ∧
  ∀ (v : Word) (s : State), writeOffset 0x18 v s = { s with irqEnable := v.extractLsb' 0 2 } ∧ (s.pending = none →
    (writeOffset 0x20 v s = { s with staging := { s.staging with blockSize := v } } ∧
      writeOffset 0x24 v s = { s with staging := { s.staging with levels := v } } ∧
      writeOffset 0x28 v s = { s with staging := { s.staging with eccParity := v } } ∧
      writeOffset 0x2C v s = { s with staging := { s.staging with fps := v } } ∧
      writeOffset 0x30 v s = { s with staging := { s.staging with crf := v } } ∧
      writeOffset 0x34 v s = { s with vote := if v.getLsbD 0 then .majority else .mean }) ∧
    writeOffset 0x80 v s = { s with args := { s.args with src := v } } ∧
    writeOffset 0x84 v s = { s with args := { s.args with dst := v } } ∧
    writeOffset 0x88 v s = { s with args := { s.args with len := v } } ∧
    writeOffset 0x8C v s = { s with args := { s.args with aux := v } } ∧
    writeOffset 0x90 v s = { s with args := { s.args with eraAddr := v } } ∧
    writeOffset 0x94 v s = { s with args := { s.args with eraCount := v } })

/-- R30, R31, R33, R34, R35, R43: the reserved offsets are those of R33's list; they read 0; a host write to one, or to an RO
register, has no effect, busy or not; ID, HW_VERSION, CANVAS_W and CANVAS_H are constants. -/
def Obligations.ReservedReadOnlyAndConstantRegisters : Prop :=
  ∀ (off : BitVec 8) (v : Word) (s : State),
    (off.toNat % 4 = 0 → (regAt off = none ↔ off ∈ [0x1C, 0x38, 0x3C, 0x7C, 0x98, 0x9C, 0xAC, 0xB0, 0xB4, 0xB8, 0xBC,
      0xDC, 0xE0, 0xE4, 0xE8, 0xEC, 0xF0, 0xF4, 0xF8, 0xFC])) ∧
    (regAt off = none → readOffset off s = 0 ∧ writeOffset off v s = s) ∧
    (∀ r, regAt off = some r → regAccess r = .ro → writeOffset off v s = s) ∧
    readOffset 0x00 s = 0x47545356 ∧ readOffset 0x04 s = 0x00000101 ∧ readOffset 0x74 s = 3840 ∧ readOffset 0x78 s = 2160

/-- R31, R61: while busy, a host write to CMD, a CFG_* or an ARG_* register has no effect but OVERRUN. -/
def Obligations.BusyWriteSetsOverrunOnly : Prop :=
  ∀ (r : Reg) (v : Word) (s : State), s.pending ≠ none →
    r ∈ [Reg.cmd, .cfgBlockSize, .cfgLevels, .cfgEccParity, .cfgFps, .cfgCrf, .cfgDeq, .argSrc, .argDst, .argLen, .argAux,
      .argEraAddr, .argEraCount] →
    writeOffset (regOffset r) v s = { s with overrun := true }

/-- R38: a CMD write while not busy sets LAST_CMD and makes the word pending; nothing else of the block changes. It puts the
command in flight (R90, R91) with the memory ranges of its row of R81; a command that is going to fail on its registers, or an
illegal word (R112), has none (that such a command has none, and that a command failing later keeps its row, is the model's
choice: log 6). -/
def Obligations.CmdWriteIssuesTheWord : Prop :=
  ∀ (w : Word) (s : State), s.pending = none →
    let t := writeOffset 0x10 w s
    (t.pending = some w ∧ t.lastCmd = w ∧ readOffset 0x10 t = w ∧
      { t with pending := none, lastCmd := s.lastCmd, inFlight := s.inFlight } = s) ∧
    ∃ f : Flight, t.inFlight = f :: s.inFlight ∧ f.irqBits = none ∧
      (decode w = none → f.ranges = { reads := [], writes := [] }) ∧
      ∀ i, decode w = some i →
        (PassesRegisterTests i s → f.ranges = memoryRanges i s) ∧
        (¬PassesRegisterTests i s → f.ranges = { reads := [], writes := [] })

/-- R39, R49, R331: a host write clears exactly the IRQ_STATUS bits written 1, busy or not, and the output is asserted while an
enabled bit is 1. -/
def Obligations.IrqStatusClearsAndDrivesTheLine : Prop :=
  ∀ (v : Word) (s : State),
    let t := writeOffset 0x14 v s
    (∀ k, k < 2 → t.irqStatus.getLsbD k = (s.irqStatus.getLsbD k && !v.getLsbD k)) ∧
    { t with irqStatus := s.irqStatus } = s ∧
    (irqLine t = true ↔ ∃ k, k < 2 ∧ t.irqStatus.getLsbD k = true ∧ t.irqEnable.getLsbD k = true)

/-- R32, R88: a legal host register read hands the host the register's value and changes nothing of the block or memory; a legal
write does what the statements about `writeOffset` say (R31), or nothing while the reset input is asserted (R360; log 21); R86: an access of another width or alignment is a host bus error.
`wait` is a read of STATUS, repeated while BUSY (R117). R90 item 4: the host observes completions, so that their flights end, by
a STATUS read with BUSY = 0, all of them, and by taking the interrupt, that completion and the older ones, flights being kept
newest first (log 7); no access of these ends a flight otherwise. A host store inside memory (R80) that meets no byte a flight
reads or writes stores its bytes, and a host load that meets no byte a flight writes hands the host the bytes memory holds, each
with nothing else changed (R117, R90, R91). -/
def Obligations.RegisterReadsHaveNoSideEffect : Prop :=
  ∀ (off : BitVec 8) (width : Nat) (s : State),
    (width = 32 → off.toNat % 4 = 0 →
      (∃ t, runHostOp (.regRead off width) s = .next t ∧
        t.hostReads = .reg off (readOffset off s) :: s.hostReads ∧
        t.inFlight = (if off = 0x0C ∧ s.pending = none then [] else s.inFlight) ∧
        { t with hostReads := s.hostReads, inFlight := s.inFlight } = s) ∧
      ∀ v, runHostOp (.regWrite off width v) s = .next (if s.resetInput = true then s else writeOffset off v s)) ∧
    (width ≠ 32 ∨ off.toNat % 4 ≠ 0 → runHostOp (.regRead off width) s = .fault .hostBusError ∧
      ∀ v, runHostOp (.regWrite off width v) s = .fault .hostBusError) ∧
    (∃ t, runHostOp (.regRead 0x0C 32) s = .next t ∧
      runHostOp .wait s = .next (if s.pending = none then t else { t with host := .wait :: s.host })) ∧
    (irqLine s = false → runHostOp .takeIrq s = .next { s with host := .takeIrq :: s.host }) ∧
    (irqLine s = true → ∃ t, runHostOp .takeIrq s = .next t ∧ { t with inFlight := s.inFlight } = s ∧
      (∀ newer f older, s.inFlight = newer ++ f :: older → Signals s f → (∀ g ∈ newer, ¬Signals s g) → t.inFlight = newer) ∧
      ((∀ g ∈ s.inFlight, ¬Signals s g) → t.inFlight = s.inFlight)) ∧
    (∀ (a : Word) (bs : List Byte), InMemory a.toNat bs.length →
      (∀ f ∈ s.inFlight, ∀ r, r ∈ f.ranges.reads ∨ r ∈ f.ranges.writes → Apart a.toNat bs.length r) →
      ∃ t, runHostOp (.memStore a bs) s = .next t ∧ StoresAt s t a.toNat bs ∧ { t with mem := s.mem } = s) ∧
    ∀ (a : Word) (n : Nat), InMemory a.toNat n → (∀ f ∈ s.inFlight, ∀ r ∈ f.ranges.writes, Apart a.toNat n r) →
      ∃ t bs, runHostOp (.memLoad a n) s = .next t ∧ t.hostReads = .mem a bs :: s.hostReads ∧ bs.length = n ∧
        (∀ i, i < n → bs.getD i 0 = Memory.readByte s.mem (a.toNat + i)) ∧ { t with hostReads := s.hostReads } = s

/-- R32: while a command is pending, no host operation but a reset changes the results, the error code, the sequencer, ACT, the
operands or the pending word: a read returns the values of the previous completion and the operands are frozen (R366). -/
def Obligations.BusyHostStepKeepsResultsAndOperands : Prop :=
  ∀ (op : HostOp) (s t : State) (w : Word), s.pending = some w → runHostOp op s = .next t →
    (t.pending = some w ∧ t.res0 = s.res0 ∧ t.res1 = s.res1 ∧ t.res2 = s.res2 ∧ t.errCode = s.errCode ∧ t.seq = s.seq ∧
      t.hb = s.hb ∧ t.act = s.act ∧ t.staging = s.staging ∧ t.args = s.args ∧ t.vote = s.vote ∧ t.lastCmd = s.lastCmd) ∨
    (op ∈ [.assertReset, .releaseReset, .hwReset] ∨ ∃ off width v, op = .regWrite off width v ∧ off = 0x08 ∧ v.getLsbD 0 = true)

/-! Memory races and faults (20_memory.md R91, 60_exceptions.md R333). -/

/-- R91: from the issue of a command on, a host store that meets a byte it reads or writes, or a host load that meets a byte it
writes, is a fault, until the host observes the completion. The ranges and the observation are the model's (logs 6, 7). -/
def Obligations.HostAccessToFlightFaults : Prop :=
  ∀ (s : State) (f : Flight) (r : MemRange) (a : Word) (x : Nat), f ∈ s.inFlight → r.base ≤ x → x < r.base + r.len →
    a.toNat ≤ x →
    (∀ bs : List Byte, r ∈ f.ranges.reads ∨ r ∈ f.ranges.writes → x < a.toNat + bs.length →
      a.toNat + bs.length ≤ 2 ^ 32 → runHostOp (.memStore a bs) s = .fault .hostDataRace) ∧
    (∀ n, r ∈ f.ranges.writes → x < a.toNat + n → a.toNat + n ≤ 2 ^ 32 →
      runHostOp (.memLoad a n) s = .fault .hostDataRace)

/-- R333: the block itself never stops: no step is refused, and a step faults only when the HOST moves, by an operation that is
a register access of the wrong width or alignment (R86), or leaves system memory (R80, log 10), or meets a byte of a command in
flight: a store of one it reads or writes, a load of one it writes (R91). Each has its own fault. -/
def Obligations.OnlyHostOperationsFault : Prop :=
  ∀ s : State, (∀ r, step s ≠ .refused r) ∧
    ∀ f, step s = .fault f → s.sched.head? ≠ some .engine ∧ (s.sched = [] → s.pending = none) ∧
      ∃ op, s.host.head? = some op ∧
        ((∃ (off : BitVec 8) (width : Nat), (op = .regRead off width ∨ ∃ v, op = .regWrite off width v) ∧
            (width ≠ 32 ∨ off.toNat % 4 ≠ 0) ∧ f = .hostBusError) ∨
          (∃ (a : Word) (n : Nat), (op = .memLoad a n ∨ ∃ bs : List Byte, op = .memStore a bs ∧ bs.length = n) ∧
            ¬InMemory a.toNat n ∧ f = .noSuchAddress) ∨
          (∃ (a : Word) (bs : List Byte) (fl : Flight) (r : MemRange) (x : Nat), op = .memStore a bs ∧ f = .hostDataRace ∧
            fl ∈ s.inFlight ∧ (r ∈ fl.ranges.reads ∨ r ∈ fl.ranges.writes) ∧
            r.base ≤ x ∧ x < r.base + r.len ∧ a.toNat ≤ x ∧ x < a.toNat + bs.length) ∨
          (∃ (a : Word) (n : Nat) (fl : Flight) (r : MemRange) (x : Nat), op = .memLoad a n ∧ f = .hostDataRace ∧
            fl ∈ s.inFlight ∧ r ∈ fl.ranges.writes ∧
            r.base ≤ x ∧ x < r.base + r.len ∧ a.toNat ≤ x ∧ x < a.toNat + n))

/-! Reset (10_state.md R64, 70_reset_and_hazards.md). -/

/-- R64, R36, R360: CTRL.SRST and the reset input, at its assertion and at its deassertion, put every register and hidden item of
the block at the reset table's value; with no command pending, system memory is unchanged. The input stays asserted until it is
released; released already, it does nothing (log 21). That the registers keep those values while it is asserted is in the
invariant (`State.Inv.held`). CTRL.CLR_OVERRUN without SRST clears OVERRUN and nothing else; a CTRL write with neither bit does
nothing (R36). -/
def Obligations.ResetRestoresTheTable : Prop :=
  ∀ s : State,
    (∀ t, IsReset s t →
      (t.pending = none ∧ t.lastCmd = 0 ∧ t.errCode = .none ∧ t.overrun = false ∧ t.irqStatus = 0 ∧ t.irqEnable = 0 ∧
        t.staging = { blockSize := 8, levels := 2, eccParity := 64, fps := 30, crf := 18 } ∧ t.vote = .mean ∧ t.act = none ∧
        t.args = { src := 0, dst := 0, len := 0, aux := 0, eraAddr := 0, eraCount := 0 } ∧
        t.res0 = 0 ∧ t.res1 = 0 ∧ t.res2 = 0 ∧
        t.seq = { phase := .idle, frameIdx := 0, totalFrames := 0, bytesRem := 0, correctedTotal := 0, cwDone := 0 } ∧
        t.hb = List.replicate 112 0x00 ∧ irqLine t = false) ∧
      (s.pending = none → t.mem = s.mem)) ∧
    (∃ t, runHostOp .assertReset s = .next t ∧ t.resetInput = true) ∧
    (∃ t, runHostOp .releaseReset s = .next t ∧ t.resetInput = false) ∧
    (s.resetInput = false → runHostOp .releaseReset s = .next s) ∧
    (∃ t, runHostOp .hwReset s = .next t ∧ t.resetInput = false) ∧
    ∀ v : Word,
      (writeOffset 0x08 v s).resetInput = s.resetInput ∧
      (v.getLsbD 0 = false → v.getLsbD 1 = true → writeOffset 0x08 v s = { s with overrun := false }) ∧
      (v.getLsbD 0 = false → v.getLsbD 1 = false → writeOffset 0x08 v s = s)

/-- R362: after a soft reset of a busy block, every byte holds its old value or the one the discarded command would have written,
and a byte outside the command's destination ranges (R81) is unchanged; an illegal word has none (R112), so no byte changes. Which
of the two it is, is a free value (log 4); that a hardware reset of a busy block does the same is the model's reading (log 8). -/
def Obligations.BusyResetLeavesOldOrNewBytes : Prop :=
  ∀ (s t : State) (w : Word), Memory.wf s.mem → s.pending = some w → IsReset s t →
    (decode w = none → ∀ a, Memory.readByte t.mem a = Memory.readByte s.mem a) ∧
    ∀ (i : Instr) (u : State), decode w = some i → exec i s = .next u →
      ∀ a, (Memory.readByte t.mem a = Memory.readByte s.mem a ∨ Memory.readByte t.mem a = Memory.readByte u.mem a) ∧
        ((∀ r ∈ (memoryRanges i s).writes, a < r.base ∨ r.base + r.len ≤ a) →
          Memory.readByte t.mem a = Memory.readByte s.mem a)

/-! The invariant. -/

/-- The state after reset meets the invariant. The registers have R64's values; that memory lists nothing (log 3), that no command
is in flight (log 16) and that the reset input is released (log 21) are the model's choices. -/
def Obligations.ResetMeetsInvariant : Prop := State.reset.Inv

/-- Every step keeps the invariant: memory canonical, `HB` 112 bytes, ACT validated (R41), the sequencer's counts in agreement with
its phase (R56, R285, R322), the flight of the pending command at its frozen operands (R366, R91; logs 6, 9), and every register
at its reset value while the reset input is asserted (R360; log 21). -/
def Obligations.StepKeepsInvariant : Prop := ∀ s t : State, s.Inv → step s = .next t → t.Inv
end

