-- ==== Sys2Proof/Laws/Rs.lean ====
section
/-! SUPPORT. Small laws of the Reed-Solomon codec: lengths, zero in the field, and that a codeword decodes to itself
(41_rs_codec.md R173, fourth corner case). -/

namespace Sys2Proof.Machine

theorem gfMul_zero_left : ∀ x : Byte, gfMul 0 x = 0 := by decide +kernel

theorem gfMul_zero_right : ∀ x : Byte, gfMul x 0 = 0 := by decide +kernel

theorem gfMul_one_left : ∀ x : Byte, gfMul 1 x = x := by decide +kernel

@[simp] theorem length_addScaled (t : Byte) (gs w : List Byte) : (addScaled t gs w).length = w.length := by
  induction gs generalizing w with
  | nil => cases w <;> rfl
  | cons g gs ih =>
    cases w with
    | nil => rfl
    | cons x w => simp [addScaled, ih]

theorem length_rsDivide (gs : List Byte) (m : Nat) (w : List Byte) : (rsDivide gs m w).length = w.length - m := by
  induction m generalizing w with
  | zero => simp [rsDivide]
  | succ m ih =>
    cases w with
    | nil => simp [rsDivide]
    | cons t w =>
      rw [rsDivide, ih]
      split <;> simp

@[simp] theorem length_rsParity (d : List Byte) (p : Nat) : (rsParity d p).length = p := by
  simp [rsParity, length_rsDivide]

@[simp] theorem length_rsEnc (d : List Byte) (p : Nat) : (rsEnc d p).length = d.length + p := by
  simp [rsEnc]

@[simp] theorem length_fillPositions (r synd : List Byte) (pos : List Nat) : (fillPositions r synd pos).length = r.length := by
  simp [fillPositions]

theorem candidate_length {r c : List Byte} {p : Nat} {era : List Nat} (h : candidate r p era = some c) :
    c.length = r.length := by
  unfold candidate at h
  simp only [Option.map_eq_some_iff] at h
  obtain ⟨lam, -, rfl⟩ := h
  simp

/-- Everything `rsDec` can answer: FAIL, or a codeword within the radius. -/
theorem rsDec_cases {r : List Byte} {p : Nat} {era : List Nat} {ok : RsResult} (h : rsDec r p era = some ok) :
    ∃ c, candidate r p era = some c ∧ isCodeword p c = true ∧ withinRadius p era r c = true ∧ ok = rsOk p era r c := by
  unfold rsDec at h
  split at h
  · cases h
  · rename_i c hc
    split at h
    · rename_i hw
      rw [Bool.and_eq_true] at hw
      exact ⟨c, hc, hw.1, hw.2, by cases h; rfl⟩
    · cases h

theorem rsDec_data_length {r : List Byte} {p : Nat} {era : List Nat} {ok : RsResult} (h : rsDec r p era = some ok) :
    ok.data.length = r.length - p := by
  obtain ⟨c, hc, -, -, rfl⟩ := rsDec_cases h
  simp [rsOk, candidate_length hc]

/-! A codeword decodes to itself. -/

theorem syndromes_of_codeword {p : Nat} {r : List Byte} (h : isCodeword p r = true) : syndromes r p = List.replicate p 0 := by
  rw [List.eq_replicate_iff]
  refine ⟨by simp [syndromes], fun b hb => ?_⟩
  have := List.all_eq_true.1 h b hb
  simpa using this

theorem getD_replicate_zero (n i : Nat) : (List.replicate n (0 : Byte)).getD i 0 = 0 := by
  rcases Nat.lt_or_ge i n with h | h
  · rw [List.getD_eq_getElem _ _ (by simpa using h)]; simp
  · rw [List.getD_eq_default _ _ (by simpa using h)]

theorem polyEval_replicate_zero (n : Nat) (x : Byte) : polyEval (List.replicate n 0) x = 0 := by
  unfold polyEval
  induction n with
  | zero => rfl
  | succ n ih =>
    rw [List.replicate_succ, List.foldl_cons]
    have : gfMul 0 x ^^^ (0 : Byte) = 0 := by rw [gfMul_zero_left]; rfl
    rw [this, ih]

/-- With zero syndromes and no erasures the error locator is the constant 1. -/
theorem errorLocator_zero (p : Nat) :
    errorLocator p (List.replicate p 0) [] = some (0x01 :: List.replicate (p / 2) 0) := by
  have hm : ∀ i, ((List.range p).map (convAt (locatorPoly []) (List.replicate p 0))).getD i 0 = 0 := by
    intro i
    have hz : (List.range p).map (convAt (locatorPoly []) (List.replicate p 0)) = List.replicate p 0 := by
      rw [List.eq_replicate_iff]
      refine ⟨by simp, fun b hb => ?_⟩
      simp only [List.mem_map, List.mem_range] at hb
      obtain ⟨j, -, rfl⟩ := hb
      rw [convAt, List.range_succ_eq_map, List.map_cons, locatorPoly, gfDot, getD_replicate_zero, gfMul_zero_right]
      simp [gfDot]
    rw [hz, getD_replicate_zero]
  unfold errorLocator
  simp only [List.length_nil, Nat.sub_zero, Nat.zero_add, hm]
  unfold kernelVector
  rw [List.find?_eq_none.2]
  intro r hr
  simp only [List.mem_map, List.mem_range] at hr
  obtain ⟨d, -, rfl⟩ := hr
  rw [List.range_succ_eq_map]
  simp

theorem evalLow_one (n : Nat) (x : Byte) : evalLow (0x01 :: List.replicate n 0) x = 0x01 := by
  have h0 : List.foldl (fun y ri => gfMul y x ^^^ ri) 0 (List.replicate n 0) = 0 := polyEval_replicate_zero n x
  rw [evalLow, polyEval, List.reverse_cons, List.reverse_replicate, List.foldl_append, h0]
  simp only [List.foldl_cons, List.foldl_nil, gfMul_zero_left]
  rfl

theorem fillPositions_nil (r synd : List Byte) : fillPositions r synd [] = r := by
  apply List.ext_getElem
  · simp
  · intro i h1 h2
    simp [fillPositions]

theorem zip_self_eq {r : List Byte} {x : Byte × Byte} (h : x ∈ List.zip r r) : x.1 = x.2 := by
  induction r with
  | nil => simp at h
  | cons b r ih =>
    rcases List.mem_cons.1 h with rfl | h
    · rfl
    · exact ih h

theorem changedCount_self (r : List Byte) : changedCount r r = 0 := by
  rw [changedCount, List.countP_eq_zero]
  intro x hx
  simp [zip_self_eq hx]

theorem errorCount_self (r : List Byte) (era : List Nat) : errorCount r r era = 0 := by
  rw [errorCount, List.countP_eq_zero]
  intro x hx
  have : x.1 ∈ List.zip r r := by
    have h := List.mem_map_of_mem (f := Prod.fst) hx
    rwa [List.zipIdx_map_fst] at h
  simp [zip_self_eq this]

theorem candidate_codeword {p : Nat} {r : List Byte} (h : isCodeword p r = true) : candidate r p [] = some r := by
  unfold candidate
  simp only [syndromes_of_codeword h, List.map_nil, errorLocator_zero, Option.map_some, evalLow_one, List.nil_append]
  rw [List.filter_eq_nil_iff.2, fillPositions_nil]
  intro i _
  simp

/-- `r ∈ RS(n, p)` and `E = {}`: `OK(r[0..m), 0, 0)` (R173). -/
theorem rsDec_codeword {p : Nat} {r : List Byte} (h : isCodeword p r = true) :
    rsDec r p [] = some { data := r.take (r.length - p), corrected := 0, errors := 0 } := by
  unfold rsDec
  simp [candidate_codeword h, h, withinRadius, rsOk, changedCount_self, errorCount_self]

end Sys2Proof.Machine
end

