-- ==== Sys2Proof/Laws/FastGf.lean ====
section
/-! SUPPORT. The syndromes of 41_rs_codec.md R165 on natural numbers, in a form the kernel evaluates quickly, proved equal to the
model's; so that a test can show that a word of 255 bytes is a codeword. -/

namespace Sys2Proof.Machine

/-- `f n`; the kernel evaluates `n` to a numeral first. -/
def atNumeral {α : Type} (n : Nat) (f : Nat → α) : α := Nat.rec (motive := fun _ => α) (f 0) (fun m _ => f (m + 1)) n

@[simp] theorem atNumeral_eq {α : Type} (n : Nat) (f : Nat → α) : atNumeral n f = f n := by cases n <;> rfl

/-- `gfMulLoop` on numbers, for the polynomial of R5. -/
def natMulLoop (x : Nat) : Nat → Nat → Nat → Nat
  | 0, r, _ => r
  | k + 1, r, t =>
    atNumeral (if x.testBit (7 - k) then r ^^^ t else r) fun r' => atNumeral (t <<< 1) fun u =>
      atNumeral (if u.testBit 8 then u ^^^ 0x11D else u) fun t' => natMulLoop x k r' t'

/-- `gfMul` on numbers. -/
def natMul (y x : Nat) : Nat := natMulLoop x 8 0 y

/-- `polyEval` on numbers, continued from `y`. -/
def natEval (x : Nat) : List Nat → Nat → Nat
  | [], y => y
  | r :: rs, y => atNumeral (natMul y x ^^^ r) fun y' => natEval x rs y'

/-- `p` syndromes on numbers, the first at `x`, each next at the power of `α` after it. -/
def natSyndromes (r : List Nat) : (p x : Nat) → List Nat
  | 0, _ => []
  | p + 1, x => natEval x r 0 :: atNumeral (natMul x 2) fun x' => natSyndromes r p x'

theorem natReduce_lt : ∀ u, u < 512 → (if u.testBit 8 then u ^^^ 0x11D else u) < 256 := by decide +kernel

theorem toNat_gfMulLoop (b : Byte) (k : Nat) (r : Byte) (t : BitVec 9) (ht : t.toNat < 256) :
    (gfMulLoop Config.gfPoly b k r t).toNat = natMulLoop b.toNat k r.toNat t.toNat := by
  induction k generalizing r t with
  | zero => rfl
  | succ k ih =>
    have hu : (t <<< 1).toNat = t.toNat <<< 1 := by
      rw [BitVec.toNat_shiftLeft, Nat.mod_eq_of_lt]
      rw [Nat.shiftLeft_eq]
      omega
    have hr : (if b.getLsbD (7 - k) then r ^^^ t.extractLsb' 0 8 else r).toNat =
        if b.toNat.testBit (7 - k) then r.toNat ^^^ t.toNat else r.toNat := by
      rw [BitVec.testBit_toNat]
      split
      · rw [BitVec.toNat_xor, BitVec.extractLsb'_toNat, Nat.shiftRight_zero, Nat.mod_eq_of_lt ht]
      · rfl
    have ht' : (if (t <<< 1).getLsbD 8 then t <<< 1 ^^^ Config.gfPoly else t <<< 1).toNat =
        if (t.toNat <<< 1).testBit 8 then t.toNat <<< 1 ^^^ 0x11D else t.toNat <<< 1 := by
      rw [← hu, BitVec.testBit_toNat]
      split
      · rw [BitVec.toNat_xor]; rfl
      · rfl
    simp only [gfMulLoop, natMulLoop, atNumeral_eq]
    rw [ih _ _ (by rw [ht']; exact natReduce_lt _ (by rw [Nat.shiftLeft_eq]; omega)), hr, ht']

theorem toNat_gfMul (a b : Byte) : (gfMul a b).toNat = natMul a.toNat b.toNat := by
  have h : (a.zeroExtend 9).toNat = a.toNat := by
    simp [BitVec.zeroExtend]
    omega
  rw [gfMul, gfMulMod, toNat_gfMulLoop _ _ _ _ (by omega), h]
  rfl

theorem toNat_foldl_eval (x y : Byte) (r : List Byte) :
    (r.foldl (fun y ri => gfMul y x ^^^ ri) y).toNat = natEval x.toNat (r.map BitVec.toNat) y.toNat := by
  induction r generalizing y with
  | nil => rfl
  | cons b r ih => rw [List.foldl_cons, ih, List.map_cons, natEval, atNumeral_eq, BitVec.toNat_xor, toNat_gfMul]

theorem natSyndromes_eq (r : List Byte) (p i : Nat) (h : i + p ≤ 255) :
    natSyndromes (r.map BitVec.toNat) p (gfAlphaPow i).toNat =
      (List.range' i p).map fun j => (polyEval r (gfAlphaPow j)).toNat := by
  induction p generalizing i with
  | zero => rfl
  | succ p ih =>
    rw [natSyndromes, atNumeral_eq, List.range'_succ, List.map_cons, polyEval, toNat_foldl_eval]
    congr 1
    rcases Nat.lt_or_ge (i + 1) 255 with hi | hi
    · rw [← ih (i + 1) (by omega)]
      congr 1
      rw [gfAlphaPow, gfAlphaPow, Nat.mod_eq_of_lt hi, Nat.mod_eq_of_lt (by omega), gfPowNat, toNat_gfMul]
      rfl
    · rw [show p = 0 by omega]
      rfl

/-- The model's syndromes from the numbers. -/
theorem syndromes_of_nat {r l : List Byte} {p : Nat} (hp : p ≤ 255)
    (h : natSyndromes (r.map BitVec.toNat) p 1 = l.map BitVec.toNat) : syndromes r p = l := by
  have hs := natSyndromes_eq r p 0 (by omega)
  rw [show (gfAlphaPow 0).toNat = 1 from rfl, h] at hs
  apply List.map_injective_iff.2 (fun _ _ => BitVec.eq_of_toNat_eq)
  rw [hs, ← List.range_eq_range', syndromes, List.map_map]
  exact List.map_congr_left fun j _ => by rw [Function.comp_apply, syndrome, Config.rsFcr, Config.params, Nat.zero_add]

/-- A word is a codeword if its syndromes, computed on numbers, are zero. -/
theorem isCodeword_of_nat {r : List Byte} {p : Nat} (hp : p ≤ 255)
    (h : natSyndromes (r.map BitVec.toNat) p 1 = List.replicate p 0) : isCodeword p r = true := by
  rw [isCodeword, syndromes_of_nat (l := List.replicate p 0) hp (by rw [h, List.map_replicate]; rfl), List.all_eq_true]
  intro b hb
  rw [List.eq_of_mem_replicate hb]
  rfl

end Sys2Proof.Machine
end

