-- ==== Sys2Proof/Laws/Memory.lean ====
section
/-! SUPPORT. The laws of system memory: what a write leaves at every address, and that every operation keeps the canonical form
(20_memory.md R82 to R84). -/

namespace Sys2Proof.Machine

@[simp] theorem Memory.lookup_nil (x : Nat) : Memory.lookup [] x = none := rfl

theorem Memory.lookup_append (m m' : Memory) (x : Nat) :
    Memory.lookup (m ++ m') x = (Memory.lookup m x).or (Memory.lookup m' x) := by
  simp only [Memory.lookup, List.find?_append]
  cases List.find? (fun c => c.1 == x) m <;> simp

theorem Memory.lookup_cons (c : Host.Cell) (m : Memory) (x : Nat) :
    Memory.lookup (c :: m) x = if c.1 = x then some c.2 else Memory.lookup m x := by
  by_cases h : c.1 = x <;> simp [Memory.lookup, h]

theorem Memory.lookup_filter (m : Memory) (q : Nat → Bool) (x : Nat) :
    Memory.lookup (m.filter fun c => q c.1) x = if q x then Memory.lookup m x else none := by
  induction m with
  | nil => simp
  | cons c m ih =>
    by_cases hq : q c.1 <;> by_cases hx : c.1 = x <;> simp_all [Memory.lookup_cons]

theorem lookup_cellsAt (a : Nat) (bs : List Byte) (x : Nat) :
    Memory.lookup (cellsAt a bs) x = if a ≤ x then bs[x - a]? else none := by
  induction bs generalizing a with
  | nil => simp [cellsAt]
  | cons b bs ih =>
    rw [cellsAt, Memory.lookup_cons, ih]
    rcases Nat.lt_trichotomy a x with h | h | h
    · have : x - a = (x - (a + 1)) + 1 := by omega
      simp [Nat.ne_of_lt h, Nat.le_of_lt h, Nat.succ_le_of_lt h, this]
    · simp [h]
    · have h1 : ¬ a ≤ x := by omega
      have h2 : ¬ a + 1 ≤ x := by omega
      have h3 : a ≠ x := by omega
      simp [h1, h2, h3]

@[simp] theorem length_cellsAt (a : Nat) (bs : List Byte) : (cellsAt a bs).length = bs.length := by
  induction bs generalizing a with
  | nil => rfl
  | cons b bs ih => simp [cellsAt, ih]

/-- What memory holds after a write: the written bytes in the range, the old cells elsewhere. -/
theorem Memory.lookup_write (m : Memory) (a : Nat) (bs : List Byte) (x : Nat) :
    Memory.lookup (Memory.write m a bs) x =
      if a ≤ x ∧ x < a + bs.length then bs[x - a]? else Memory.lookup m x := by
  rw [Memory.write, Memory.lookup_append, Memory.lookup_append, lookup_cellsAt,
    Memory.lookup_filter m (fun y => decide (y < a)), Memory.lookup_filter m (fun y => decide (a + bs.length ≤ y))]
  by_cases h1 : a ≤ x
  · by_cases h2 : x < a + bs.length
    · have h3 : x - a < bs.length := by omega
      have h4 : ¬ x < a := by omega
      simp [h1, h2, h4, List.getElem?_eq_getElem h3]
    · have h3 : bs.length ≤ x - a := by omega
      have h4 : ¬ x < a := by omega
      simp [h1, h2, h4, List.getElem?_eq_none h3, Nat.le_of_not_lt h2]
  · have h4 : x < a := by omega
    have h5 : ¬ (a + bs.length ≤ x) := by omega
    simp [h1, h4, h5]

/-- A read after a write: inside the range the written byte. -/
theorem Memory.readByte_write_inside (m : Memory) (a : Nat) (bs : List Byte) (i : Nat) (h : i < bs.length) :
    Memory.readByte (Memory.write m a bs) (a + i) = bs[i] := by
  simp [Memory.readByte, Memory.lookup_write, h]

/-- A read after a write: outside the range what was there before. -/
theorem Memory.readByte_write_outside (m : Memory) (a : Nat) (bs : List Byte) (x : Nat)
    (h : x < a ∨ a + bs.length ≤ x) : Memory.readByte (Memory.write m a bs) x = Memory.readByte m x := by
  have : ¬ (a ≤ x ∧ x < a + bs.length) := by omega
  simp [Memory.readByte, Memory.lookup_write, this]

@[simp] theorem Memory.length_read (m : Memory) (a n : Nat) : (Memory.read m a n).length = n := by
  simp [Memory.read]

theorem Memory.getElem_read (m : Memory) (a n i : Nat) (h : i < (Memory.read m a n).length) :
    (Memory.read m a n)[i] = Memory.readByte m (a + i) := by
  simp [Memory.read]

/-- Reading back exactly what was written. -/
theorem Memory.read_write_same (m : Memory) (a : Nat) (bs : List Byte) :
    Memory.read (Memory.write m a bs) a bs.length = bs := by
  apply List.ext_getElem
  · simp
  · intro i h1 h2
    rw [Memory.getElem_read, Memory.readByte_write_inside _ _ _ _ h2]

/-! The canonical form. -/

theorem Memory.wf_nil : Memory.wf [] := by simp [Memory.wf]

theorem mem_cellsAt_bounds {a : Nat} {bs : List Byte} {c : Host.Cell} (h : c ∈ cellsAt a bs) :
    a ≤ c.1 ∧ c.1 < a + bs.length := by
  induction bs generalizing a with
  | nil => simp [cellsAt] at h
  | cons b bs ih =>
    simp only [cellsAt, List.mem_cons] at h
    rcases h with rfl | h
    · simp
    · have := ih h
      simp only [List.length_cons]
      omega

theorem pairwise_cellsAt (a : Nat) (bs : List Byte) : (cellsAt a bs).Pairwise fun x y => x.1 < y.1 := by
  induction bs generalizing a with
  | nil => simp [cellsAt]
  | cons b bs ih =>
    refine List.pairwise_cons.2 ⟨fun c hc => ?_, ih (a + 1)⟩
    have := (mem_cellsAt_bounds hc).1
    simp only at *
    omega

/-- A write inside system memory keeps the canonical form. -/
theorem Memory.wf_write {m : Memory} (hm : Memory.wf m) {a : Nat} {bs : List Byte}
    (hr : checkRange a bs.length = true) : Memory.wf (Memory.write m a bs) := by
  obtain ⟨hs, hb⟩ := hm
  refine ⟨?_, ?_⟩
  · unfold Memory.write
    refine List.pairwise_append.2 ⟨List.pairwise_append.2 ⟨hs.filter _, pairwise_cellsAt a bs, ?_⟩, hs.filter _, ?_⟩
    · intro c hc d hd
      have h1 := (mem_cellsAt_bounds hd).1
      simp only [List.mem_filter, decide_eq_true_eq] at hc
      omega
    · intro c hc d hd
      simp only [List.mem_filter, decide_eq_true_eq] at hd
      rcases List.mem_append.1 hc with hc | hc
      · simp only [List.mem_filter, decide_eq_true_eq] at hc
        omega
      · have := (mem_cellsAt_bounds hc).2
        omega
  · intro c hc
    simp only [Memory.write, List.mem_append, List.mem_filter] at hc
    rcases hc with (⟨hc, -⟩ | hc) | ⟨hc, -⟩
    · exact hb c hc
    · have h1 := mem_cellsAt_bounds hc
      simp only [checkRange, Bool.or_eq_true, beq_iff_eq, decide_eq_true_eq] at hr
      omega
    · exact hb c hc

/-- The addresses of a blend are addresses of the new memory, in the same order. -/
theorem blend_cell {lands : Nat → Bool} {old : Memory} {c d : Host.Cell}
    (h : (if lands c.1 then some c else (Memory.lookup old c.1).map (c.1, ·)) = some d) : d.1 = c.1 := by
  split at h
  · cases h; rfl
  · cases hl : Memory.lookup old c.1 <;> simp [hl] at h
    rw [← h]

/-- The memory a reset leaves keeps the canonical form (R362). -/
theorem Memory.wf_blend {lands : Nat → Bool} {old new : Memory} (hn : Memory.wf new) :
    Memory.wf (Memory.blend lands old new) := by
  obtain ⟨hs, hb⟩ := hn
  refine ⟨?_, ?_⟩
  · unfold Memory.blend
    rw [List.pairwise_filterMap]
    refine hs.imp fun {c d} hcd c' hc' d' hd' => ?_
    rw [blend_cell hc', blend_cell hd']
    exact hcd
  · intro c hc
    simp only [Memory.blend, List.mem_filterMap] at hc
    obtain ⟨d, hd, he⟩ := hc
    rw [blend_cell he]
    exact hb d hd

theorem reset_mem_wf : Memory.wf State.reset.mem := Memory.wf_nil

/-! Host accesses keep the canonical form. -/

theorem hostStore_wf {a : Nat} {bs : List Byte} {s t : State} (hm : Memory.wf s.mem)
    (h : hostStore a bs s = .next t) : Memory.wf t.mem := by
  unfold hostStore at h
  cases hc : checkRange a bs.length with
  | false => simp [hc] at h
  | true =>
    cases hr : storeRaces s a bs.length with
    | true => simp [hc, hr] at h
    | false =>
      simp only [hc, hr, Bool.not_true, Bool.false_eq_true, if_false, Host.Outcome.next.injEq] at h
      subst h
      exact Memory.wf_write hm hc

end Sys2Proof.Machine
end

