-- ==== Sys2Proof/Laws/Frame.lean ====
section
/-! SUPPORT. The laws of the frame codec: the bits of a level index, the pixels of a block (43_frame_codec.md R231), the vote over
equal samples (R205, R206), and that unpacking a packed frame gives the buffer back. -/

namespace Sys2Proof.Machine

/-! Bits. -/

theorem bitsValue_congr {f h : Nat → Bool} {n : Nat} (hf : ∀ i, i < n → f i = h i) : bitsValue f n = bitsValue h n := by
  induction n with
  | zero => rfl
  | succ n ih => rw [bitsValue, bitsValue, ih fun i hi => hf i (by omega), hf n (by omega)]

theorem bitsValue_lt (f : Nat → Bool) (n : Nat) : bitsValue f n < 2 ^ n := by
  induction n with
  | zero => simp [bitsValue]
  | succ n ih =>
    have := Bool.toNat_lt (f n)
    rw [bitsValue, Nat.pow_succ]
    omega

/-- The first bit is the most significant one. -/
theorem testBit_bitsValue (f : Nat → Bool) (n j : Nat) (h : j < n) : (bitsValue f n).testBit (n - 1 - j) = f j := by
  induction n with
  | zero => omega
  | succ n ih =>
    rw [bitsValue]
    rcases Nat.lt_or_ge j n with hj | hj
    · have e : n + 1 - 1 - j = (n - 1 - j) + 1 := by omega
      rw [e, Nat.testBit_succ]
      have hd : (2 * bitsValue f n + (f n).toNat) / 2 = bitsValue f n := by
        have := Bool.toNat_lt (f n)
        omega
      rw [hd, ih hj]
    · have e : j = n := by omega
      subst e
      have e2 : j + 1 - 1 - j = 0 := by omega
      rw [e2, Nat.testBit_zero]
      cases f j <;> simp

/-- Eight bits, most significant first, make the byte they came from. -/
theorem ofNat_bitsValue_byte (x : Byte) : BitVec.ofNat 8 (bitsValue (fun i => x.getLsbD (7 - i)) 8) = x := by
  apply BitVec.eq_of_getLsbD_eq
  intro k hk
  rw [BitVec.getLsbD_ofNat]
  have h := testBit_bitsValue (fun i => x.getLsbD (7 - i)) 8 (7 - k) (by omega)
  have e1 : 8 - 1 - (7 - k) = k := by omega
  rw [e1] at h
  rw [h]
  simp [hk]

/-! The quantizer on level values. -/

/-- What a legal geometry satisfies (R6, R142, R231): the blocks tile the canvas, `L` is `2^BPC`. -/
structure GeometryTiles (g : Geometry) : Prop where
  s_pos : 0 < g.s
  cw    : g.bx * g.s = g.cw
  ch    : g.bRows * g.s = g.ch
  nb    : g.nb = g.bx * g.bRows
  bpb   : g.bpb = 3 * g.bpc
  l     : g.l = 2 ^ g.bpc
  bpc1  : 1 ≤ g.bpc
  bpc8  : g.bpc ≤ 8
  pay   : g.pay = g.nb * g.bpb / 8

theorem level_bounds : ∀ k, k < 9 → ∀ i, i < 2 ^ k → 1 ≤ k →
    quantLevel (2 ^ k) i < 256 ∧ dequantLevel (2 ^ k) (quantLevel (2 ^ k) i) = i := by
  decide +kernel

/-! A block of equal samples. -/

theorem meanIndex_replicate (l n : Nat) (v : Byte) (hn : 0 < n) :
    meanIndex l (List.replicate n v) = dequantLevel l v.toNat := by
  have hs : sampleSum (List.replicate n v) = n * v.toNat := by simp [sampleSum]
  rw [meanIndex, dequantLevel, hs, List.length_replicate]
  have e1 : 2 * (n * v.toNat) * (l - 1) + 255 * n = (2 * v.toNat * (l - 1) + 255) * n := by ring
  rw [e1, Nat.mul_div_mul_right _ _ hn]

theorem voteCount_replicate (l n : Nat) (v : Byte) (k : Nat) :
    voteCount l (List.replicate n v) k = if dequantLevel l v.toNat = k then n else 0 := by
  simp [voteCount, List.countP_replicate]

theorem majorityIndex_replicate (l n : Nat) (v : Byte) (hn : 0 < n) (hl : dequantLevel l v.toNat < l) :
    majorityIndex l (List.replicate n v) = dequantLevel l v.toNat := by
  have key : ∀ m, (List.range m).foldl (fun best k =>
      if voteCount l (List.replicate n v) best < voteCount l (List.replicate n v) k then k else best) 0 =
      if dequantLevel l v.toNat < m then dequantLevel l v.toNat else 0 := by
    intro m
    induction m with
    | zero => simp
    | succ m ih =>
      rw [List.range_succ, List.foldl_append, ih]
      simp only [List.foldl_cons, List.foldl_nil, voteCount_replicate]
      generalize dequantLevel l v.toNat = d
      split_ifs <;> omega
  rw [majorityIndex, key, if_pos hl]

theorem blockIndex_replicate (l n : Nat) (vote : VoteMode) (v : Byte) (hn : 0 < n) (hl : dequantLevel l v.toNat < l) :
    blockIndex l vote (List.replicate n v) = dequantLevel l v.toNat := by
  cases vote with
  | mean => exact meanIndex_replicate l n v hn
  | majority => exact majorityIndex_replicate l n v hn hl

/-! The pixels of a block. -/

section
variable {g : Geometry} (hg : GeometryTiles g)
include hg

/-- Pixel `k` of block `b` lies on the canvas. -/
theorem block_pixel_bounds {b k : Nat} (hb : b < g.nb) (hk : k < g.s * g.s) :
    (b % g.bx) * g.s + k % g.s < g.cw ∧ (b / g.bx) * g.s + k / g.s < g.ch := by
  have hbx : 0 < g.bx := by
    rcases Nat.eq_zero_or_pos g.bx with h | h
    · rw [hg.nb, h, Nat.zero_mul] at hb; omega
    · exact h
  have h1 : b % g.bx + 1 ≤ g.bx := Nat.mod_lt _ hbx
  have h2 : b / g.bx + 1 ≤ g.bRows := Nat.div_lt_of_lt_mul (by rw [← hg.nb]; exact hb)
  have h3 : k % g.s < g.s := Nat.mod_lt _ hg.s_pos
  have h4 : k / g.s < g.s := Nat.div_lt_of_lt_mul hk
  have h5 := Nat.mul_le_mul_right g.s h1
  have h6 := Nat.mul_le_mul_right g.s h2
  rw [hg.cw, Nat.add_mul] at h5
  rw [hg.ch, Nat.add_mul] at h6
  omega

omit hg in
/-- The offset of channel `c` of a canvas pixel lies in the frame. -/
theorem pixelOffset_lt {x y c : Nat} (hx : x < g.cw) (hy : y < g.ch) (hc : c < 3) : pixelOffset g x y c < frameLen g := by
  have h := Nat.mul_le_mul_right g.cw hy
  rw [Nat.succ_mul] at h
  unfold pixelOffset frameLen
  have hcomm : g.cw * g.ch = g.ch * g.cw := Nat.mul_comm _ _
  omega

/-- The byte of a packed frame at a pixel of block `b` is the level value of `b`'s index (R239). -/
theorem packByte_block (buf : List Byte) {b c k : Nat} (hb : b < g.nb) (hc : c < 3) (hk : k < g.s * g.s) :
    packByte g buf (pixelOffset g ((b % g.bx) * g.s + k % g.s) ((b / g.bx) * g.s + k / g.s) c) =
      BitVec.ofNat 8 (quantLevel g.l (packIndex g buf b c)) := by
  obtain ⟨hx, hy⟩ := block_pixel_bounds hg hb hk
  have h3 : k % g.s < g.s := Nat.mod_lt _ hg.s_pos
  have h4 : k / g.s < g.s := Nat.div_lt_of_lt_mul hk
  have hcw : 0 < g.cw := by omega
  unfold packByte pixelOffset blockOfPixel
  have e1 : ∀ n, (n * 3 + c) / 3 = n := fun n => by omega
  have e2 : ∀ n, (n * 3 + c) % 3 = c := fun n => by omega
  simp only [e1, e2]
  have e3 : ((b / g.bx * g.s + k / g.s) * g.cw + (b % g.bx * g.s + k % g.s)) % g.cw = b % g.bx * g.s + k % g.s := by
    rw [Nat.mul_comm, Nat.mul_add_mod, Nat.mod_eq_of_lt hx]
  have e4 : ((b / g.bx * g.s + k / g.s) * g.cw + (b % g.bx * g.s + k % g.s)) / g.cw = b / g.bx * g.s + k / g.s := by
    rw [Nat.mul_comm, Nat.mul_add_div hcw, Nat.div_eq_of_lt hx, Nat.add_zero]
  have e5 : (b % g.bx * g.s + k % g.s) / g.s = b % g.bx := by
    rw [Nat.mul_comm, Nat.mul_add_div hg.s_pos, Nat.div_eq_of_lt h3, Nat.add_zero]
  have e6 : (b / g.bx * g.s + k / g.s) / g.s = b / g.bx := by
    rw [Nat.mul_comm, Nat.mul_add_div hg.s_pos, Nat.div_eq_of_lt h4, Nat.add_zero]
  rw [e3, e4, e5, e6]
  have e7 : b / g.bx * g.bx + b % g.bx = b := by rw [Nat.mul_comm]; exact Nat.div_add_mod b g.bx
  rw [e7]

/-! Unpacking a packed frame. -/

/-- The index of a block of a packed frame is the packed one, in both vote modes. -/
theorem unpackIndex_packed (vote : VoteMode) (buf : List Byte) {frame : Nat → Byte}
    (hf : ∀ o, o < frameLen g → frame o = packByte g buf o) {b c : Nat} (hb : b < g.nb) (hc : c < 3) :
    unpackIndex g vote frame b c = packIndex g buf b c := by
  have hs : blockSamples g frame b c =
      List.replicate (g.s * g.s) (BitVec.ofNat 8 (quantLevel g.l (packIndex g buf b c))) := by
    rw [List.eq_replicate_iff]
    refine ⟨by simp [blockSamples], fun v hv => ?_⟩
    simp only [blockSamples, List.mem_map, List.mem_range] at hv
    obtain ⟨k, hk, rfl⟩ := hv
    obtain ⟨hx, hy⟩ := block_pixel_bounds hg hb hk
    rw [hf _ (pixelOffset_lt hx hy hc), packByte_block hg buf hb hc hk]
  have hi : packIndex g buf b c < 2 ^ g.bpc := bitsValue_lt _ _
  obtain ⟨h1, h2⟩ := level_bounds g.bpc (by have := hg.bpc8; omega) _ hi hg.bpc1
  have hv : (BitVec.ofNat 8 (quantLevel g.l (packIndex g buf b c))).toNat = quantLevel g.l (packIndex g buf b c) := by
    rw [BitVec.toNat_ofNat, hg.l]
    exact Nat.mod_eq_of_lt h1
  have hd : dequantLevel g.l (BitVec.ofNat 8 (quantLevel g.l (packIndex g buf b c))).toNat = packIndex g buf b c := by
    rw [hv, hg.l, h2]
  rw [unpackIndex, hs, blockIndex_replicate, hd]
  · exact Nat.mul_pos hg.s_pos hg.s_pos
  · rw [hd, hg.l]; exact hi

/-- Every stream bit of a packed frame is the packed one. -/
theorem unpackBit_packed (vote : VoteMode) (buf : List Byte) {frame : Nat → Byte}
    (hf : ∀ o, o < frameLen g → frame o = packByte g buf o) {t : Nat} (ht : t < g.nb * g.bpb) :
    unpackBit g vote frame t = streamBit g buf t := by
  have hc0 : 0 < g.bpc := hg.bpc1
  have hbpb : 0 < g.bpb := by rw [hg.bpb]; omega
  have hb : t / g.bpb < g.nb := Nat.div_lt_of_lt_mul (by rw [Nat.mul_comm]; exact ht)
  have hc : t % g.bpb / g.bpc < 3 := by
    apply Nat.div_lt_of_lt_mul
    have := Nat.mod_lt t hbpb
    rw [hg.bpb] at this ⊢
    omega
  have hj : t % g.bpc < g.bpc := Nat.mod_lt _ hc0
  have hmod : t % g.bpb % g.bpc = t % g.bpc := Nat.mod_mod_of_dvd t ⟨3, by rw [hg.bpb]; ring⟩
  have e : t / g.bpb * g.bpb + t % g.bpb / g.bpc * g.bpc + t % g.bpc = t := by
    have h1 := Nat.div_add_mod (t % g.bpb) g.bpc
    have h2 := Nat.div_add_mod t g.bpb
    rw [hmod] at h1
    have h3 : g.bpc * (t % g.bpb / g.bpc) = t % g.bpb / g.bpc * g.bpc := Nat.mul_comm _ _
    have h4 : g.bpb * (t / g.bpb) = t / g.bpb * g.bpb := Nat.mul_comm _ _
    omega
  rw [unpackBit, unpackIndex_packed hg vote buf hf hb hc, packIndex, testBit_bitsValue _ _ _ hj, e]

/-- Byte `j` of the unpacked buffer is the packed one. -/
theorem unpackByte_packed (vote : VoteMode) (buf : List Byte) {frame : Nat → Byte}
    (hf : ∀ o, o < frameLen g → frame o = packByte g buf o) {j : Nat} (hj : j < g.pay) :
    unpackByte g vote frame j = buf.getD j 0 := by
  rw [unpackByte, bitsValue_congr (h := fun i => (buf.getD j 0).getLsbD (7 - i)), ofNat_bitsValue_byte]
  intro i hi
  have h8 : 8 * g.pay ≤ g.nb * g.bpb := by rw [hg.pay]; exact Nat.mul_div_le _ _
  have ht : 8 * j + i < 8 * g.pay := by omega
  have e1 : (8 * j + i) / 8 = j := by omega
  have e2 : (8 * j + i) % 8 = i := by omega
  rw [unpackBit_packed hg vote buf hf (by omega), streamBit, e1, e2]
  simp [ht]

/-- `UnpackFrame(PackFrame(B)) = B`, of a frame in memory as of any frame. -/
theorem unpackFrame_packed (vote : VoteMode) (buf : List Byte) {frame : Nat → Byte}
    (hf : ∀ o, o < frameLen g → frame o = packByte g buf o) (hl : buf.length = g.pay) :
    unpackFrame g vote frame = buf := by
  apply List.ext_getElem
  · simp [unpackFrame, hl]
  · intro j h1 h2
    simp only [unpackFrame, List.getElem_map, List.getElem_range]
    rw [unpackByte_packed hg vote buf hf (by omega), List.getD_eq_getElem _ _ h2]

end

/-- A packed frame written to memory is read back by offset. -/
theorem frameAt_write (m : Memory) (a : Nat) (g : Geometry) (buf : List Byte) (o : Nat) (ho : o < frameLen g) :
    frameAt (Memory.write m a (packFrame g buf)) a o = packByte g buf o := by
  have hl : o < (packFrame g buf).length := by simpa [packFrame] using ho
  rw [frameAt, Memory.readByte_write_inside _ _ _ _ hl]
  simp [packFrame]

@[simp] theorem length_packFrame (g : Geometry) (buf : List Byte) : (packFrame g buf).length = frameLen g := by
  simp [packFrame]

@[simp] theorem length_unpackFrame (g : Geometry) (vote : VoteMode) (frame : Nat → Byte) :
    (unpackFrame g vote frame).length = g.pay := by
  simp [unpackFrame]

/-- The header geometry tiles the canvas (R232). -/
theorem headerGeometry_tiles : GeometryTiles headerGeometry := by constructor <;> decide +kernel

end Sys2Proof.Machine
end

