-- ==== Sys2Proof/Laws/HostStep.lean ====
section
/-! SUPPORT. What the host's accesses can do: a read or write of a register's offset (10_state.md R31, R32), and when a store or
load meets no flight (20_memory.md R91). -/

namespace Sys2Proof.Machine

theorem readOffset_of_regAt {off : BitVec 8} {r : Reg} (h : regAt off = some r) (s : State) :
    readOffset off s = readReg r s := by
  simp [readOffset, h]

/-- A write to a RW register takes effect in an idle block, and in any block if the register is not guarded. -/
theorem writeOffset_of_rw {off : BitVec 8} {r : Reg} {s : State} (h : regAt off = some r) (ha : regAccess r = .rw)
    (hb : s.pending = none ∨ busyGuarded r = false) (v : Word) : writeOffset off v s = storeReg r v s := by
  simp only [writeOffset, h, writeReg, ha]
  rcases hb with hb | hb <;> simp [busy, hb]

theorem hostWrite_released {s : State} (h : s.resetInput = false) (off : BitVec 8) (v : Word) :
    hostWrite off v s = writeOffset off v s := by
  simp [hostWrite, h]

theorem hostWrite_asserted {s : State} (h : s.resetInput = true) (off : BitVec 8) (v : Word) : hostWrite off v s = s := by
  simp [hostWrite, h]

/-- Everything a deassertion can do. -/
theorem releaseResetInput_cases (s : State) :
    (s.resetInput = true ∧ releaseResetInput s = { resetBlock s with resetInput := false }) ∨
      (s.resetInput = false ∧ releaseResetInput s = s) := by
  unfold releaseResetInput
  cases h : s.resetInput <;> simp

theorem overlaps_eq_false {a n : Nat} {r : MemRange} : overlaps a n r = false ↔ Apart a n r := by
  unfold overlaps Apart
  rw [← Bool.not_eq_true]
  simp only [Bool.and_eq_true, decide_eq_true_eq, bne_iff_ne]
  constructor
  · intro h x h1 h2
    by_contra hc
    exact h (by omega)
  · intro h hc
    have := h (max a r.base) (by omega) (by omega)
    omega

theorem storeRaces_eq_false {s : State} {a n : Nat} :
    storeRaces s a n = false ↔ ∀ f ∈ s.inFlight, ∀ r, r ∈ f.ranges.reads ∨ r ∈ f.ranges.writes → Apart a n r := by
  simp only [storeRaces, List.any_eq_false, Bool.not_eq_true, Bool.or_eq_false_iff, overlaps_eq_false, or_imp, forall_and]

theorem loadRaces_eq_false {s : State} {a n : Nat} :
    loadRaces s a n = false ↔ ∀ f ∈ s.inFlight, ∀ r ∈ f.ranges.writes, Apart a n r := by
  simp only [loadRaces, List.any_eq_false, Bool.not_eq_true, overlaps_eq_false]

end Sys2Proof.Machine
end

