-- ==== Sys2Proof/Laws/State.lean ====
section
/-! SUPPORT. One lemma per field per update of the state, each true by rfl, so that no proof unfolds a record update. -/

namespace Sys2Proof.Machine

/-! `finish` -/

@[simp] theorem finish_pending (e : ErrCode) (irq : BitVec 2) (r0 r1 r2 : Word) (s : State) : (finish e irq r0 r1 r2 s).pending = none := rfl
@[simp] theorem finish_lastCmd (e : ErrCode) (irq : BitVec 2) (r0 r1 r2 : Word) (s : State) : (finish e irq r0 r1 r2 s).lastCmd = s.lastCmd := rfl
@[simp] theorem finish_errCode (e : ErrCode) (irq : BitVec 2) (r0 r1 r2 : Word) (s : State) : (finish e irq r0 r1 r2 s).errCode = e := rfl
@[simp] theorem finish_overrun (e : ErrCode) (irq : BitVec 2) (r0 r1 r2 : Word) (s : State) : (finish e irq r0 r1 r2 s).overrun = s.overrun := rfl
@[simp] theorem finish_irqStatus (e : ErrCode) (irq : BitVec 2) (r0 r1 r2 : Word) (s : State) : (finish e irq r0 r1 r2 s).irqStatus = s.irqStatus ||| irq := rfl
@[simp] theorem finish_irqEnable (e : ErrCode) (irq : BitVec 2) (r0 r1 r2 : Word) (s : State) : (finish e irq r0 r1 r2 s).irqEnable = s.irqEnable := rfl
@[simp] theorem finish_staging (e : ErrCode) (irq : BitVec 2) (r0 r1 r2 : Word) (s : State) : (finish e irq r0 r1 r2 s).staging = s.staging := rfl
@[simp] theorem finish_vote (e : ErrCode) (irq : BitVec 2) (r0 r1 r2 : Word) (s : State) : (finish e irq r0 r1 r2 s).vote = s.vote := rfl
@[simp] theorem finish_act (e : ErrCode) (irq : BitVec 2) (r0 r1 r2 : Word) (s : State) : (finish e irq r0 r1 r2 s).act = s.act := rfl
@[simp] theorem finish_args (e : ErrCode) (irq : BitVec 2) (r0 r1 r2 : Word) (s : State) : (finish e irq r0 r1 r2 s).args = s.args := rfl
@[simp] theorem finish_res0 (e : ErrCode) (irq : BitVec 2) (r0 r1 r2 : Word) (s : State) : (finish e irq r0 r1 r2 s).res0 = r0 := rfl
@[simp] theorem finish_res1 (e : ErrCode) (irq : BitVec 2) (r0 r1 r2 : Word) (s : State) : (finish e irq r0 r1 r2 s).res1 = r1 := rfl
@[simp] theorem finish_res2 (e : ErrCode) (irq : BitVec 2) (r0 r1 r2 : Word) (s : State) : (finish e irq r0 r1 r2 s).res2 = r2 := rfl
@[simp] theorem finish_seq (e : ErrCode) (irq : BitVec 2) (r0 r1 r2 : Word) (s : State) : (finish e irq r0 r1 r2 s).seq = s.seq := rfl
@[simp] theorem finish_hb (e : ErrCode) (irq : BitVec 2) (r0 r1 r2 : Word) (s : State) : (finish e irq r0 r1 r2 s).hb = s.hb := rfl
@[simp] theorem finish_mem (e : ErrCode) (irq : BitVec 2) (r0 r1 r2 : Word) (s : State) : (finish e irq r0 r1 r2 s).mem = s.mem := rfl
@[simp] theorem finish_resetInput (e : ErrCode) (irq : BitVec 2) (r0 r1 r2 : Word) (s : State) : (finish e irq r0 r1 r2 s).resetInput = s.resetInput := rfl
@[simp] theorem finish_host (e : ErrCode) (irq : BitVec 2) (r0 r1 r2 : Word) (s : State) : (finish e irq r0 r1 r2 s).host = s.host := rfl
@[simp] theorem finish_sched (e : ErrCode) (irq : BitVec 2) (r0 r1 r2 : Word) (s : State) : (finish e irq r0 r1 r2 s).sched = s.sched := rfl
@[simp] theorem finish_hostReads (e : ErrCode) (irq : BitVec 2) (r0 r1 r2 : Word) (s : State) : (finish e irq r0 r1 r2 s).hostReads = s.hostReads := rfl
@[simp] theorem finish_inFlight (e : ErrCode) (irq : BitVec 2) (r0 r1 r2 : Word) (s : State) : (finish e irq r0 r1 r2 s).inFlight = s.inFlight.map (Flight.landed (irq &&& ~~~ s.irqStatus)) := rfl
@[simp] theorem finish_draws (e : ErrCode) (irq : BitVec 2) (r0 r1 r2 : Word) (s : State) : (finish e irq r0 r1 r2 s).draws = s.draws := rfl

/-! `complete` -/

@[simp] theorem complete_pending (r0 r1 r2 : Nat) (s : State) : (complete r0 r1 r2 s).pending = none := rfl
@[simp] theorem complete_lastCmd (r0 r1 r2 : Nat) (s : State) : (complete r0 r1 r2 s).lastCmd = s.lastCmd := rfl
@[simp] theorem complete_errCode (r0 r1 r2 : Nat) (s : State) : (complete r0 r1 r2 s).errCode = .none := rfl
@[simp] theorem complete_overrun (r0 r1 r2 : Nat) (s : State) : (complete r0 r1 r2 s).overrun = s.overrun := rfl
@[simp] theorem complete_irqStatus (r0 r1 r2 : Nat) (s : State) : (complete r0 r1 r2 s).irqStatus = s.irqStatus ||| 0b01 := rfl
@[simp] theorem complete_irqEnable (r0 r1 r2 : Nat) (s : State) : (complete r0 r1 r2 s).irqEnable = s.irqEnable := rfl
@[simp] theorem complete_staging (r0 r1 r2 : Nat) (s : State) : (complete r0 r1 r2 s).staging = s.staging := rfl
@[simp] theorem complete_vote (r0 r1 r2 : Nat) (s : State) : (complete r0 r1 r2 s).vote = s.vote := rfl
@[simp] theorem complete_act (r0 r1 r2 : Nat) (s : State) : (complete r0 r1 r2 s).act = s.act := rfl
@[simp] theorem complete_args (r0 r1 r2 : Nat) (s : State) : (complete r0 r1 r2 s).args = s.args := rfl
@[simp] theorem complete_res0 (r0 r1 r2 : Nat) (s : State) : (complete r0 r1 r2 s).res0 = BitVec.ofNat 32 r0 := rfl
@[simp] theorem complete_res1 (r0 r1 r2 : Nat) (s : State) : (complete r0 r1 r2 s).res1 = BitVec.ofNat 32 r1 := rfl
@[simp] theorem complete_res2 (r0 r1 r2 : Nat) (s : State) : (complete r0 r1 r2 s).res2 = BitVec.ofNat 32 r2 := rfl
@[simp] theorem complete_seq (r0 r1 r2 : Nat) (s : State) : (complete r0 r1 r2 s).seq = s.seq := rfl
@[simp] theorem complete_hb (r0 r1 r2 : Nat) (s : State) : (complete r0 r1 r2 s).hb = s.hb := rfl
@[simp] theorem complete_mem (r0 r1 r2 : Nat) (s : State) : (complete r0 r1 r2 s).mem = s.mem := rfl
@[simp] theorem complete_resetInput (r0 r1 r2 : Nat) (s : State) : (complete r0 r1 r2 s).resetInput = s.resetInput := rfl
@[simp] theorem complete_host (r0 r1 r2 : Nat) (s : State) : (complete r0 r1 r2 s).host = s.host := rfl
@[simp] theorem complete_sched (r0 r1 r2 : Nat) (s : State) : (complete r0 r1 r2 s).sched = s.sched := rfl
@[simp] theorem complete_hostReads (r0 r1 r2 : Nat) (s : State) : (complete r0 r1 r2 s).hostReads = s.hostReads := rfl
@[simp] theorem complete_inFlight (r0 r1 r2 : Nat) (s : State) : (complete r0 r1 r2 s).inFlight = s.inFlight.map (Flight.landed (0b01 &&& ~~~ s.irqStatus)) := rfl
@[simp] theorem complete_draws (r0 r1 r2 : Nat) (s : State) : (complete r0 r1 r2 s).draws = s.draws := rfl

/-! `raise` -/

@[simp] theorem raise_pending (e : ErrCode) (s : State) : (raise e s).pending = none := rfl
@[simp] theorem raise_lastCmd (e : ErrCode) (s : State) : (raise e s).lastCmd = s.lastCmd := rfl
@[simp] theorem raise_errCode (e : ErrCode) (s : State) : (raise e s).errCode = e := rfl
@[simp] theorem raise_overrun (e : ErrCode) (s : State) : (raise e s).overrun = s.overrun := rfl
@[simp] theorem raise_irqStatus (e : ErrCode) (s : State) : (raise e s).irqStatus = s.irqStatus ||| 0b11 := rfl
@[simp] theorem raise_irqEnable (e : ErrCode) (s : State) : (raise e s).irqEnable = s.irqEnable := rfl
@[simp] theorem raise_staging (e : ErrCode) (s : State) : (raise e s).staging = s.staging := rfl
@[simp] theorem raise_vote (e : ErrCode) (s : State) : (raise e s).vote = s.vote := rfl
@[simp] theorem raise_act (e : ErrCode) (s : State) : (raise e s).act = s.act := rfl
@[simp] theorem raise_args (e : ErrCode) (s : State) : (raise e s).args = s.args := rfl
@[simp] theorem raise_res0 (e : ErrCode) (s : State) : (raise e s).res0 = 0 := rfl
@[simp] theorem raise_res1 (e : ErrCode) (s : State) : (raise e s).res1 = 0 := rfl
@[simp] theorem raise_res2 (e : ErrCode) (s : State) : (raise e s).res2 = 0 := rfl
@[simp] theorem raise_seq (e : ErrCode) (s : State) : (raise e s).seq = s.seq := rfl
@[simp] theorem raise_hb (e : ErrCode) (s : State) : (raise e s).hb = s.hb := rfl
@[simp] theorem raise_mem (e : ErrCode) (s : State) : (raise e s).mem = s.mem := rfl
@[simp] theorem raise_resetInput (e : ErrCode) (s : State) : (raise e s).resetInput = s.resetInput := rfl
@[simp] theorem raise_host (e : ErrCode) (s : State) : (raise e s).host = s.host := rfl
@[simp] theorem raise_sched (e : ErrCode) (s : State) : (raise e s).sched = s.sched := rfl
@[simp] theorem raise_hostReads (e : ErrCode) (s : State) : (raise e s).hostReads = s.hostReads := rfl
@[simp] theorem raise_inFlight (e : ErrCode) (s : State) : (raise e s).inFlight = s.inFlight.map (Flight.landed (0b11 &&& ~~~ s.irqStatus)) := rfl
@[simp] theorem raise_draws (e : ErrCode) (s : State) : (raise e s).draws = s.draws := rfl

/-! `failStream` -/

@[simp] theorem failStream_pending (e : ErrCode) (s : State) : (failStream e s).pending = none := rfl
@[simp] theorem failStream_lastCmd (e : ErrCode) (s : State) : (failStream e s).lastCmd = s.lastCmd := rfl
@[simp] theorem failStream_errCode (e : ErrCode) (s : State) : (failStream e s).errCode = e := rfl
@[simp] theorem failStream_overrun (e : ErrCode) (s : State) : (failStream e s).overrun = s.overrun := rfl
@[simp] theorem failStream_irqStatus (e : ErrCode) (s : State) : (failStream e s).irqStatus = s.irqStatus ||| 0b11 := rfl
@[simp] theorem failStream_irqEnable (e : ErrCode) (s : State) : (failStream e s).irqEnable = s.irqEnable := rfl
@[simp] theorem failStream_staging (e : ErrCode) (s : State) : (failStream e s).staging = s.staging := rfl
@[simp] theorem failStream_vote (e : ErrCode) (s : State) : (failStream e s).vote = s.vote := rfl
@[simp] theorem failStream_act (e : ErrCode) (s : State) : (failStream e s).act = s.act := rfl
@[simp] theorem failStream_args (e : ErrCode) (s : State) : (failStream e s).args = s.args := rfl
@[simp] theorem failStream_res0 (e : ErrCode) (s : State) : (failStream e s).res0 = 0 := rfl
@[simp] theorem failStream_res1 (e : ErrCode) (s : State) : (failStream e s).res1 = 0 := rfl
@[simp] theorem failStream_res2 (e : ErrCode) (s : State) : (failStream e s).res2 = 0 := rfl
@[simp] theorem failStream_seq (e : ErrCode) (s : State) : (failStream e s).seq = { s.seq with phase := .failed } := rfl
@[simp] theorem failStream_hb (e : ErrCode) (s : State) : (failStream e s).hb = s.hb := rfl
@[simp] theorem failStream_mem (e : ErrCode) (s : State) : (failStream e s).mem = s.mem := rfl
@[simp] theorem failStream_resetInput (e : ErrCode) (s : State) : (failStream e s).resetInput = s.resetInput := rfl
@[simp] theorem failStream_host (e : ErrCode) (s : State) : (failStream e s).host = s.host := rfl
@[simp] theorem failStream_sched (e : ErrCode) (s : State) : (failStream e s).sched = s.sched := rfl
@[simp] theorem failStream_hostReads (e : ErrCode) (s : State) : (failStream e s).hostReads = s.hostReads := rfl
@[simp] theorem failStream_inFlight (e : ErrCode) (s : State) : (failStream e s).inFlight = s.inFlight.map (Flight.landed (0b11 &&& ~~~ s.irqStatus)) := rfl
@[simp] theorem failStream_draws (e : ErrCode) (s : State) : (failStream e s).draws = s.draws := rfl

/-! `issue` -/

@[simp] theorem issue_pending (w : Word) (s : State) : (issue w s).pending = some w := rfl
@[simp] theorem issue_lastCmd (w : Word) (s : State) : (issue w s).lastCmd = w := rfl
@[simp] theorem issue_errCode (w : Word) (s : State) : (issue w s).errCode = s.errCode := rfl
@[simp] theorem issue_overrun (w : Word) (s : State) : (issue w s).overrun = s.overrun := rfl
@[simp] theorem issue_irqStatus (w : Word) (s : State) : (issue w s).irqStatus = s.irqStatus := rfl
@[simp] theorem issue_irqEnable (w : Word) (s : State) : (issue w s).irqEnable = s.irqEnable := rfl
@[simp] theorem issue_staging (w : Word) (s : State) : (issue w s).staging = s.staging := rfl
@[simp] theorem issue_vote (w : Word) (s : State) : (issue w s).vote = s.vote := rfl
@[simp] theorem issue_act (w : Word) (s : State) : (issue w s).act = s.act := rfl
@[simp] theorem issue_args (w : Word) (s : State) : (issue w s).args = s.args := rfl
@[simp] theorem issue_res0 (w : Word) (s : State) : (issue w s).res0 = s.res0 := rfl
@[simp] theorem issue_res1 (w : Word) (s : State) : (issue w s).res1 = s.res1 := rfl
@[simp] theorem issue_res2 (w : Word) (s : State) : (issue w s).res2 = s.res2 := rfl
@[simp] theorem issue_seq (w : Word) (s : State) : (issue w s).seq = s.seq := rfl
@[simp] theorem issue_hb (w : Word) (s : State) : (issue w s).hb = s.hb := rfl
@[simp] theorem issue_mem (w : Word) (s : State) : (issue w s).mem = s.mem := rfl
@[simp] theorem issue_resetInput (w : Word) (s : State) : (issue w s).resetInput = s.resetInput := rfl
@[simp] theorem issue_host (w : Word) (s : State) : (issue w s).host = s.host := rfl
@[simp] theorem issue_sched (w : Word) (s : State) : (issue w s).sched = s.sched := rfl
@[simp] theorem issue_hostReads (w : Word) (s : State) : (issue w s).hostReads = s.hostReads := rfl
@[simp] theorem issue_inFlight (w : Word) (s : State) : (issue w s).inFlight = { ranges := wordFootprint w s, irqBits := none } :: s.inFlight := rfl
@[simp] theorem issue_draws (w : Word) (s : State) : (issue w s).draws = s.draws := rfl

/-! `resetBlock` -/

@[simp] theorem resetBlock_pending  (s : State) : (resetBlock s).pending = State.reset.pending := rfl
@[simp] theorem resetBlock_lastCmd  (s : State) : (resetBlock s).lastCmd = State.reset.lastCmd := rfl
@[simp] theorem resetBlock_errCode  (s : State) : (resetBlock s).errCode = State.reset.errCode := rfl
@[simp] theorem resetBlock_overrun  (s : State) : (resetBlock s).overrun = State.reset.overrun := rfl
@[simp] theorem resetBlock_irqStatus  (s : State) : (resetBlock s).irqStatus = State.reset.irqStatus := rfl
@[simp] theorem resetBlock_irqEnable  (s : State) : (resetBlock s).irqEnable = State.reset.irqEnable := rfl
@[simp] theorem resetBlock_staging  (s : State) : (resetBlock s).staging = State.reset.staging := rfl
@[simp] theorem resetBlock_vote  (s : State) : (resetBlock s).vote = State.reset.vote := rfl
@[simp] theorem resetBlock_act  (s : State) : (resetBlock s).act = State.reset.act := rfl
@[simp] theorem resetBlock_args  (s : State) : (resetBlock s).args = State.reset.args := rfl
@[simp] theorem resetBlock_res0  (s : State) : (resetBlock s).res0 = State.reset.res0 := rfl
@[simp] theorem resetBlock_res1  (s : State) : (resetBlock s).res1 = State.reset.res1 := rfl
@[simp] theorem resetBlock_res2  (s : State) : (resetBlock s).res2 = State.reset.res2 := rfl
@[simp] theorem resetBlock_seq  (s : State) : (resetBlock s).seq = State.reset.seq := rfl
@[simp] theorem resetBlock_hb  (s : State) : (resetBlock s).hb = State.reset.hb := rfl
@[simp] theorem resetBlock_mem  (s : State) : (resetBlock s).mem = resetMemory s := rfl
@[simp] theorem resetBlock_resetInput  (s : State) : (resetBlock s).resetInput = s.resetInput := rfl
@[simp] theorem resetBlock_host  (s : State) : (resetBlock s).host = s.host := rfl
@[simp] theorem resetBlock_sched  (s : State) : (resetBlock s).sched = s.sched := rfl
@[simp] theorem resetBlock_hostReads  (s : State) : (resetBlock s).hostReads = s.hostReads := rfl
@[simp] theorem resetBlock_inFlight  (s : State) : (resetBlock s).inFlight = s.inFlight.filter (·.irqBits.isSome) := rfl
@[simp] theorem resetBlock_draws  (s : State) : (resetBlock s).draws = if busy s then s.draws + 1 else s.draws := rfl

/-! `observeIrq` -/

@[simp] theorem observeIrq_pending  (s : State) : (observeIrq s).pending = s.pending := rfl
@[simp] theorem observeIrq_lastCmd  (s : State) : (observeIrq s).lastCmd = s.lastCmd := rfl
@[simp] theorem observeIrq_errCode  (s : State) : (observeIrq s).errCode = s.errCode := rfl
@[simp] theorem observeIrq_overrun  (s : State) : (observeIrq s).overrun = s.overrun := rfl
@[simp] theorem observeIrq_irqStatus  (s : State) : (observeIrq s).irqStatus = s.irqStatus := rfl
@[simp] theorem observeIrq_irqEnable  (s : State) : (observeIrq s).irqEnable = s.irqEnable := rfl
@[simp] theorem observeIrq_staging  (s : State) : (observeIrq s).staging = s.staging := rfl
@[simp] theorem observeIrq_vote  (s : State) : (observeIrq s).vote = s.vote := rfl
@[simp] theorem observeIrq_act  (s : State) : (observeIrq s).act = s.act := rfl
@[simp] theorem observeIrq_args  (s : State) : (observeIrq s).args = s.args := rfl
@[simp] theorem observeIrq_res0  (s : State) : (observeIrq s).res0 = s.res0 := rfl
@[simp] theorem observeIrq_res1  (s : State) : (observeIrq s).res1 = s.res1 := rfl
@[simp] theorem observeIrq_res2  (s : State) : (observeIrq s).res2 = s.res2 := rfl
@[simp] theorem observeIrq_seq  (s : State) : (observeIrq s).seq = s.seq := rfl
@[simp] theorem observeIrq_hb  (s : State) : (observeIrq s).hb = s.hb := rfl
@[simp] theorem observeIrq_mem  (s : State) : (observeIrq s).mem = s.mem := rfl
@[simp] theorem observeIrq_resetInput  (s : State) : (observeIrq s).resetInput = s.resetInput := rfl
@[simp] theorem observeIrq_host  (s : State) : (observeIrq s).host = s.host := rfl
@[simp] theorem observeIrq_sched  (s : State) : (observeIrq s).sched = s.sched := rfl
@[simp] theorem observeIrq_hostReads  (s : State) : (observeIrq s).hostReads = s.hostReads := rfl
@[simp] theorem observeIrq_inFlight  (s : State) : (observeIrq s).inFlight = s.inFlight.takeWhile (fun f => !signalled s f) := rfl
@[simp] theorem observeIrq_draws  (s : State) : (observeIrq s).draws = s.draws := rfl

/-! `registersReset` and `assertResetInput` -/

@[simp] theorem registersReset_pending (s : State) : (registersReset s).pending = State.reset.pending := rfl
@[simp] theorem registersReset_lastCmd (s : State) : (registersReset s).lastCmd = State.reset.lastCmd := rfl
@[simp] theorem registersReset_errCode (s : State) : (registersReset s).errCode = State.reset.errCode := rfl
@[simp] theorem registersReset_overrun (s : State) : (registersReset s).overrun = State.reset.overrun := rfl
@[simp] theorem registersReset_irqStatus (s : State) : (registersReset s).irqStatus = State.reset.irqStatus := rfl
@[simp] theorem registersReset_irqEnable (s : State) : (registersReset s).irqEnable = State.reset.irqEnable := rfl
@[simp] theorem registersReset_staging (s : State) : (registersReset s).staging = State.reset.staging := rfl
@[simp] theorem registersReset_vote (s : State) : (registersReset s).vote = State.reset.vote := rfl
@[simp] theorem registersReset_act (s : State) : (registersReset s).act = State.reset.act := rfl
@[simp] theorem registersReset_args (s : State) : (registersReset s).args = State.reset.args := rfl
@[simp] theorem registersReset_res0 (s : State) : (registersReset s).res0 = State.reset.res0 := rfl
@[simp] theorem registersReset_res1 (s : State) : (registersReset s).res1 = State.reset.res1 := rfl
@[simp] theorem registersReset_res2 (s : State) : (registersReset s).res2 = State.reset.res2 := rfl
@[simp] theorem registersReset_seq (s : State) : (registersReset s).seq = State.reset.seq := rfl
@[simp] theorem registersReset_hb (s : State) : (registersReset s).hb = State.reset.hb := rfl
@[simp] theorem registersReset_mem (s : State) : (registersReset s).mem = s.mem := rfl
@[simp] theorem registersReset_resetInput (s : State) : (registersReset s).resetInput = s.resetInput := rfl
@[simp] theorem registersReset_host (s : State) : (registersReset s).host = s.host := rfl
@[simp] theorem registersReset_sched (s : State) : (registersReset s).sched = s.sched := rfl
@[simp] theorem registersReset_hostReads (s : State) : (registersReset s).hostReads = s.hostReads := rfl
@[simp] theorem registersReset_inFlight (s : State) : (registersReset s).inFlight = s.inFlight := rfl
@[simp] theorem registersReset_draws (s : State) : (registersReset s).draws = s.draws := rfl
@[simp] theorem assertResetInput_pending (s : State) : (assertResetInput s).pending = State.reset.pending := rfl
@[simp] theorem assertResetInput_lastCmd (s : State) : (assertResetInput s).lastCmd = State.reset.lastCmd := rfl
@[simp] theorem assertResetInput_errCode (s : State) : (assertResetInput s).errCode = State.reset.errCode := rfl
@[simp] theorem assertResetInput_overrun (s : State) : (assertResetInput s).overrun = State.reset.overrun := rfl
@[simp] theorem assertResetInput_irqStatus (s : State) : (assertResetInput s).irqStatus = State.reset.irqStatus := rfl
@[simp] theorem assertResetInput_irqEnable (s : State) : (assertResetInput s).irqEnable = State.reset.irqEnable := rfl
@[simp] theorem assertResetInput_staging (s : State) : (assertResetInput s).staging = State.reset.staging := rfl
@[simp] theorem assertResetInput_vote (s : State) : (assertResetInput s).vote = State.reset.vote := rfl
@[simp] theorem assertResetInput_act (s : State) : (assertResetInput s).act = State.reset.act := rfl
@[simp] theorem assertResetInput_args (s : State) : (assertResetInput s).args = State.reset.args := rfl
@[simp] theorem assertResetInput_res0 (s : State) : (assertResetInput s).res0 = State.reset.res0 := rfl
@[simp] theorem assertResetInput_res1 (s : State) : (assertResetInput s).res1 = State.reset.res1 := rfl
@[simp] theorem assertResetInput_res2 (s : State) : (assertResetInput s).res2 = State.reset.res2 := rfl
@[simp] theorem assertResetInput_seq (s : State) : (assertResetInput s).seq = State.reset.seq := rfl
@[simp] theorem assertResetInput_hb (s : State) : (assertResetInput s).hb = State.reset.hb := rfl
@[simp] theorem assertResetInput_mem (s : State) : (assertResetInput s).mem = (resetBlock s).mem := rfl
@[simp] theorem assertResetInput_host (s : State) : (assertResetInput s).host = (resetBlock s).host := rfl
@[simp] theorem assertResetInput_sched (s : State) : (assertResetInput s).sched = (resetBlock s).sched := rfl
@[simp] theorem assertResetInput_hostReads (s : State) : (assertResetInput s).hostReads = (resetBlock s).hostReads := rfl
@[simp] theorem assertResetInput_inFlight (s : State) : (assertResetInput s).inFlight = (resetBlock s).inFlight := rfl
@[simp] theorem assertResetInput_draws (s : State) : (assertResetInput s).draws = (resetBlock s).draws := rfl
@[simp] theorem assertResetInput_resetInput (s : State) : (assertResetInput s).resetInput = true := rfl

end Sys2Proof.Machine
end

