-- ==== Sys2Proof/Laws/Ops.lean ====
section
/-! SUPPORT. One lemma per shared operation: everything it can do. -/

namespace Sys2Proof.Machine

@[simp] theorem firstError_nil : firstError [] = none := rfl

@[simp] theorem firstError_true (e : ErrCode) (l : List (Bool × ErrCode)) : firstError ((true, e) :: l) = some e := rfl

@[simp] theorem firstError_false (e : ErrCode) (l : List (Bool × ErrCode)) : firstError ((false, e) :: l) = firstError l := rfl

/-- No precondition fails exactly when no test of the list does. -/
theorem firstError_eq_none {l : List (Bool × ErrCode)} : firstError l = none ↔ ∀ x ∈ l, x.1 = false := by
  induction l with
  | nil => simp
  | cons x l ih =>
    obtain ⟨b, e⟩ := x
    cases b <;> simp [ih]

@[simp] theorem orRaise_some (e : ErrCode) (s : State) (go : State → State) : orRaise (some e) s go = raise e s := rfl

@[simp] theorem orRaise_none (s : State) (go : State → State) : orRaise none s go = go s := rfl

/-- A command's end is an error completion, or what it goes on to. -/
theorem orRaise_cases (pre : Option ErrCode) (s : State) (go : State → State) :
    (∃ e, pre = some e ∧ orRaise pre s go = raise e s) ∨ (pre = none ∧ orRaise pre s go = go s) := by
  cases pre with
  | none => exact .inr ⟨rfl, rfl⟩
  | some e => exact .inl ⟨e, rfl, rfl⟩

/-- A property of both completions' ends holds of the end of a command. -/
theorem orRaise_ind {P : State → Prop} {pre : Option ErrCode} {s : State} {go : State → State}
    (hr : ∀ e, pre = some e → P (raise e s)) (hg : pre = none → P (go s)) : P (orRaise pre s go) := by
  cases pre with
  | none => exact hg rfl
  | some e => exact hr e rfl

@[simp] theorem Flight.landed_ranges (b : BitVec 2) (f : Flight) : (Flight.landed b f).ranges = f.ranges := by
  unfold Flight.landed
  cases f.irqBits <;> rfl

@[simp] theorem Flight.landed_isSome (b : BitVec 2) (f : Flight) : (Flight.landed b f).irqBits.isSome = true := by
  unfold Flight.landed
  cases h : f.irqBits <;> simp [h]

theorem map_landed_ranges (b : BitVec 2) (fs : List Flight) :
    (fs.map (Flight.landed b)).map (·.ranges) = fs.map (·.ranges) := by
  simp [List.map_map, Function.comp_def]

/-- Everything `complete` does. -/
theorem complete_succeeded (r0 r1 r2 : Nat) (s : State) : Succeeded s (complete r0 r1 r2 s) r0 r1 r2 :=
  ⟨rfl, rfl, rfl, rfl, rfl, rfl⟩

theorem complete_keepsHostWritten (r0 r1 r2 : Nat) (s : State) : KeepsHostWritten s (complete r0 r1 r2 s) :=
  ⟨rfl, rfl, rfl, rfl, rfl, rfl, rfl, rfl, rfl, rfl, map_landed_ranges _ _⟩

/-- Everything `raise` does. -/
theorem raise_failed (e : ErrCode) (s : State) : Failed s (raise e s) e := ⟨rfl, rfl, rfl, rfl, rfl, rfl⟩

theorem raise_keepsHostWritten (e : ErrCode) (s : State) : KeepsHostWritten s (raise e s) :=
  ⟨rfl, rfl, rfl, rfl, rfl, rfl, rfl, rfl, rfl, rfl, map_landed_ranges _ _⟩

/-- `raise` ends a command in error with nothing else changed. -/
theorem raise_endsInError (e : ErrCode) (s : State) : EndsInError (.next (raise e s)) s e :=
  ⟨_, rfl, raise_failed e s, raise_keepsHostWritten e s, ⟨rfl, rfl⟩, ⟨rfl, rfl⟩, rfl⟩

/-- `failStream` ends a stream command in error with the phase FAILED. -/
theorem failStream_endsFailingStream (e : ErrCode) (s : State) : EndsFailingStream (.next (failStream e s)) s e :=
  ⟨_, rfl, ⟨rfl, rfl, rfl, rfl, rfl, rfl⟩,
    ⟨rfl, rfl, rfl, rfl, rfl, rfl, rfl, rfl, rfl, rfl, map_landed_ranges _ _⟩, ⟨rfl, rfl⟩, rfl, rfl, rfl⟩

/-- `CheckRange` (R84). -/
theorem checkRange_iff (a n : Nat) : checkRange a n = true ↔ InMemory a n := by
  unfold checkRange InMemory
  rw [Bool.or_eq_true, beq_iff_eq, decide_eq_true_iff]
  rfl

/-- A written range: its bytes are stored, all others unchanged. -/
theorem write_storesAt {s t : State} {dst : Nat} {bs : List Byte} (h : t.mem = Memory.write s.mem dst bs) :
    StoresAt s t dst bs := by
  refine ⟨fun i hi => ?_, fun a ha => ?_⟩
  · rw [h, Memory.readByte_write_inside _ _ _ _ hi, List.getD_eq_getElem _ _ hi]
  · rw [h, Memory.readByte_write_outside _ _ _ _ ha]

end Sys2Proof.Machine
end

