-- ==== Sys2Proof/Laws/PerInstr.lean ====
section
/-! SUPPORT. One statement about every command as syntax: its opcode is its row of 30_encoding.md R111, and its word carries
that opcode in bits 7:0 under reserved bits that are 0 (R110). -/

namespace Sys2Proof.Laws.Encoding

/-- What the encoding of a command is made of (R110, R111). -/
def Statement (i : Instr) : Prop :=
  (opcodeOf i, i) ∈ opcodeMap ∧ opcodeField (encode i) = opcodeOf i ∧ rsvdField (encode i) = 0

theorem nop : Statement .nop := by unfold Statement; decide
theorem cfgCommit : Statement .cfgCommit := by unfold Statement; decide
theorem rsEncode : Statement .rsEncode := by unfold Statement; decide
theorem rsDecode : Statement .rsDecode := by unfold Statement; decide
theorem quant : Statement .quant := by unfold Statement; decide
theorem dequant : Statement .dequant := by unfold Statement; decide
theorem dequantBlock : Statement .dequantBlock := by unfold Statement; decide
theorem packFrame : Statement .packFrame := by unfold Statement; decide
theorem unpackFrame : Statement .unpackFrame := by unfold Statement; decide
theorem streamEncBegin : Statement .streamEncBegin := by unfold Statement; decide
theorem streamEncFrame : Statement .streamEncFrame := by unfold Statement; decide
theorem streamDecBegin : Statement .streamDecBegin := by unfold Statement; decide
theorem streamDecFrame : Statement .streamDecFrame := by unfold Statement; decide
theorem streamEnd : Statement .streamEnd := by unfold Statement; decide
theorem streamAbort : Statement .streamAbort := by unfold Statement; decide

end Sys2Proof.Laws.Encoding
end

