-- ==== Sys2Proof/Laws/Registers.lean ====
section
/-! SUPPORT. The register map, read both ways (10_state.md R33). -/

namespace Sys2Proof.Machine

/-- Every register stands in the map at its own offset. -/
theorem regAt_regOffset (r : Reg) : regAt (regOffset r) = some r := by cases r <;> decide

/-- Every register's offset is 4-byte aligned (R30). -/
theorem regOffset_aligned (r : Reg) : (regOffset r).toNat % 4 = 0 := by cases r <;> decide

end Sys2Proof.Machine
end

