-- ==== Sys2Proof/Laws/Stream.lean ====
section
/-! SUPPORT. Everything ParseHeader can do once the header codeword decodes (44_stream.md R276). -/

namespace Sys2Proof.Machine

theorem parseHeader_fail {vote : VoteMode} {frame : Nat → Byte}
    (h : rsDec (slice (unpackFrame headerGeometry vote frame) 0 Config.cwLen) Config.hdrParity [] = none) :
    parseHeader vote frame = .error .eccUncorrectable := by
  unfold parseHeader
  simp only [h]

theorem parseHeader_error {vote : VoteMode} {frame : Nat → Byte} {ok : RsResult} {e : ErrCode}
    (h : rsDec (slice (unpackFrame headerGeometry vote frame) 0 Config.cwLen) Config.hdrParity [] = some ok)
    (he : headerError ok.data = some e) : parseHeader vote frame = .error e := by
  unfold parseHeader
  simp only [h, he]

theorem parseHeader_ok {vote : VoteMode} {frame : Nat → Byte} {ok : RsResult}
    (h : rsDec (slice (unpackFrame headerGeometry vote frame) 0 Config.cwLen) Config.hdrParity [] = some ok)
    (he : headerError ok.data = none) : parseHeader vote frame = .ok (slice ok.data 2 114, ok.corrected) := by
  unfold parseHeader
  simp only [h, he]

end Sys2Proof.Machine
end

