-- ==== Sys2Proof/Tests/Slice0.lean ====
section
/-! SUPPORT. Tests. Expected results come from the spec's vectors (95_test_vectors.md, by their numbers V<n>) or from the worked
examples of its rules; and witnesses, for each statement of Certificates/Slice0 with hypotheses, that they can be met. -/

namespace Sys2Proof.Tests

open Sys2Proof Sys2Proof.Machine

set_option Elab.async false

/-! States. -/

/-- What `f` reads from the next state, if there is one. -/
def after {α : Type} (o : Host.Outcome State Fault Refusal) (f : State → α) : Option α :=
  match o with
  | .next t => some (f t)
  | .fault _ => none
  | .refused _ => none

/-- The results and the error code. -/
def results (t : State) : Nat × Nat × Nat × ErrCode := (t.res0.toNat, t.res1.toNat, t.res2.toNat, t.errCode)

/-- The command word `w` issued and run. -/
def run (w : Nat) (s : State) : Host.Outcome State Fault Refusal := step (s.withFetchWord 32 w)

/-- The reset state with operands. -/
def withArgs (src dst len aux : Word) (mem : Memory := []) (eraAddr eraCount : Word := 0) : State :=
  { State.reset with
    args := { src := src, dst := dst, len := len, aux := aux, eraAddr := eraAddr, eraCount := eraCount }, mem := mem }

/-- A configuration of block size, levels, parity, the rest as at reset. -/
def cfg (s l p : Word) (fps : Word := 30) (crf : Word := 18) : ConfigRecord :=
  { blockSize := s, levels := l, eccParity := p, fps := fps, crf := crf }

/-- The CLI defaults (10_state.md R40). -/
def dflt : ConfigRecord := cfg 8 2 64

/-- A state with a configuration. -/
def conf (c : ConfigRecord) (s : State) : State := { s with act := some c }

/-- A state in a phase. -/
def inPhase (p : Phase) (s : State) : State := { s with seq := { s.seq with phase := p } }

/-! Well-formedness: one ill-formed term for each check (20_memory.md R80, R86; 00_scope.md R5; 43_frame_codec.md R233). -/

theorem test_params_wf : Config.params.wf = true := by decide +kernel
theorem test_wf_refuses_untiled_canvas : { Config.params with canvasW := 3844 }.canvasTiles = false := by decide
theorem test_wf_refuses_wide_canvas : { Config.params with canvasW := 65536 }.canvasFits = false := by decide
theorem test_wf_refuses_small_canvas : { Config.params with canvasW := 8, canvasH := 8 }.headerFits = false := by decide +kernel
theorem test_wf_refuses_aes_polynomial : { Config.params with gfPoly := 0x11B }.polyPrimitive = false := by decide +kernel
theorem test_wf_refuses_alpha_one : { Config.params with gfAlpha := 0x01 }.alphaGenerates = false := by decide +kernel
theorem test_wf_refuses_fcr_255 : { Config.params with rsFcr := 255 }.fcrInRange = false := by decide
theorem test_wf_refuses_byte_access : hostOpWf (.regRead 0x0C 8) = false ∧ hostOpWf (.regWrite 0x10 16 0) = false := by decide
theorem test_wf_refuses_unaligned_access : hostOpWf (.regRead 0x0D 32) = false ∧ hostOpWf (.regWrite 0x82 32 0) = false := by
  decide
theorem test_wf_refuses_access_past_memory :
    hostOpWf (.memStore 0xFFFFFFFF [1, 2]) = false ∧ hostOpWf (.memLoad 0xFFFFFFFE 3) = false := by decide

/-! Decoding: the words of 30_encoding.md R110, R111, opcode in bits 7:0 under 24 zero bits; R112's illegal words. -/

theorem test_decode_nop : decode (0#24 ++ 0b00000000#8) = some .nop := by decide
theorem test_decode_cfg_commit : decode (0#24 ++ 0b00000001#8) = some .cfgCommit := by decide
theorem test_decode_rs_encode : decode (0#24 ++ 0b00010000#8) = some .rsEncode := by decide
theorem test_decode_rs_decode : decode (0#24 ++ 0b00010001#8) = some .rsDecode := by decide
theorem test_decode_quant : decode (0#24 ++ 0b00100000#8) = some .quant := by decide
theorem test_decode_dequant : decode (0#24 ++ 0b00100001#8) = some .dequant := by decide
theorem test_decode_dequant_block : decode (0#24 ++ 0b00100010#8) = some .dequantBlock := by decide
theorem test_decode_pack_frame : decode (0#24 ++ 0b00110000#8) = some .packFrame := by decide
theorem test_decode_unpack_frame : decode (0#24 ++ 0b00110001#8) = some .unpackFrame := by decide
theorem test_decode_stream_enc_begin : decode (0#24 ++ 0b01000000#8) = some .streamEncBegin := by decide
theorem test_decode_stream_enc_frame : decode (0#24 ++ 0b01000001#8) = some .streamEncFrame := by decide
theorem test_decode_stream_dec_begin : decode (0#24 ++ 0b01000010#8) = some .streamDecBegin := by decide
theorem test_decode_stream_dec_frame : decode (0#24 ++ 0b01000011#8) = some .streamDecFrame := by decide
theorem test_decode_stream_end : decode (0#24 ++ 0b01000100#8) = some .streamEnd := by decide
theorem test_decode_stream_abort : decode (0#24 ++ 0b01000101#8) = some .streamAbort := by decide

/-- Little-endian on the host bus (20_memory.md R85); the rest of the list is handed back. -/
theorem test_decode_bytes : decodeBytes [0x22, 0x00, 0x00, 0x00, 0xAA] = .ok (.dequantBlock, [0xAA]) := by decide

/-- §8: `0x00000110` and `0x46` are illegal; R112 tests the reserved bits first. -/
theorem test_decode_refuses : decodeWord 0x00000110 = .error .reservedBits ∧ decodeWord 0x46 = .error .unassignedOpcode ∧
    decodeBytes [0x10, 0, 0] = .error .truncated := by decide

/-! The window. -/

/-- §8: STATUS = 0x00000104 after the illegal word 0x110 from reset. -/
theorem test_illegal_word_status : after (run 0x110 State.reset) (fun t => readOffset 0x0C t) = some 0x00000104 := by decide

/-- §8, busy write: before the engine's step ARG_SRC keeps its value and OVERRUN is set; after it the write acts. -/
theorem test_busy_write :
    let s := { writeOffset 0x10 0 State.reset with host := [.regWrite 0x80 32 5] }
    after (step { s with sched := [.host] }) (fun t => (t.args.src, t.overrun)) = some (0, true) ∧
    after (Host.Core.run Sys2Proof.core 2 s) (fun t => (t.args.src, t.overrun)) = some (5, false) := by decide

/-- R36: SRST and CLR_OVERRUN together reset; the error code and IRQ_ENABLE are gone. -/
theorem test_soft_reset :
    writeOffset 0x08 3 { State.reset with errCode := .operand, irqEnable := 3, overrun := true } = State.reset := by decide

/-- R49: the output follows IRQ_STATUS and IRQ_ENABLE; writing 1 clears a bit (R39). -/
theorem test_irq :
    let s := { State.reset with irqStatus := 3, irqEnable := 2 }
    irqLine s = true ∧ irqLine (writeOffset 0x14 2 s) = false ∧ (writeOffset 0x14 2 s).irqStatus = 1 := by decide

/-! NOP, CFG_COMMIT. -/

/-- R140's example. -/
theorem test_nop : after (run 0x00 State.reset) (fun t => (results t, t.irqStatus, t.pending)) =
    some ((0, 0, 0, .none), 1, none) := by decide

/-- V5.1: the defaults give RES = 48600, 190, 191 and GEO_NB = 129600 (R141's example). -/
theorem test_cfg_commit : after (run 0x01 State.reset) (fun t => (results t, readOffset 0x64 t)) =
    some ((48600, 190, 191, .none), 129600) := by decide +kernel

/-- V5.2 to V5.9 in their order: the first failing test decides. -/
theorem test_validate : [cfg 7 3 64 0 99, cfg 7 2 64 0 99, cfg 8 2 255 0 52, cfg 8 2 255 30 52, cfg 8 2 255 30 51,
    cfg 120 2 255, cfg 120 2 64, cfg 120 4 64].map validate =
    [some .cfgInvalidLevels, some .cfgInvalidBlockSize, some .cfgInvalidFps, some .cfgInvalidCrf, some .cfgInvalidEcc,
     some .cfgInvalidEcc, some .cfgInvalidBlockSize, none] := by decide +kernel

/-! Reed-Solomon. -/

/-- §2.3 and §2.4. -/
theorem test_gf : gfMul 0x53 0xCA = 0x8F ∧ gfInv 0x53 = 0x8C ∧
    genPoly 8 = [0x01, 0xFF, 0x0B, 0x51, 0x36, 0xEF, 0xAD, 0xC8, 0x18] := by decide +kernel

/-- V3.1 through the command: RES0 = 8 and the codeword at ARG_DST. -/
theorem test_rs_encode :
    after (run 0x10 (withArgs 0x1000 0x2000 4 4 [(0x1000, 1), (0x1001, 2), (0x1002, 3), (0x1003, 4)]))
      (fun t => (results t, Memory.read t.mem 0x2000 8)) =
    some ((8, 0, 0, .none), [0x01, 0x02, 0x03, 0x04, 0x75, 0xA3, 0xB2, 0x60]) := by decide +kernel

/-- §3.1: `src = 0xFFFFFFFE, m = 4` gives BUS. -/
theorem test_rs_encode_bus : after (run 0x10 (withArgs 0xFFFFFFFE 0x2000 4 4)) results = some (0, 0, 0, .bus) := by decide

/-- V3.24's word at 0x2000 and its erasure list {4, 6} at 0x3000. -/
def v324 : Memory :=
  [(0x2000, 0x01), (0x2001, 0x02), (0x2002, 0x55), (0x2003, 0x04), (0x2004, 0x00), (0x2005, 0xA3), (0x2006, 0x00),
   (0x2007, 0x60), (0x3000, 4), (0x3001, 6)]

/-- V3.24 through the command, ARG_DST = ARG_SRC (R177: overlap is legal). -/
theorem test_rs_decode : after (run 0x11 (withArgs 0x2000 0x2000 8 4 v324 0x3000 2))
      (fun t => (results t, Memory.read t.mem 0x2000 5)) =
    some ((3, 1, 4, .none), [0x01, 0x02, 0x03, 0x04, 0x00]) := by decide +kernel

/-- V3.22, V3.28, V3.29, and R178's miscorrection. -/
theorem test_rs_dec : rsDec [0x00, 0x02, 0x03, 0x00, 0x75, 0x00, 0xB2, 0x60] 4 [] = none ∧
    rsDec [0x00, 0x05, 0x07, 0x00] 4 [1] = some { data := [], corrected := 2, errors := 1 } ∧
    rsDec [0x00, 0x08, 0x00, 0x94, 0x00, 0x85, 0x00] 4 [0, 2, 4, 6] =
      some { data := [0x09, 0x08, 0x07], corrected := 4, errors := 0 } ∧
    rsDec [0xD8, 0xC8, 0x1C, 0x19] 2 [] = some { data := [0xCD, 0xC8], corrected := 1, errors := 1 } := by decide +kernel

/-! The quantizer. -/

/-- V4.1 and V4.2. -/
theorem test_quant : [3, 8].map (fun i => after (run 0x20 (conf (cfg 8 8 64) (withArgs 0 0 0 i))) results) =
    [some (109, 0, 0, .none), some (0, 0, 0, .operand)] := by decide +kernel

/-- V4.5 and V4.7. -/
theorem test_dequant : [91, 164, 237, 256].map (fun v => after (run 0x21 (conf (cfg 8 8 64) (withArgs 0 0 0 v))) results) =
    [some (2, 0, 0, .none), some (5, 0, 0, .none), some (7, 0, 0, .none), some (0, 0, 0, .operand)] := by decide +kernel

/-- V4.10 in both modes. -/
theorem test_dequant_block :
    [VoteMode.mean, .majority].map (fun m => after (run 0x22
      { conf dflt (withArgs 0x4000 0 4 0 [(0x4000, 250), (0x4001, 10), (0x4002, 200), (0x4003, 120)]) with vote := m }) results) =
    [some (1, 580, 4, .none), some (0, 2, 4, .none)] := by decide +kernel

/-! The frame codec. -/

/-- V6.1: pixels of blocks 0 and 1, and V6.2: block 480. -/
theorem test_pack_pixels : [0, 1, 2, 24, 25, 26].map (packByte headerGeometry [0xA5, 0xFF]) = [0xFF, 0x00, 0xFF, 0x00, 0x00, 0xFF] ∧
    [92159, 92160, 92162, 92160 + 23 + 7 * 11520, 92160 + 24].map (packByte headerGeometry (List.replicate 180 0 ++ [0xE0])) =
      [0x00, 0xFF, 0xFF, 0xFF, 0x00] := by decide +kernel

/-- §6: `len = P + 1` raises OPERAND. -/
theorem test_pack_frame_operand : after (run 0x30 (conf dflt (withArgs 0 0 48601 0))) results = some (0, 0, 0, .operand) := by
  decide +kernel

/-- V6.6 and V6.7: the first byte unpacked from the frame of V6.1 with noise in block 0. -/
theorem test_unpack_noise :
    let packed := packByte headerGeometry [0xA5, 0xFF]
    unpackByte headerGeometry .mean (fun o => if o < 3 then [200, 60, 130].getD o 0 else packed o) 0 = 0xA5 ∧
    unpackByte headerGeometry .majority
      (fun o => if o < 4 * 11520 ∧ o % 11520 < 24 then [0, 255, 0].getD (o % 3) 0 else packed o) 0 = 0x05 := by decide +kernel

/-- §6: UNPACK_FRAME with `src = 0xFF000000` raises BUS. -/
theorem test_unpack_frame_bus : after (run 0x31 (conf dflt (withArgs 0xFF000000 0 0 0))) results = some (0, 0, 0, .bus) := by
  decide +kernel

/-! The stream. -/

/-- §7.1: the host record. -/
def hostRec : List Byte :=
  List.replicate 16 0 ++ [5, 0, 0, 0, 0, 0, 0, 0, 5, 0, 0, 0, 0, 0, 0, 0, 0, 0, 0, 0] ++ List.replicate 32 0x11 ++ List.replicate 44 0

/-- §7.1: `HB`. -/
def hdrRec : List Byte :=
  [0x56, 0x53, 0x54, 0x47, 0x01, 0x00, 0x40, 0x12, 0x08, 0x00, 0x02, 0x00, 0x1E, 0x00, 0x00, 0x00] ++
  [5, 0, 0, 0, 0, 0, 0, 0, 5, 0, 0, 0, 0, 0, 0, 0, 1, 0, 0, 0] ++ List.replicate 32 0x11 ++ List.replicate 44 0

/-- §7.1: the 64 parity bytes of the header codeword. -/
def hdrParityBytes : List Byte :=
  [0x6E, 0x4A, 0xCA, 0x0E, 0xAD, 0x4A, 0xB8, 0x72, 0xAD, 0xE3, 0xEF, 0x60, 0xB0, 0xD4, 0x86, 0x72,
   0xB1, 0xC5, 0x4E, 0x6C, 0x20, 0xEF, 0x58, 0x54, 0xAE, 0x09, 0xE4, 0x8F, 0xA1, 0xC5, 0x33, 0xA0] ++
  [0x45, 0x92, 0x23, 0x1F, 0xD3, 0x10, 0x43, 0x86, 0xD8, 0xAF, 0x17, 0x8B, 0x95, 0x43, 0x3B, 0x46,
   0x05, 0xAC, 0x9A, 0xE3, 0x6E, 0xF5, 0x9F, 0x24, 0x75, 0xFE, 0x43, 0x7B, 0x01, 0xE2, 0x29, 0x36]

/-- §7.1: `W0`. -/
def w0 : List Byte := [0x70, 0x00] ++ hdrRec ++ List.replicate 77 0 ++ hdrParityBytes

/-- P3: STREAM_ENC_BEGIN emits §7.1's record in place (`dst = src`), RES = 2, 1, 191. -/
theorem test_stream_enc_begin :
    after (run 0x40 (conf dflt (withArgs 0x10000 0x10000 0 0 (cellsAt 0x10000 hostRec))))
      (fun t => (results t, Memory.read t.mem 0x10000 112, readOffset 0x0C t)) =
    some ((2, 1, 191, .none), hdrRec, 0x00010002) := by decide +kernel

/-- §7.1: frame bytes 0..2 and 24..26 of `F_H`. -/
theorem test_header_frame_pixels :
    [0, 1, 2, 24, 25, 26].map (packByte headerGeometry (placeSlots headerGeometry [w0])) = [0x00, 0xFF, 0xFF, 0xFF, 0x00, 0x00] := by
  decide +kernel

/-- V7.1 and V7.3 to V7.9: the header data and the first failing step of R276. -/
theorem test_header_errors :
    let d := fun (lenp : Byte) (r : List Byte) => [lenp, 0x00] ++ r ++ List.replicate 77 0
    [d 0x70 hdrRec, List.replicate 191 0, d 0x70 ((hdrRec.set 3 0x48).set 4 2), d 0x70 (hdrRec.set 4 2), d 0x71 hdrRec,
      d 0x70 (hdrRec.set 5 2), d 0x70 (hdrRec.set 10 3), d 0x70 (hdrRec.set 32 2)].map headerError =
    [none, some .formatBadMagic, some .formatBadMagic, some .formatBadVersion, some .formatMalformed, some .formatMalformed,
      some .formatMalformed, some .formatMalformed] := by decide +kernel

/-- 93_implementation_defined.md item 18: a non-zero reserved byte, 108 or 111, or flags bit 7, of the host record raises
OPERAND. -/
theorem test_stream_enc_begin_reserved :
    [hostRec.set 108 1, hostRec.set 111 0x80, hostRec.set 5 0x80].map (fun r =>
      after (run 0x40 (conf dflt (withArgs 0x10000 0x10000 0 0 (cellsAt 0x10000 r)))) results) =
    List.replicate 3 (some (0, 0, 0, .operand)) := by decide +kernel

/-- §8: STREAM_ENC_FRAME in IDLE raises SEQUENCE. -/
theorem test_stream_enc_frame_idle : after (run 0x41 State.reset) results = some (0, 0, 0, .sequence) := by decide

/-- R290's example: SEQ_PHASE = 3 after reset; §8: not in DEC_HEADER again. -/
theorem test_stream_dec_begin : after (run 0x42 State.reset) (fun t => readOffset 0xC0 t) = some 3 ∧
    after (run 0x42 (inPhase .decHeader State.reset)) results = some (0, 0, 0, .sequence) := by decide

/-- §8: STREAM_DEC_FRAME in DONE raises SEQUENCE, the phase stays. -/
theorem test_stream_dec_frame_done : after (run 0x43 (inPhase .done State.reset)) (fun t => readOffset 0x0C t) =
    some 0x00050504 := by decide

/-- P4 (without CFG_VALID): STREAM_END in DEC_PAYLOAD; §8: in ENC_HEADER. -/
theorem test_stream_end : after (run 0x44 (inPhase .decPayload State.reset)) (fun t => readOffset 0x0C t) = some 0x00063304 ∧
    after (run 0x44 (inPhase .encHeader State.reset)) (fun t => readOffset 0x0C t) = some 0x00060604 := by decide

/-- R297's example. -/
theorem test_stream_abort : after (run 0x45 (inPhase .decPayload State.reset)) (fun t => readOffset 0x0C t) = some 0 := by decide

/-- §8: V8.2 to V8.4, PF for the payload length. -/
theorem test_stream_counts : payloadFrameCount (configGeometry dflt) 36290 = 1 ∧ payloadFrameCount (configGeometry dflt) 36291 = 2 ∧
    payloadFrameCount (configGeometry (cfg 8 8 64)) 1000000 = 10 ∧ payloadFrameCount (configGeometry dflt) 0 = 0 := by decide +kernel

/-! Witnesses: concrete states and operands that meet the hypotheses of the statements, clause by clause. -/

theorem witness_DecodeInvertsEncode : Instr.wf .streamAbort = true := by decide

theorem witness_DecodingIsExact : 256 ≤ (0x100 : Word).toNat ∧ (0xFF : Word).toNat < 256 ∧ (0xFF : Word) ∉ commandWords ∧
    decode 0x45 = some .streamAbort := by decide

/-- The engine's moves and the host's, scheduled and not; an agent with nothing to do. -/
theorem witness_StepRunsDecodedCommand :
    let s := State.reset.withFetchWord 32 0x01
    let h := { State.reset with host := [.regRead 0x0C 32, .wait], sched := [.host] }
    (s.pending = some 0x01 ∧ decode 0x01 = some .cfgCommit ∧ s.sched = .engine :: [] ∧ { s with sched := [] }.sched = []) ∧
    (h.host = .regRead 0x0C 32 :: [.wait] ∧ h.sched = .host :: [] ∧ { h with sched := [] }.pending = none) ∧
    (State.reset.host = [] ∧ State.reset.sched = [] ∧ State.reset.pending = none ∧
      { State.reset with sched := [.engine] }.sched = .engine :: []) := by decide

theorem witness_IllegalWordEndsInIllegalCmd :
    (State.reset.withFetchWord 32 0x46).pending = some 0x46 ∧ (0x46 : Word) ∉ commandWords ∧
    (State.reset.withFetchWord 32 0x110).pending = some 0x110 ∧ (0x110 : Word) ∉ commandWords ∧
    (State.reset.withFetchWord 32 0x46).sched = .engine :: [] ∧ (writeOffset 0x10 0x46 State.reset).sched = [] := by decide

/-- R142's tests 1 to 5 on the default canvas, as the statement writes them, and test 6. -/
def failing (c : ConfigRecord) : List Bool :=
  [decide (c.levels.toNat ∉ [2, 4, 8, 16, 32, 64, 128, 256]),
   decide (c.blockSize.toNat = 0 ∨ 3840 % c.blockSize.toNat ≠ 0 ∨ 2160 % c.blockSize.toNat ≠ 0),
   decide (c.fps.toNat = 0), decide (51 < c.crf.toNat), decide (254 < c.eccParity.toNat), decide (codewordsPerFrame c = 0)]

/-- One configuration for each clause, at the boundaries: `L = 512`, `S = 0`, `S = 7`, `crf = 52`, `p = 255`, `C = 0`, all pass. -/
theorem witness_ValidateFirstFailingTestDecides :
    [cfg 8 512 64, cfg 0 2 64, cfg 7 2 64, cfg 8 2 64 0, cfg 8 2 64 1 52, cfg 8 2 255 1 51, cfg 120 2 254 1 51,
      cfg 120 4 254 1 51].map failing =
    [[true, false, false, false, false, false], [false, true, false, false, false, true],
     [false, true, false, false, false, false], [false, false, true, false, false, false],
     [false, false, false, true, false, false], [false, false, false, false, true, false],
     [false, false, false, false, false, true], [false, false, false, false, false, false]] := by decide +kernel

theorem witness_AcceptedConfigurations :
    0 < (cfg 240 32 254 1 51).fps.toNat ∧ (cfg 240 32 254 1 51).crf.toNat ≤ 51 ∧ (cfg 240 32 254 1 51).eccParity.toNat ≤ 254 := by
  decide

theorem witness_CfgCommitRule :
    (inPhase .encHeader State.reset).seq.phase ∈ [Phase.encHeader, .encPayload, .decHeader, .decPayload] ∧
    State.reset.seq.phase ∉ [Phase.encHeader, .encPayload, .decHeader, .decPayload] ∧
    validate { State.reset with staging := cfg 8 3 64 }.staging = some .cfgInvalidLevels ∧
    validate State.reset.staging = none := by decide +kernel

theorem witness_GfMulObeysFieldLaws : gfMul 0x53 0x00 = 0 := by decide

theorem witness_AlphaIsPrimitive : (0xFF : Byte) ≠ 0 ∧ 253 < 254 ∧ 254 < 255 := by decide

theorem witness_GeneratorPolynomialHasItsRoots : 255 ≤ 255 ∧ 254 < 255 := by decide

theorem witness_RsEncIsSystematicCodeword : (List.replicate 191 (0x5A : Byte)).length + 64 ≤ 255 := by decide +kernel

/-- V3.1's codeword, V3.21's word (2 errors) and V3.24's (1 error, 2 erasures), both on the edge of the radius. -/
theorem witness_RsMemberInRadiusIsUnique :
    let c : List Byte := [0x01, 0x02, 0x03, 0x04, 0x75, 0xA3, 0xB2, 0x60]
    let r : List Byte := [0x01, 0x02, 0x55, 0x04, 0x00, 0xA3, 0x00, 0x60]
    r.length = 8 ∧ ErasuresLegal 8 4 [4, 6] ∧ RsMember 8 4 c ∧ 2 * differCount 8 c r [4, 6] + [4, 6].length = 4 := by
  unfold ErasuresLegal RsMember; decide +kernel

theorem witness_RsDecResultIsMemberInRadius :
    let r : List Byte := [0x00, 0x02, 0x03, 0x04, 0x75, 0xA3, 0xB2, 0x61]
    r.length ≤ 255 ∧ 4 ≤ r.length ∧ ErasuresLegal r.length 4 [] ∧
    rsDec r 4 [] = some { data := [0x01, 0x02, 0x03, 0x04], corrected := 2, errors := 2 } := by
  unfold ErasuresLegal; decide +kernel

theorem witness_RsDecFindsMemberInRadius :
    let c : List Byte := [0x01, 0x02, 0x03, 0x04, 0x75, 0xA3, 0xB2, 0x60]
    let r : List Byte := [0x00, 0x02, 0x03, 0x04, 0x75, 0xA3, 0xB2, 0x61]
    r.length ≤ 255 ∧ 4 ≤ r.length ∧ ErasuresLegal r.length 4 [] ∧ RsMember r.length 4 c ∧
    2 * differCount r.length c r [] + 0 = 4 := by
  unfold ErasuresLegal RsMember; decide +kernel

theorem witness_RsEncodeRule :
    254 < (withArgs 0 0 0 255).args.aux.toNat ∧
    ((withArgs 0 0 252 4).args.aux.toNat ≤ 254 ∧ 255 < (withArgs 0 0 252 4).args.len.toNat + 4) ∧
    ((withArgs 0xFFFFFFFD 0 4 4).args.len.toNat + 4 ≤ 255 ∧ ¬InMemory (argSrc (withArgs 0xFFFFFFFD 0 4 4)) 4) ∧
    ((withArgs 0xFFFFFFFC 0xFFFFFF01 4 251).args.len.toNat + 251 ≤ 255 ∧
      InMemory (argSrc (withArgs 0xFFFFFFFC 0xFFFFFF01 4 251)) 4 ∧
      InMemory (argDst (withArgs 0xFFFFFFFC 0xFFFFFF01 4 251)) 255) := by
  unfold InMemory; decide

/-- The clauses of the statement, in order: the parity operand, `n = 256`, `n < p`, `f > p`, a range, the list {8}, V3.22, V3.24. -/
theorem witness_RsDecodeRule :
    let word : List Byte := [0x00, 0x02, 0x03, 0x00, 0x75, 0x00, 0xB2, 0x60]
    let s22 := withArgs 0x2000 0x2000 8 4 (cellsAt 0x2000 word)
    let s24 := withArgs 0x2000 0x2000 8 4 v324 0x3000 2
    let era := (Memory.read s24.mem 0x3000 2).map (·.toNat)
    254 < (withArgs 0 0 8 0x104).args.aux.toNat ∧
    255 < (withArgs 0 0 256 4).args.len.toNat ∧ (withArgs 0 0 3 4).args.len.toNat < 4 ∧
    4 < (withArgs 0 0 8 4 [] 0 5).args.eraCount.toNat ∧
    ¬InMemory (argEraAddr (withArgs 0 0 8 4 [] 0xFFFFFFFF 2)) 2 ∧
    ¬ErasuresLegal 8 4 ((Memory.read (withArgs 0 0 8 4 [(0x3000, 8)] 0x3000 1).mem 0x3000 1).map (·.toNat)) ∧
    (InMemory (argSrc s22) 8 ∧ InMemory (argEraAddr s22) 0 ∧ InMemory (argDst s22) (8 - 4) ∧ ErasuresLegal 8 4 [] ∧
      rsDec (Memory.read s22.mem (argSrc s22) 8) 4 [] = none) ∧
    (InMemory (argSrc s24) 8 ∧ InMemory (argEraAddr s24) 2 ∧ InMemory (argDst s24) (8 - 4) ∧ ErasuresLegal 8 4 era ∧
      rsDec (Memory.read s24.mem (argSrc s24) 8) 4 era =
        some { data := [0x01, 0x02, 0x03, 0x04], corrected := 3, errors := 1 }) := by
  unfold InMemory ErasuresLegal; decide +kernel

theorem witness_QuantRule : State.reset.act = none ∧ (conf dflt State.reset).act = some dflt ∧
    dflt.levels.toNat ≤ (withArgs 0 0 0 2).args.aux.toNat ∧ (withArgs 0 0 0 1).args.aux.toNat < dflt.levels.toNat := by decide

theorem witness_DequantRule : State.reset.act = none ∧ (conf dflt State.reset).act = some dflt ∧
    255 < (withArgs 0 0 0 256).args.aux.toNat ∧ (withArgs 0 0 0 255).args.aux.toNat ≤ 255 := by decide

theorem witness_DequantBlockRule :
    (withArgs 0 0 0 0).args.len.toNat = 0 ∧ 65535 < (withArgs 0 0 65536 0).args.len.toNat ∧
    ¬InMemory (argSrc (withArgs 0xFFFFFFFF 0 2 0)) 2 ∧
    ((withArgs 0 0 65535 0).args.len.toNat ≠ 0 ∧ (withArgs 0 0 65535 0).args.len.toNat ≤ 65535 ∧
      InMemory (argSrc (withArgs 0xFFFF0001 0 65535 0)) 65535) ∧
    (State.reset.vote = .mean ∧ { State.reset with vote := .majority }.vote = .majority) ∧ validate dflt = none := by
  unfold InMemory; decide +kernel

theorem witness_GuardBandMargins : (8, 17) ∈ guardMargins ∧ 7 < 8 ∧ quantLevel 8 6 = 219 ∧ 236 ≤ quantLevel 8 6 + 17 := by decide

theorem witness_MeanIndexIsNearestLevel : 256 ∈ legalLevels ∧ [(0xFF : Byte)] ≠ [] := by decide

theorem witness_PackFramePixels : validate dflt = none ∧ (List.replicate 48600 (0xA5 : Byte)).length = payloadBytes dflt ∧
    129599 < blocksPerFrame dflt ∧ 7 < dflt.blockSize.toNat := by
  refine ⟨by decide +kernel, ?_, by decide +kernel, by decide⟩
  rw [List.length_replicate]
  decide +kernel

/-- Noise of the full margin 127 on `L = 2`, toward the other level. -/
theorem witness_UnpackToleratesGuardBandNoise :
    let buf := List.replicate (payloadBytes dflt) (0x00 : Byte)
    let packed := packFrame (configGeometry dflt) buf
    let frame := fun o => if (packed.getD o 0).toNat < 128 then packed.getD o 0 + 127 else packed.getD o 0 - 127
    validate dflt = none ∧ (dflt.levels.toNat, 127) ∈ guardMargins ∧ buf.length = payloadBytes dflt ∧
    ∀ o, o < 24883200 → (frame o).toNat ≤ (packed.getD o 0).toNat + 127 ∧ (packed.getD o 0).toNat ≤ (frame o).toNat + 127 := by
  refine ⟨by decide +kernel, by decide, List.length_replicate .., fun o _ => ?_⟩
  simp only []
  generalize (packFrame (configGeometry dflt) (List.replicate (payloadBytes dflt) 0x00)).getD o 0 = b
  revert b
  decide +kernel

theorem witness_PackFrameRule :
    State.reset.act = none ∧ payloadBytes dflt < (withArgs 0 0 48601 0).args.len.toNat ∧
    ((withArgs 0 0 48600 0).args.len.toNat ≤ payloadBytes dflt ∧ ¬InMemory (argDst (withArgs 0 0xFE845001 48600 0)) 24883200) ∧
    (InMemory (argSrc (withArgs 0xFFFF4228 0xFE845000 48600 0)) 48600 ∧
      InMemory (argDst (withArgs 0xFFFF4228 0xFE845000 48600 0)) 24883200) := by
  unfold InMemory; decide +kernel

theorem witness_UnpackFrameRule :
    State.reset.act = none ∧ (conf dflt State.reset).act = some dflt ∧
    ¬InMemory (argSrc (withArgs 0xFF000000 0 0 0)) 24883200 ∧
    (InMemory (argSrc (withArgs 0xFE845000 0xFFFF4228 0 0)) 24883200 ∧
      InMemory (argDst (withArgs 0xFE845000 0xFFFF4228 0 0)) (payloadBytes dflt)) ∧
    validate (cfg 48 32 254) = none ∧ 3599 < blocksPerFrame (cfg 48 32 254) ∧ 2 < 3 ∧
    4 < Nat.log2 (cfg 48 32 254).levels.toNat := by
  unfold InMemory; decide +kernel

/-- The host record of §7.1 with its flags byte changed. -/
def recWithFlags (b : Byte) : List Byte := List.replicate 5 0 ++ [b] ++ hostRec.drop 6

/-- The clauses in order; flags 2; byte 111 not 0; a `payload_len` of 2^64 - 1, whose `PF` is above 2^32 - 2. -/
theorem witness_StreamEncBeginPreconditions :
    let flags := withArgs 0xFFFFFF90 0 0 0 (cellsAt 0xFFFFFF90 (recWithFlags 2))
    let last := withArgs 0xFFFFFF90 0 0 0 (cellsAt 0xFFFFFF90 (hostRec.set 111 1))
    let long := withArgs 0xFFFFFF90 0 0 0 (cellsAt 0xFFFFFF90 (hostRec.take 24 ++ List.replicate 8 0xFF ++ hostRec.drop 32))
    State.reset.act = none ∧ (conf dflt State.reset).act = some dflt ∧
    (inPhase .decHeader State.reset).seq.phase ∉ [Phase.idle, .done, .failed] ∧
    (State.reset.seq.phase ∈ [Phase.idle, .done, .failed] ∧ ¬InMemory (argDst (withArgs 0 0xFFFFFF91 0 0)) 112) ∧
    (InMemory (argSrc flags) 112 ∧ InMemory (argDst flags) 112 ∧
      2 ≤ ((Memory.read flags.mem (argSrc flags) 112).getD 5 0).toNat) ∧
    (InMemory (argSrc last) 112 ∧ slice (Memory.read last.mem (argSrc last) 112) 108 112 ≠ [0, 0, 0, 0]) ∧
    (2 ^ 32 - 2 < ceilDiv (ceilDiv (leNat (slice (Memory.read long.mem (argSrc long) 112) 24 32)) (dataBytes dflt))
      (codewordsPerFrame dflt)) := by
  unfold InMemory; decide +kernel

theorem witness_StreamEncBeginResult :
    let s := conf dflt (withArgs 0xFFFFFF90 0 0 0 (cellsAt 0xFFFFFF90 (recWithFlags 1)))
    let h := Memory.read s.mem (argSrc s) 112
    s.act = some dflt ∧ validate dflt = none ∧ s.seq.phase ∈ [Phase.idle, .done, .failed] ∧ InMemory (argSrc s) 112 ∧
    InMemory (argDst s) 112 ∧ (h.getD 5 0).toNat < 2 ∧ slice h 108 112 = [0, 0, 0, 0] ∧
    ceilDiv (ceilDiv (leNat (slice h 24 32)) (dataBytes dflt)) (codewordsPerFrame dflt) = 1 := by
  unfold InMemory; decide +kernel

theorem witness_HeaderPayloadLayout : hdrRec.length = 112 ∧ 255 ≤ 255 := by decide

theorem witness_StreamEncFrameHeaderAndErrors :
    State.reset.seq.phase ∉ [Phase.encHeader, .encPayload] ∧
    ((inPhase .encHeader (withArgs 0 0xFE845001 0 0)).seq.phase = .encHeader ∧
      ¬InMemory (argDst (inPhase .encHeader (withArgs 0 0xFE845001 0 0))) 24883200) ∧
    ((inPhase .encPayload (withArgs 0 0xFE845001 0 0)).seq.phase = .encPayload ∧
      ¬InMemory (argDst (inPhase .encPayload (withArgs 0 0xFE845001 0 0))) 24883200) ∧
    InMemory (argDst (inPhase .encHeader (withArgs 0 0xFE845000 0 0))) 24883200 := by
  unfold InMemory; decide

theorem witness_StreamDecBeginRule : (inPhase .encHeader State.reset).seq.phase ∉ [Phase.idle, .done, .failed] ∧
    (inPhase .failed State.reset).seq.phase ∈ [Phase.idle, .done, .failed] := by decide

theorem witness_StreamDecFramePreconditions :
    State.reset.seq.phase ∉ [Phase.decHeader, .decPayload] ∧
    ¬InMemory (argDst (inPhase .decHeader (withArgs 0 0xFFFFFF91 0 0))) 112 ∧
    ¬InMemory (argSrc (inPhase .decPayload (withArgs 0xFE845001 0 0 0))) 24883200 := by
  unfold InMemory; decide

/-! States in the middle of a stream that meet the invariant, with a frame in memory. -/

/-- One payload frame of `rem` bytes is left; the frame to read lies at `0x01000000`. -/
def midStream (p : Phase) (c : ConfigRecord) (rem : BitVec 64) (mem : Memory) : State :=
  { inPhase p (conf c (withArgs 0x01000000 0x10000000 0 0 mem)) with
    seq := { phase := p, frameIdx := 1, totalFrames := 2, bytesRem := rem, correctedTotal := 0, cwDone := 0 } }

theorem midStream_inv {p : Phase} {c : ConfigRecord} {rem : BitVec 64} {mem : Memory} (hp : p = .encPayload ∨ p = .decPayload)
    (hc : validate c = none) (hm : Memory.wf mem) (hr : payloadFrameCount (configGeometry c) rem.toNat = 1) :
    (midStream p c rem mem).Inv := by
  refine ⟨hm, List.length_replicate .., fun c' h => by cases h; exact hc, ?_, fun f hf => (by cases hf),
    fun h => Bool.noConfusion (show false = true from h)⟩
  have hl : framesLeft (midStream p c rem mem) = 1 := hr
  rcases hp with rfl | rfl <;> exact ⟨rfl, (by decide : 1 ≤ (1 : Word).toNat), by rw [hl],
    by rw [hl]; exact (by decide : (2 : Word).toNat = (1 : Word).toNat + 1)⟩

/-- A full frame of 36290 bytes (V8.2). -/
theorem witness_StreamEncFramePayload :
    let s := midStream .encPayload dflt 36290 []
    s.Inv ∧ s.seq.phase = .encPayload ∧ s.act = some dflt ∧
    InMemory (argSrc s) (min s.seq.bytesRem.toNat (codewordsPerFrame dflt * dataBytes dflt)) ∧
    InMemory (argDst s) 24883200 := by
  refine ⟨midStream_inv (.inl rfl) (by decide +kernel) Memory.wf_nil (by decide +kernel), rfl, rfl, ?_, ?_⟩ <;>
    (unfold InMemory; decide +kernel)

/-- Memory with the frame that carries one codeword, `w` in slot 0. -/
def frameMem (g : Geometry) (w : List Byte) : Memory := Memory.write [] 0x01000000 (packFrame g (placeSlots g [w]))

theorem frameMem_wf (g : Geometry) (w : List Byte) (h : frameLen g = 24883200) : Memory.wf (frameMem g w) := by
  refine Memory.wf_write Memory.wf_nil ?_
  rw [length_packFrame, h]
  decide

/-- What a decoder finds in slot 0 of that frame. -/
theorem slot0_frameMem {g : Geometry} (hg : GeometryTiles g) (vote : VoteMode) (w : List Byte) (hw : w.length = 255)
    (hp : 255 ≤ g.pay) : slice (unpackFrame g vote (frameAt (frameMem g w) 0x01000000)) 0 Config.cwLen = w := by
  rw [unpackFrame_packed (frame := frameAt (frameMem g w) 0x01000000) hg vote (placeSlots g [w])
    (fun o ho => frameAt_write [] 0x01000000 g (placeSlots g [w]) o ho)]
  · simp [slice, placeSlots, List.take_left' hw, Config.cwLen]
  · simp [placeSlots, pad, hw, Config.cwLen]
    omega

/-- A codeword in slot 0 decodes to its data. -/
theorem rsDec_frameMem {g : Geometry} (hg : GeometryTiles g) (vote : VoteMode) (w : List Byte) (hw : w.length = 255)
    (hp : 255 ≤ g.pay) {p : Nat} (hc : isCodeword p w = true) :
    rsDec (slice (unpackFrame g vote (frameAt (frameMem g w) 0x01000000)) 0 Config.cwLen) p [] =
      some { data := w.take (255 - p), corrected := 0, errors := 0 } := by
  rw [slot0_frameMem hg vote w hw hp, rsDec_codeword hc, hw]

theorem isCodeword_zeros (n p : Nat) : isCodeword p (List.replicate n 0) = true := by
  simp only [isCodeword, syndromes, List.all_map, List.all_eq_true]
  intro j _
  exact beq_iff_eq.2 (polyEval_replicate_zero n _)

set_option maxRecDepth 100000 in
/-- §7.1: `W0` is a codeword. -/
theorem w0_isCodeword : isCodeword 64 w0 = true := isCodeword_of_nat (by decide) (by decide +kernel)

theorem w0_length : w0.length = 255 := by decide +kernel

/-- The state that decodes a header frame. -/
def headerState (w : List Byte) : State := inPhase .decHeader (withArgs 0x01000000 0x10000000 0 0 (frameMem headerGeometry w))

theorem headerState_src (w : List Byte) : argSrc (headerState w) = 0x01000000 := rfl
theorem headerState_dst (w : List Byte) : argDst (headerState w) = 0x10000000 := rfl
theorem headerState_mem (w : List Byte) : (headerState w).mem = frameMem headerGeometry w := rfl
theorem headerState_vote (w : List Byte) : (headerState w).vote = .mean := rfl
theorem headerState_ranges (w : List Byte) : (headerState w).seq.phase = .decHeader ∧
    InMemory (argSrc (headerState w)) 24883200 ∧ InMemory (argDst (headerState w)) 112 := by
  rw [headerState_src, headerState_dst]
  exact ⟨rfl, .inr (by decide), .inr (by decide)⟩

theorem header_pay : 255 ≤ headerGeometry.pay := by decide +kernel

/-- V7.5's word: §7.1's with version 2. -/
def wVersion : List Byte := [0x70, 0x00] ++ hdrRec.set 4 2 ++ List.replicate 77 0 ++
  [0x9E, 0x3D, 0x47, 0x25, 0x38, 0x4B, 0x3F, 0x52, 0xCE, 0xCE, 0x68, 0x94, 0x44, 0x81, 0xD4, 0x30,
   0x5C, 0x55, 0x67, 0xEC, 0xB6, 0x17, 0x2E, 0x56, 0x64, 0x21, 0x4D, 0x80, 0x4A, 0x32, 0x97, 0x6C] ++
  [0xB8, 0xBB, 0x7C, 0x28, 0xB8, 0x2F, 0xCE, 0xBD, 0xF0, 0x37, 0x57, 0x8D, 0x2F, 0x4E, 0xB5, 0x18,
   0x21, 0x5C, 0x3B, 0xA8, 0xF7, 0x5C, 0xD4, 0x0D, 0x88, 0x62, 0x11, 0xD3, 0x85, 0xC3, 0xD9, 0x38]

/-- V7.6's word: §7.1's with the length prefix `71 00`. -/
def wPrefix : List Byte := [0x71, 0x00] ++ hdrRec ++ List.replicate 77 0 ++
  [0xE1, 0x65, 0xC5, 0x00, 0x8A, 0x8A, 0xDA, 0xB6, 0x67, 0xB8, 0xBB, 0x98, 0x99, 0xEC, 0xBB, 0xC0,
   0x78, 0xD7, 0x0A, 0xFD, 0xD6, 0xBB, 0x5D, 0xFE, 0x92, 0x9C, 0x09, 0x86, 0x6A, 0xED, 0x75, 0x45] ++
  [0xD3, 0x65, 0xD2, 0xAF, 0x20, 0x08, 0x6F, 0xFA, 0x64, 0xFE, 0xC0, 0x37, 0x53, 0x15, 0x6D, 0xE2,
   0xED, 0x2C, 0xE5, 0x26, 0xD6, 0x33, 0x11, 0xCC, 0xD5, 0xC3, 0xDF, 0x0B, 0xCC, 0xBA, 0xBF, 0xBD]

/-- A word with 255 symbols 1, which no codeword is near: only its first syndrome is not 0. -/
def wOnes : List Byte := List.replicate 255 0x01

set_option maxRecDepth 100000 in
theorem wVersion_isCodeword : isCodeword 64 wVersion = true := isCodeword_of_nat (by decide) (by decide +kernel)

set_option maxRecDepth 100000 in
theorem wPrefix_isCodeword : isCodeword 64 wPrefix = true := isCodeword_of_nat (by decide) (by decide +kernel)

set_option maxRecDepth 100000 in
theorem syndromes_wOnes : syndromes wOnes 64 = 0x01 :: List.replicate 63 0 :=
  syndromes_of_nat (by decide) (by decide +kernel)

theorem errorLocator_first_syndrome : errorLocator 64 (0x01 :: List.replicate 63 0) [] = some (0x01 :: List.replicate 32 0) := by
  decide +kernel

/-- With one syndrome not 0, the first, the only error locator is 1: the proposal is the received word, which is no codeword. -/
theorem rsDec_first_syndrome {r : List Byte} (h : syndromes r 64 = 0x01 :: List.replicate 63 0) : rsDec r 64 [] = none := by
  have hc : candidate r 64 [] = some r := by
    unfold candidate
    simp only [h, List.map_nil, errorLocator_first_syndrome, Option.map_some, evalLow_one, List.nil_append]
    rw [List.filter_eq_nil_iff.2, fillPositions_nil]
    intro i _
    simp
  have hn : isCodeword 64 r = false := by rw [isCodeword, h, List.all_cons]; rfl
  unfold rsDec
  simp [hc, hn]

/-- A state that meets the statement's hypotheses and finds `res` in the header codeword of its frame. -/
def FindsHeader (res : Option RsResult) : Prop :=
  ∃ s : State, s.seq.phase = .decHeader ∧ InMemory (argSrc s) 24883200 ∧ InMemory (argDst s) 112 ∧
    rsDec (slice (unpackFrame (configGeometry dflt) s.vote fun o => Memory.readByte s.mem (argSrc s + o)) 0 255) 64 [] = res

theorem findsHeader {w : List Byte} {res : Option RsResult} (hw : w.length = 255) (h : rsDec w 64 [] = res) :
    FindsHeader res := by
  obtain ⟨h1, h2, h3⟩ := headerState_ranges w
  refine ⟨headerState w, h1, h2, h3, ?_⟩
  rw [headerState_vote, headerState_mem, headerState_src]
  rw [← h]
  exact congrArg (rsDec · 64 []) (slot0_frameMem headerGeometry_tiles .mean w hw header_pay)

theorem findsHeader_codeword {w : List Byte} (hw : w.length = 255) (h : isCodeword 64 w = true) :
    FindsHeader (some { data := w.take 191, corrected := 0, errors := 0 }) :=
  findsHeader hw (by rw [rsDec_codeword h, hw])

/-- The clauses in order: `wOnes`; V7.3, a black frame, whose word is a codeword; V7.5; V7.6; V7.1, `F_H` of §7.1. -/
theorem witness_StreamDecFrameHeader :
    let hdr := fun w : List Byte => slice (w.take 191) 2 114
    let ok := fun w : List Byte => FindsHeader (some { data := w.take 191, corrected := 0, errors := 0 })
    FindsHeader none ∧
    (ok (List.replicate 255 0) ∧ slice (hdr (List.replicate 255 0)) 0 4 ≠ [0x56, 0x53, 0x54, 0x47]) ∧
    (ok wVersion ∧ slice (hdr wVersion) 0 4 = [0x56, 0x53, 0x54, 0x47] ∧ (hdr wVersion).getD 4 0 ≠ 1) ∧
    (ok wPrefix ∧ slice (hdr wPrefix) 0 4 = [0x56, 0x53, 0x54, 0x47] ∧ (hdr wPrefix).getD 4 0 = 1 ∧
      leNat (slice (wPrefix.take 191) 0 2) ≠ 112) ∧
    (ok w0 ∧ slice (hdr w0) 0 4 = [0x56, 0x53, 0x54, 0x47] ∧ (hdr w0).getD 4 0 = 1 ∧ leNat (slice (w0.take 191) 0 2) = 112 ∧
      ((hdr w0).getD 5 0).toNat < 2 ∧ slice (hdr w0) 108 112 = [0, 0, 0, 0] ∧ recordConfig (hdr w0) = dflt ∧
      validate dflt = none ∧ leNat (slice (hdr w0) 32 36) = 1 ∧
      1 = ceilDiv (leNat (slice (hdr w0) 24 32)) (codewordsPerFrame dflt * dataBytes dflt)) :=
  ⟨findsHeader List.length_replicate (rsDec_first_syndrome syndromes_wOnes),
    ⟨findsHeader_codeword List.length_replicate (isCodeword_zeros 255 64), by decide +kernel⟩,
    ⟨findsHeader_codeword (by decide +kernel) wVersion_isCodeword, by decide +kernel⟩,
    ⟨findsHeader_codeword (by decide +kernel) wPrefix_isCodeword, by decide +kernel⟩,
    findsHeader_codeword w0_length w0_isCodeword, by decide +kernel⟩

/-- V7.1: the record the decoder finds is §7.1's. -/
theorem test_header_record : slice (w0.take 191) 2 114 = hdrRec := by decide

/-- A word of 255 bytes, `b` first, then zeros. -/
def impulse (b : Byte) : List Byte := b :: List.replicate 254 0

theorem impulse_length (b : Byte) : (impulse b).length = 255 := by
  rw [impulse, List.length_cons, List.length_replicate]

/-- The state that decodes a payload frame of one byte, with parity `p`. -/
def payloadState (p : Word) : State :=
  midStream .decPayload (cfg 8 2 p) 1 (frameMem (configGeometry (cfg 8 2 p)) (impulse 0x41))

theorem payloadState_src (p : Word) : argSrc (payloadState p) = 0x01000000 := rfl
theorem payloadState_mem (p : Word) : (payloadState p).mem = frameMem (configGeometry (cfg 8 2 p)) (impulse 0x41) := rfl
theorem payloadState_vote (p : Word) : (payloadState p).vote = .mean := rfl
theorem payloadState_dst (p : Word) : argDst (payloadState p) = 0x10000000 := rfl
theorem payloadState_ranges (p : Word) : (payloadState p).seq.phase = .decPayload ∧ (payloadState p).act = some (cfg 8 2 p) ∧
    (payloadState p).seq.bytesRem = 1 ∧ InMemory (argSrc (payloadState p)) 24883200 ∧ InMemory (argDst (payloadState p)) 1 := by
  rw [payloadState_src, payloadState_dst]
  exact ⟨rfl, rfl, rfl, .inr (by decide), .inr (by decide)⟩

theorem payloadState_inv : (payloadState 1).Inv ∧ (payloadState 0).Inv :=
  ⟨midStream_inv (.inr rfl) (by decide +kernel) (frameMem_wf _ _ (by decide +kernel)) (by decide +kernel),
    midStream_inv (.inr rfl) (by decide +kernel) (frameMem_wf _ _ (by decide +kernel)) (by decide +kernel)⟩

theorem tiles1 : GeometryTiles (configGeometry (cfg 8 2 1)) := by constructor <;> decide +kernel
theorem tiles0 : GeometryTiles (configGeometry (cfg 8 2 0)) := by constructor <;> decide +kernel

/-- One byte left, one codeword (`u = 1`): with `p = 1` a word with one byte not 0 fails; with `p = 0` every word is its own
codeword (R173). -/
theorem witness_StreamDecFramePayload :
    (∃ s, s = payloadState 1 ∧ s.Inv ∧ (s.seq.phase = .decPayload ∧ s.act = some (cfg 8 2 1) ∧ s.seq.bytesRem = 1 ∧
      InMemory (argSrc s) 24883200 ∧ InMemory (argDst s) 1) ∧ 0 < ceilDiv 1 (dataBytes (cfg 8 2 1)) ∧
      rsDec (slice (unpackFrame (configGeometry (cfg 8 2 1)) s.vote (frameAt s.mem (argSrc s))) 0 Config.cwLen) 1 [] = none) ∧
    (∃ s, s = payloadState 0 ∧ s.Inv ∧ (s.seq.phase = .decPayload ∧ s.act = some (cfg 8 2 0) ∧ s.seq.bytesRem = 1 ∧
      InMemory (argSrc s) 24883200 ∧ InMemory (argDst s) 1) ∧ 1 = ceilDiv 1 (dataBytes (cfg 8 2 0)) ∧
      rsDec (slice (unpackFrame (configGeometry (cfg 8 2 0)) s.vote (frameAt s.mem (argSrc s))) 0 Config.cwLen) 0 [] =
        [({ data := (impulse 0x41).take (255 - 0), corrected := 0, errors := 0 } : RsResult)][0]?) := by
  refine ⟨⟨_, rfl, payloadState_inv.1, payloadState_ranges _, by decide, ?_⟩, _, rfl, payloadState_inv.2, payloadState_ranges _,
    by decide, ?_⟩ <;> rw [payloadState_vote, payloadState_mem, payloadState_src]
  · rw [slot0_frameMem tiles1 _ _ (impulse_length _) (by decide +kernel)]
    decide +kernel
  · exact rsDec_frameMem tiles0 _ _ (impulse_length _) (by decide +kernel) rfl

theorem witness_StreamEndRule : (inPhase .failed State.reset).seq.phase ∈ [Phase.idle, .failed] ∧
    (inPhase .done State.reset).seq.phase = .done ∧
    (inPhase .decHeader State.reset).seq.phase ∈ [Phase.decHeader, .decPayload] ∧
    (inPhase .encPayload State.reset).seq.phase ∈ [Phase.encHeader, .encPayload] := by decide

theorem witness_HeaderFrameRoundTrip : (recWithFlags 1).length = 112 ∧ ((recWithFlags 1).getD 5 0).toNat < 2 ∧
    validate dflt = none ∧
    ceilDiv (leNat (slice (recWithFlags 1) 24 32)) (codewordsPerFrame dflt * dataBytes dflt) ≤ 2 ^ 32 - 2 := by decide +kernel

/-- "hello", the default configuration (R285's example). -/
def hello : List Byte := [0x68, 0x65, 0x6C, 0x6C, 0x6F]

theorem length_helloFrame : (payloadFrame (configGeometry dflt) hello).length = 24883200 := by
  rw [payloadFrame, length_packFrame]
  decide +kernel

/-- A state of DEC_PAYLOAD with that frame in memory. -/
theorem witness_PayloadFrameRoundTrip : ∃ s : State,
    s.Inv ∧ s.seq.phase = .decPayload ∧ s.act = some dflt ∧
    hello.length = min s.seq.bytesRem.toNat (codewordsPerFrame dflt * dataBytes dflt) ∧
    InMemory (argSrc s) 24883200 ∧ InMemory (argDst s) hello.length ∧
    ∀ o, o < 24883200 → Memory.readByte s.mem (argSrc s + o) = (payloadFrame (configGeometry dflt) hello).getD o 0 := by
  have hm : ∀ m : Memory, argSrc (midStream .decPayload dflt 5 m) = 0x01000000 ∧
      argDst (midStream .decPayload dflt 5 m) = 0x10000000 ∧ (midStream .decPayload dflt 5 m).mem = m := fun _ => ⟨rfl, rfl, rfl⟩
  obtain ⟨h1, h2, h3⟩ := hm (Memory.write [] 0x01000000 (payloadFrame (configGeometry dflt) hello))
  refine ⟨midStream .decPayload dflt 5 (Memory.write [] 0x01000000 (payloadFrame (configGeometry dflt) hello)),
    midStream_inv (.inr rfl) (by decide +kernel) (Memory.wf_write Memory.wf_nil ?_) (by decide +kernel), rfl, rfl, ?_, ?_, ?_,
    fun o ho => ?_⟩
  · rw [length_helloFrame]; decide
  · exact (by decide +kernel : hello.length = min (5 : BitVec 64).toNat (codewordsPerFrame dflt * dataBytes dflt))
  · rw [h1]; exact .inr (by decide)
  · rw [h2]; exact .inr (by decide)
  · rw [h1, h3, Memory.readByte_write_inside _ _ _ _ (by rw [length_helloFrame]; exact ho),
      List.getD_eq_getElem _ _ (by rw [length_helloFrame]; exact ho)]

theorem witness_PhaseTransitionsFollowTable : phaseTable .streamEncFrame .idle = [] ∧ phaseTable .cfgCommit .encHeader = [] ∧
    (after (exec .streamDecBegin State.reset) (·.seq.phase)) = some .decHeader := by decide

theorem witness_FailedCommandChangesNothingElse :
    after (exec .streamEnd (inPhase .decHeader State.reset)) (fun t => decide (t.errCode ≠ .none)) = some true := by decide

theorem witness_CommandsKeepHostWrittenRegisters : ∃ t, exec .nop State.reset = .next t := ⟨_, rfl⟩

theorem witness_ActiveConfigurationWriters :
    after (exec .cfgCommit State.reset) (fun t => decide (t.act ≠ State.reset.act)) = some true := by decide +kernel

theorem witness_ActiveAndGeometryRegisters : State.reset.act = none ∧ Reg.geoK ∈ [Reg.geoC, .geoK] ∧
    (conf (cfg 1 256 254) State.reset).act = some (cfg 1 256 254) ∧ validate (cfg 1 256 254) = none := by decide +kernel

theorem witness_StatusWordFields : (0x80, Reg.argSrc, Access.rw) ∈ registerTable ∧ (0xD8, Reg.seqCwDone, Access.ro) ∈ registerTable := by
  decide

/-- An idle block and CFG_DEQ; a busy one and IRQ_ENABLE. -/
theorem witness_RwRegisterTakesWrittenBits :
    let busy := State.reset.withFetchWord 32 0
    (regAccess .cfgDeq = .rw ∧ State.reset.pending = none ∧ Reg.argSrc ≠ .cfgDeq) ∧
    (regAccess .irqEnable = .rw ∧ busy.pending ≠ none ∧ readReg .irqEnable (writeOffset 0x18 0xFF busy) = 3) := by decide

theorem witness_ReservedReadOnlyAndConstantRegisters : (0xFC : BitVec 8).toNat % 4 = 0 ∧ regAt 0xFC = none ∧
    regAt 0x0C = some .status ∧ regAccess .status = .ro := by decide

theorem witness_BusyWriteSetsOverrunOnly : (State.reset.withFetchWord 32 0).pending ≠ none ∧
    Reg.cfgDeq ∈ [Reg.cmd, .cfgBlockSize, .cfgLevels, .cfgEccParity, .cfgFps, .cfgCrf, .cfgDeq, .argSrc, .argDst, .argLen, .argAux,
      .argEraAddr, .argEraCount] := by decide

/-- Not decoding; passing RS_ENCODE's register tests at `m + p = 255`, failing them at 256. -/
theorem witness_CmdWriteIssuesTheWord :
    (State.reset.pending = none ∧ decode 0x46 = none ∧ decode 0x10 = some .rsEncode) ∧
    PassesRegisterTests .rsEncode (withArgs 0x1000 0xFFFFFF01 251 4) ∧
    memoryRanges .rsEncode (withArgs 0x1000 0xFFFFFF01 251 4) =
      { reads := [⟨0x1000, 251⟩], writes := [⟨0xFFFFFF01, 255⟩] } ∧
    ¬PassesRegisterTests .rsEncode (withArgs 0x1000 0xFFFFFF01 252 4) := by
  simp only [PassesRegisterTests, InMemory]; decide

/-- Legal and illegal accesses; the line deasserted; asserted by ERROR, which the second of three flights newly set; asserted by
a bit that no flight set. -/
theorem witness_RegisterReadsHaveNoSideEffect :
    let f := fun b : BitVec 2 => { ranges := { reads := [], writes := [] }, irqBits := some b : Flight }
    let s := { State.reset with irqStatus := 3, irqEnable := 2, inFlight := [f 0, f 2, f 1] }
    (State.reset.resetInput = false ∧ (assertResetInput s).resetInput = true) ∧
    ((0x0C : BitVec 8).toNat % 4 = 0 ∧ 8 ≠ 32 ∧ (0x0E : BitVec 8).toNat % 4 ≠ 0) ∧ irqLine State.reset = false ∧
    (irqLine s = true ∧ s.inFlight = [f 0] ++ f 2 :: [f 1] ∧ Signals s (f 2) ∧ ∀ g ∈ [f 0], ¬Signals s g) ∧
    (∀ g ∈ [f 0, f 1], ¬Signals s g) := by
  have hn : ∀ b : BitVec 2, b ∈ [0, 1] → ∀ k, k < 2 → b.getLsbD k = true → (2 : BitVec 2).getLsbD k = true → False := by decide
  refine ⟨by decide, by decide, by decide, ⟨by decide, rfl, ⟨2, 1, rfl, by decide, rfl, rfl, rfl⟩, ?_⟩, ?_⟩ <;>
    rintro g hg ⟨b, k, hb, hk, h1, -, h3⟩ <;>
    simp only [List.mem_cons, List.not_mem_nil, or_false] at hg
  · subst hg
    cases hb
    exact hn 0 (by decide) k hk h1 h3
  · rcases hg with rfl | rfl <;> cases hb
    · exact hn 0 (by decide) k hk h1 h3
    · exact hn 1 (by decide) k hk h1 h3

theorem witness_BusyHostStepKeepsResultsAndOperands :
    let s := State.reset.withFetchWord 32 0x10
    s.pending = some 0x10 ∧ after (runHostOp (.regWrite 0x80 32 5) s) (·.overrun) = some true ∧
    after (runHostOp .hwReset s) (·.pending) = some none ∧ after (runHostOp .assertReset s) (·.pending) = some none := by decide

/-- R360: while the reset input is asserted a CMD write issues nothing, IRQ_ENABLE stays 0 and CFG_LEVELS reads 2; once it is
released a write acts (R361). -/
theorem test_reset_input_asserted :
    let s := { State.reset with
      irqEnable := 3, host := [.assertReset, wr .cmd 0, wr .irqEnable 3, rd .cfgLevels, .releaseReset, wr .irqEnable 3] }
    after (Host.Core.run Sys2Proof.core 4 s) (fun t => (t.pending, t.irqEnable, t.hostReads)) =
      some (none, 0, [.reg 0x24 2]) ∧
    after (Host.Core.run Sys2Proof.core 6 s) (·.irqEnable) = some 3 := by decide

/-- RS_ENCODE of 4 bytes at 0x1000 to 8 bytes at 0x2000, issued: a store just after what it reads and up to what it writes, a load
of what it reads. -/
theorem witness_hostAccesses_apart :
    let s := (withArgs 0x1000 0x2000 4 4).withFetchWord 32 0x10
    (InMemory (0x1004 : Word).toNat (List.replicate 4092 (0xAA : Byte)).length ∧
      ∀ f ∈ s.inFlight, ∀ r, r ∈ f.ranges.reads ∨ r ∈ f.ranges.writes →
        Apart (0x1004 : Word).toNat (List.replicate 4092 (0xAA : Byte)).length r) ∧
    (InMemory (0x1000 : Word).toNat 4096 ∧ ∀ f ∈ s.inFlight, ∀ r ∈ f.ranges.writes, Apart (0x1000 : Word).toNat 4096 r) := by
  have hf : ((withArgs 0x1000 0x2000 4 4).withFetchWord 32 0x10).inFlight =
      [{ ranges := { reads := [⟨0x1000, 4⟩], writes := [⟨0x2000, 8⟩] }, irqBits := none }] := by decide
  have h4 : (0x1004 : Word).toNat = 0x1004 := rfl
  have h0 : (0x1000 : Word).toNat = 0x1000 := rfl
  simp only [hf, h4, h0, List.length_replicate, InMemory, Apart, List.mem_singleton, forall_eq]
  refine ⟨⟨by omega, ?_⟩, by omega, fun x _ _ => .inl (by omega)⟩
  rintro r (rfl | rfl) x h1 h2 <;> simp only <;> omega

/-- A store's byte is there and a load returns it (R117); each is one step. -/
theorem test_host_store_load :
    after (runHostOp (.memStore 0x1003 [0xAA, 0xBB]) State.reset) (fun t => Memory.read t.mem 0x1003 2) = some [0xAA, 0xBB] ∧
    after (runHostOp (.memLoad 0x1003 2) { State.reset with mem := [(0x1003, 0xAA), (0x1004, 0xBB)] }) (·.hostReads) =
      some [.mem 0x1003 [0xAA, 0xBB]] := by decide

/-- RS_ENCODE of 4 bytes at 0x1000 to 8 bytes at 0x2000, issued; the host meets the last byte read and the last written. -/
theorem witness_HostAccessToFlightFaults :
    let s := (withArgs 0x1000 0x2000 4 4).withFetchWord 32 0x10
    let f : Flight := { ranges := { reads := [⟨0x1000, 4⟩], writes := [⟨0x2000, 8⟩] }, irqBits := none }
    f ∈ s.inFlight ∧
    (⟨0x1000, 4⟩ ∈ f.ranges.reads ∧ 0x1000 ≤ 0x1003 ∧ 0x1003 < 0x1000 + 4 ∧ (0x1003 : Word).toNat ≤ 0x1003 ∧
      0x1003 < (0x1003 : Word).toNat + [(0xAA : Byte)].length ∧ (0x1003 : Word).toNat + [(0xAA : Byte)].length ≤ 2 ^ 32) ∧
    (⟨0x2000, 8⟩ ∈ f.ranges.writes ∧ 0x2000 ≤ 0x2007 ∧ 0x2007 < 0x2000 + 8 ∧ 0x2007 < (0x2007 : Word).toNat + 1 ∧
      (0x2007 : Word).toNat + 1 ≤ 2 ^ 32) := by decide

/-- Each cause: a width, an address past the end, a store to a byte read, a load of a byte written. -/
theorem witness_OnlyHostOperationsFault :
    let s := { (withArgs 0x1000 0x2000 4 4).withFetchWord 32 0x10 with sched := [.host] }
    step { State.reset with host := [.regRead 0x0C 8] } = .fault .hostBusError ∧
    step { s with host := [.memLoad 0xFFFFFFFF 2] } = .fault .noSuchAddress ∧
    step { s with host := [.memStore 0x1003 [0]] } = .fault .hostDataRace ∧
    step { s with host := [.memLoad 0x2007 1] } = .fault .hostDataRace := ⟨rfl, rfl, rfl, rfl⟩

/-- The four resets; the values of a CTRL write: SRST alone, CLR_OVERRUN alone, neither; the input released already. -/
theorem witness_ResetRestoresTheTable :
    let s := State.reset.withFetchWord 32 0
    (IsReset s (writeOffset 0x08 1 s) ∧ IsReset s (assertResetInput s) ∧
      IsReset (assertResetInput s) (releaseResetInput (assertResetInput s)) ∧
      IsReset s (releaseResetInput (assertResetInput s))) ∧
    ((2 : Word).getLsbD 0 = false ∧ (2 : Word).getLsbD 1 = true) ∧
    ((0xFFFFFFFC : Word).getLsbD 0 = false ∧ (0xFFFFFFFC : Word).getLsbD 1 = false) ∧
    State.reset.pending = none ∧ State.reset.resetInput = false :=
  ⟨⟨.inl ⟨1, rfl, rfl⟩, .inr (.inl rfl), .inr (.inr (.inl ⟨rfl, rfl⟩)), .inr (.inr (.inr rfl))⟩, ⟨rfl, rfl⟩, ⟨rfl, rfl⟩, rfl, rfl⟩

/-- RS_ENCODE discarded: address 0x2000 lies in its destination range, 0x2008 is the first byte past it; and an illegal word. -/
theorem witness_BusyResetLeavesOldOrNewBytes :
    let s := (withArgs 0x1000 0x2000 4 4).withFetchWord 32 0x10
    let bad := State.reset.withFetchWord 32 0x46
    (Memory.wf s.mem ∧ s.pending = some 0x10 ∧ decode 0x10 = some .rsEncode ∧ (∃ u, exec .rsEncode s = .next u) ∧
      IsReset s (writeOffset 0x08 1 s) ∧ IsReset s (assertResetInput s)) ∧
    (⟨0x2000, 8⟩ ∈ (memoryRanges .rsEncode s).writes ∧
      ∀ r ∈ (memoryRanges .rsEncode s).writes, 0x2008 < r.base ∨ r.base + r.len ≤ 0x2008) ∧
    (Memory.wf bad.mem ∧ bad.pending = some 0x46 ∧ decode 0x46 = none ∧ IsReset bad (writeOffset 0x08 1 bad)) :=
  ⟨⟨Memory.wf_nil, rfl, by decide, ⟨_, rfl⟩, .inl ⟨1, rfl, rfl⟩, .inr (.inl rfl)⟩, ⟨by decide, by decide⟩, Memory.wf_nil, rfl,
    by decide, .inl ⟨1, rfl, rfl⟩⟩

/-- In the middle of a stream; and with the reset input asserted, a write waiting. -/
theorem witness_StepKeepsInvariant :
    let s := midStream .encPayload dflt 5 []
    let r := { State.reset with resetInput := true, host := [wr .irqEnable 3] }
    (s.Inv ∧ ∃ t, step s = .next t) ∧ r.Inv ∧ ∃ t, step r = .next t :=
  ⟨⟨midStream_inv (.inl rfl) (by decide +kernel) Memory.wf_nil (by decide +kernel), _, rfl⟩,
    ⟨Memory.wf_nil, List.length_replicate .., fun _ h => (by cases h), trivial, fun f hf => (by cases hf), fun _ => rfl⟩, _, rfl⟩

end Sys2Proof.Tests
end

section
/-! The register window, one rule per operation (10_state.md R30 to R49): what a read of a register's offset returns, what a
write to it does by access type, and what it leaves unchanged. -/

namespace Sys2Proof.Machine

theorem busy_of_pending_none {s : State} (h : s.pending = none) : busy s = false := by simp [busy, h]

theorem busy_of_pending_some {s : State} {w : Word} (h : s.pending = some w) : busy s = true := by simp [busy, h]

theorem busy_eq_false {s : State} : busy s = false ↔ s.pending = none := by simp [busy]

theorem writeOffset_of_regAt {off : BitVec 8} {r : Reg} (h : regAt off = some r) (v : Word) (s : State) :
    writeOffset off v s = writeReg r v s := by
  simp [writeOffset, h]

theorem writeOffset_regOffset (r : Reg) (v : Word) (s : State) : writeOffset (regOffset r) v s = writeReg r v s :=
  writeOffset_of_regAt (regAt_regOffset r) v s

/-- The map finds a register at that register's own offset only. -/
theorem regOffset_of_regAt {off : BitVec 8} {r : Reg} (h : regAt off = some r) : regOffset r = off := by
  revert off r
  decide +kernel

/-! Writes, by access type and by BUSY (R31). -/

theorem writeReg_of_guarded {r : Reg} {s : State} (hb : busy s = true) (hg : busyGuarded r = true) (v : Word) :
    writeReg r v s = { s with overrun := true } := by
  simp [writeReg, hb, hg]

theorem storeReg_of_ro {r : Reg} (h : regAccess r = .ro) (v : Word) (s : State) : storeReg r v s = s := by
  cases r <;> cases h <;> rfl

theorem writeReg_of_w1a {r : Reg} {s : State} (h : busy s = false ∨ busyGuarded r = false) (ha : regAccess r = .w1a)
    (v : Word) : writeReg r v s = writeCtrl v s := by
  simp [writeReg, Bool.and_eq_false_iff.2 h, ha]

theorem writeReg_of_cmd {r : Reg} {s : State} (h : busy s = false ∨ busyGuarded r = false) (ha : regAccess r = .cmd)
    (v : Word) : writeReg r v s = issue v s := by
  simp [writeReg, Bool.and_eq_false_iff.2 h, ha]

theorem writeReg_of_store {r : Reg} {s : State} (h : busy s = false ∨ busyGuarded r = false) (h1 : regAccess r ≠ .w1a)
    (h2 : regAccess r ≠ .cmd) (v : Word) : writeReg r v s = storeReg r v s := by
  have hn := Bool.and_eq_false_iff.2 h
  cases ha : regAccess r with
  | w1a => exact absurd ha h1
  | cmd => exact absurd ha h2
  | rw => simp [writeReg, hn, ha]
  | w1c => simp [writeReg, hn, ha]
  | ro => simp [writeReg, hn, ha, storeReg_of_ro ha v s]

/-- Everything a host write to a register can do. -/
theorem writeReg_cases (r : Reg) (v : Word) (s : State) :
    (busy s = true ∧ writeReg r v s = { s with overrun := true }) ∨
      (r = .ctrl ∧ writeReg r v s = writeCtrl v s) ∨
      (busy s = false ∧ r = .cmd ∧ writeReg r v s = issue v s) ∨
      ((busy s = false ∨ busyGuarded r = false) ∧ writeReg r v s = storeReg r v s) := by
  have ho : ∀ r, regAccess r = .w1a → r = .ctrl := fun r => by cases r <;> decide
  have hc : ∀ r, regAccess r = .cmd → r = .cmd := fun r => by cases r <;> decide
  cases hg : (busy s && busyGuarded r) with
  | true =>
    obtain ⟨hb, hg⟩ := Bool.and_eq_true_iff.1 hg
    exact .inl ⟨hb, writeReg_of_guarded hb hg v⟩
  | false =>
    have hu := Bool.and_eq_false_iff.1 hg
    by_cases h1 : regAccess r = .w1a
    · exact .inr (.inl ⟨ho r h1, writeReg_of_w1a hu h1 v⟩)
    by_cases h2 : regAccess r = .cmd
    · obtain rfl := hc r h2
      exact .inr (.inr (.inl ⟨hu.resolve_right (by decide), rfl, writeReg_of_cmd hu h2 v⟩))
    · exact .inr (.inr (.inr ⟨hu, writeReg_of_store hu h1 h2 v⟩))

/-! `writeCtrl` (R36) -/

theorem writeCtrl_srst {v : Word} (h : v.getLsbD 0 = true) (s : State) : writeCtrl v s = resetBlock s := by
  simp [writeCtrl, h]

theorem writeCtrl_clrOverrun {v : Word} (h0 : v.getLsbD 0 = false) (h1 : v.getLsbD 1 = true) (s : State) :
    writeCtrl v s = { s with overrun := false } := by
  simp only [writeCtrl, h0, h1, Bool.false_eq_true, if_false, if_true]

theorem writeCtrl_neither {v : Word} (h0 : v.getLsbD 0 = false) (h1 : v.getLsbD 1 = false) (s : State) :
    writeCtrl v s = s := by
  simp only [writeCtrl, h0, h1, Bool.false_eq_true, if_false]

/-- Everything a write to CTRL can do. -/
theorem writeCtrl_cases (v : Word) (s : State) :
    (v.getLsbD 0 = true ∧ writeCtrl v s = resetBlock s) ∨
      (v.getLsbD 0 = false ∧ ∃ b, writeCtrl v s = { s with overrun := b }) := by
  cases h0 : v.getLsbD 0 with
  | true => exact .inl ⟨rfl, writeCtrl_srst h0 s⟩
  | false =>
    cases h1 : v.getLsbD 1 with
    | true => exact .inr ⟨rfl, false, writeCtrl_clrOverrun h0 h1 s⟩
    | false => exact .inr ⟨rfl, s.overrun, writeCtrl_neither h0 h1 s⟩

@[simp] theorem writeCtrl_resetInput (v : Word) (s : State) : (writeCtrl v s).resetInput = s.resetInput := by
  rcases writeCtrl_cases v s with ⟨-, h⟩ | ⟨-, b, h⟩ <;> rw [h, ← resetBlock_resetInput s]

/-! `storeReg`: one rule per field it leaves unchanged. -/

@[simp] theorem storeReg_pending (r : Reg) (v : Word) (s : State) : (storeReg r v s).pending = s.pending := by cases r <;> rfl
@[simp] theorem storeReg_lastCmd (r : Reg) (v : Word) (s : State) : (storeReg r v s).lastCmd = s.lastCmd := by cases r <;> rfl
@[simp] theorem storeReg_errCode (r : Reg) (v : Word) (s : State) : (storeReg r v s).errCode = s.errCode := by cases r <;> rfl
@[simp] theorem storeReg_act (r : Reg) (v : Word) (s : State) : (storeReg r v s).act = s.act := by cases r <;> rfl
@[simp] theorem storeReg_res0 (r : Reg) (v : Word) (s : State) : (storeReg r v s).res0 = s.res0 := by cases r <;> rfl
@[simp] theorem storeReg_res1 (r : Reg) (v : Word) (s : State) : (storeReg r v s).res1 = s.res1 := by cases r <;> rfl
@[simp] theorem storeReg_res2 (r : Reg) (v : Word) (s : State) : (storeReg r v s).res2 = s.res2 := by cases r <;> rfl
@[simp] theorem storeReg_seq (r : Reg) (v : Word) (s : State) : (storeReg r v s).seq = s.seq := by cases r <;> rfl
@[simp] theorem storeReg_hb (r : Reg) (v : Word) (s : State) : (storeReg r v s).hb = s.hb := by cases r <;> rfl
@[simp] theorem storeReg_mem (r : Reg) (v : Word) (s : State) : (storeReg r v s).mem = s.mem := by cases r <;> rfl
@[simp] theorem storeReg_resetInput (r : Reg) (v : Word) (s : State) : (storeReg r v s).resetInput = s.resetInput := by
  cases r <;> rfl
@[simp] theorem storeReg_inFlight (r : Reg) (v : Word) (s : State) : (storeReg r v s).inFlight = s.inFlight := by
  cases r <;> rfl

/-- A store to a register that is not guarded while busy leaves operands and configuration as they are (R31, R366). -/
theorem storeReg_of_unguarded {r : Reg} (h : busyGuarded r = false) (v : Word) (s : State) :
    (storeReg r v s).args = s.args ∧ (storeReg r v s).staging = s.staging ∧ (storeReg r v s).vote = s.vote := by
  cases r <;> cases h <;> exact ⟨rfl, rfl, rfl⟩

/-! Reading back (R31, R33). -/

theorem voteWord_voteOfWord (v : Word) : voteWord (voteOfWord v) = v &&& 1 := by
  have hbit : v &&& 1#32 = if v.getLsbD 0 then 1 else 0 :=
    BitVec.and_one_eq_setWidth_ofBool_getLsbD.trans (by cases v.getLsbD 0 <;> rfl)
  unfold voteOfWord
  rw [show (1 : Word) = 1#32 from rfl, hbit]
  cases v.getLsbD 0 <;> rfl

theorem zeroExtend_extractLsb'_two (v : Word) : (v.extractLsb' 0 2).zeroExtend 32 = v &&& 3 := by
  have h3 : v.toNat &&& 3 = v.toNat % 4 := Nat.and_two_pow_sub_one_eq_mod v.toNat 2
  apply BitVec.eq_of_toNat_eq
  simp [h3]
  omega

/-- A RW register reads back the written bits that it defines. -/
theorem readReg_storeReg_same {r : Reg} (h : regAccess r = .rw) (v : Word) (s : State) :
    readReg r (storeReg r v s) = v &&& if r = .cfgDeq then 1 else if r = .irqEnable then 3 else 0xFFFFFFFF := by
  have hall : v &&& 0xFFFFFFFF = v := BitVec.and_allOnes
  cases r
  case irqEnable => exact zeroExtend_extractLsb'_two v
  case cfgDeq => exact voteWord_voteOfWord v
  case cfgBlockSize | cfgLevels | cfgEccParity | cfgFps | cfgCrf | argSrc | argDst | argLen | argAux | argEraAddr | argEraCount =>
    exact hall.symm
  all_goals cases h

/-- A store to one register changes what no other one reads. -/
theorem readReg_storeReg_of_ne {r r' : Reg} (h : r' ≠ r) (v : Word) (s : State) :
    readReg r' (storeReg r v s) = readReg r' s := by
  cases r
  case irqStatus | irqEnable | cfgBlockSize | cfgLevels | cfgEccParity | cfgFps | cfgCrf | cfgDeq | argSrc | argDst | argLen |
      argAux | argEraAddr | argEraCount =>
    cases r' <;> simp [readReg, storeReg, statusWord, actField, activeGeometry, busy, cfgValid, errFlag] at h ⊢
  all_goals rfl

/-! Words of fields (R37, R55, R321). -/

/-- The layout of STATUS (R37), over any values of its fields. -/
theorem status_layout (p : BitVec 3) (e : BitVec 8) (o r v b : Bool) :
    let w := (0 : BitVec 13) ++ p ++ e ++ (0 : BitVec 4) ++ bit o ++ bit r ++ bit v ++ bit b
    (w.getLsbD 0 = b ∧ w.getLsbD 1 = v ∧ w.getLsbD 2 = r ∧ w.getLsbD 3 = o) ∧
      w.extractLsb' 4 4 = 0 ∧ w.extractLsb' 8 8 = e ∧ w.extractLsb' 16 3 = p ∧ w.extractLsb' 19 13 = 0 := by
  refine ⟨?_, ?_⟩
  · simp only [BitVec.getLsbD_append]
    simp [bit]
  · simp only [BitVec.extractLsb'_append_eq_ite]
    simp

theorem errCodeBits_mem (e : ErrCode) : (e, errCodeBits e) ∈ errorNumbers := by cases e <;> decide

theorem phaseBits_mem (p : Phase) : (p, phaseBits p) ∈ phaseNumbers := by cases p <;> decide

/-- A field of `n` bits read as a register: the field below, 0 above. -/
theorem zeroExtend_fields {n : Nat} (x : BitVec n) (h : n ≤ 32) :
    (x.zeroExtend 32).toNat = x.toNat ∧ (x.zeroExtend 32).extractLsb' 0 n = x ∧
      (x.zeroExtend 32).extractLsb' n (32 - n) = 0 := by
  have hx : (x.zeroExtend 32).toNat = x.toNat := BitVec.toNat_setWidth_of_le h
  refine ⟨hx, BitVec.eq_of_toNat_eq ?_, BitVec.eq_of_toNat_eq ?_⟩
  · rw [BitVec.extractLsb'_toNat, hx, Nat.shiftRight_zero, Nat.mod_eq_of_lt x.isLt]
  · rw [BitVec.extractLsb'_toNat, hx, Nat.shiftRight_eq_div_pow, Nat.div_eq_of_lt x.isLt]
    rfl

theorem extractLsb'_halves (x : BitVec 64) :
    (x.extractLsb' 0 32).toNat = x.toNat % 2 ^ 32 ∧ (x.extractLsb' 32 32).toNat = x.toNat / 2 ^ 32 := by
  have := x.isLt
  simp only [BitVec.extractLsb'_toNat, Nat.shiftRight_eq_div_pow]
  omega

/-- Every row of R33's table is a row of the register map. -/
theorem registerTable_rows : ∀ row ∈ registerTable,
    regAt row.1 = some row.2.1 ∧ regOffset row.2.1 = row.1 ∧ regAccess row.2.1 = row.2.2 := by
  decide +kernel

/-! The obligations about the window. -/

/-- Settles O46: STATUS by its layout, each other register by the row of the map at its offset. -/
theorem statusWordFields : Obligations.StatusWordFields := by
  intro s
  obtain ⟨⟨h0, h1, h2, h3⟩, h4, h8, h16, h19⟩ :=
    status_layout (phaseBits s.seq.phase) (errCodeBits s.errCode) s.overrun (errFlag s) (cfgValid s) (busy s)
  obtain ⟨-, hphase, hphase0⟩ := zeroExtend_fields (phaseBits s.seq.phase) (by decide)
  obtain ⟨hlo, hhi⟩ := extractLsb'_halves s.seq.bytesRem
  refine ⟨⟨?_, ?_, ?_, h3, h4, ?_, ?_, h19⟩, ⟨rfl, rfl⟩, ⟨rfl, rfl, rfl⟩,
    ⟨(zeroExtend_fields s.irqStatus (by decide)).1, (zeroExtend_fields s.irqEnable (by decide)).1⟩,
    ⟨?_, hphase0, rfl, rfl, hlo, hhi, rfl, rfl⟩, ⟨rfl, rfl, rfl, rfl, rfl, ?_⟩, ⟨rfl, rfl, rfl, rfl, rfl, rfl⟩, ?_⟩
  · exact (iff_of_eq (congrArg (· = true) h0)).trans (by simp [busy, Option.isSome_iff_ne_none])
  · exact (iff_of_eq (congrArg (· = true) h1)).trans (by simp [cfgValid, Option.isSome_iff_ne_none])
  · exact (iff_of_eq (congrArg (· = true) h2)).trans (by simp [errFlag])
  · exact h8 ▸ errCodeBits_mem s.errCode
  · exact h16 ▸ phaseBits_mem s.seq.phase
  · exact hphase ▸ phaseBits_mem s.seq.phase
  · change voteWord s.vote = _
    cases s.vote <;> rfl
  · intro off r acc hrow
    obtain ⟨hat, hoff, hacc⟩ := registerTable_rows _ hrow
    exact ⟨hat, hoff, hacc, readOffset_of_regAt hat s⟩

/-- Settles O49: the reserved offsets by running through all 64 aligned ones, the writes by the access type. -/
theorem reservedReadOnlyAndConstantRegisters : Obligations.ReservedReadOnlyAndConstantRegisters := by
  intro off v s
  refine ⟨?_, fun h => ⟨?_, ?_⟩, fun r hr ha => ?_, rfl, rfl, rfl, rfl⟩
  · revert off
    decide +kernel
  · simp [readOffset, h]
  · simp [writeOffset, h]
  · have hg : busyGuarded r = false := by cases r <;> cases ha <;> rfl
    rw [writeOffset_of_regAt hr, writeReg_of_store (.inr hg) (by simp [ha]) (by simp [ha]), storeReg_of_ro ha]

/-- Settles O50. -/
theorem busyWriteSetsOverrunOnly : Obligations.BusyWriteSetsOverrunOnly := by
  intro r v s hs hr
  have hb : busy s = true := Option.isSome_iff_ne_none.2 hs
  have hg : ∀ r ∈ [Reg.cmd, .cfgBlockSize, .cfgLevels, .cfgEccParity, .cfgFps, .cfgCrf, .cfgDeq, .argSrc, .argDst, .argLen,
      .argAux, .argEraAddr, .argEraCount], busyGuarded r = true := by decide
  rw [writeOffset_regOffset, writeReg_of_guarded hb (hg r hr)]

/-- Settles O48: a write to a RW register is `storeReg` of it. -/
theorem rwRegisterTakesWrittenBits : Obligations.RwRegisterTakesWrittenBits := by
  refine ⟨fun r v s ha hs => ?_, fun v s => ⟨?_, fun hs => ?_⟩⟩
  · have hs : s.pending = none ∨ busyGuarded r = false := hs.imp id fun (h : r = .irqEnable) => h ▸ rfl
    rw [writeOffset_of_rw (regAt_regOffset r) ha hs v]
    exact ⟨readReg_storeReg_same ha v s, fun r' h => readReg_storeReg_of_ne h v s, storeReg_mem .., storeReg_seq ..,
      storeReg_act .., storeReg_hb .., storeReg_pending ..⟩
  · exact writeOffset_of_rw (r := .irqEnable) rfl rfl (.inr rfl) v
  · have hw : ∀ {off : BitVec 8} {r : Reg}, regAt off = some r → regAccess r = .rw →
        writeOffset off v s = storeReg r v s := fun hr ha => writeOffset_of_rw hr ha (.inl hs) v
    exact ⟨⟨hw (r := .cfgBlockSize) rfl rfl, hw (r := .cfgLevels) rfl rfl, hw (r := .cfgEccParity) rfl rfl,
      hw (r := .cfgFps) rfl rfl, hw (r := .cfgCrf) rfl rfl, hw (r := .cfgDeq) rfl rfl⟩, hw (r := .argSrc) rfl rfl,
      hw (r := .argDst) rfl rfl, hw (r := .argLen) rfl rfl, hw (r := .argAux) rfl rfl, hw (r := .argEraAddr) rfl rfl,
      hw (r := .argEraCount) rfl rfl⟩

/-- The interrupt output, bit by bit (R49). -/
theorem irqLine_iff (s : State) :
    irqLine s = true ↔ ∃ k, k < 2 ∧ s.irqStatus.getLsbD k = true ∧ s.irqEnable.getLsbD k = true := by
  have h : ∀ x y : BitVec 2, ((x &&& y) != 0) = true ↔ ∃ k, k < 2 ∧ x.getLsbD k = true ∧ y.getLsbD k = true := by decide
  exact h s.irqStatus s.irqEnable

/-- Settles O52: IRQ_STATUS is not guarded, so a write to it is `storeReg` of it in every state. -/
theorem irqStatusClearsAndDrivesTheLine : Obligations.IrqStatusClearsAndDrivesTheLine := by
  intro v s
  have hw : writeOffset 0x14 v s = storeReg .irqStatus v s :=
    (writeOffset_of_regAt (r := .irqStatus) rfl v s).trans (writeReg_of_store (.inr rfl) (by decide) (by decide) v)
  rw [hw]
  refine ⟨fun k hk => ?_, rfl, irqLine_iff _⟩
  change (clearIrq s.irqStatus v).getLsbD k = _
  simp [clearIrq, hk]

end Sys2Proof.Machine
end

section
/-! What a command can do (60_exceptions.md R325, R326; 20_memory.md R81): the rows of R81 against the model's footprints, the
lengths of what is stored, and one inversion lemma for `exec`. -/

namespace Sys2Proof.Machine

/-! The numbers of the active configuration (00_scope.md R6). -/

theorem activeGeometry_of_act {s : State} {c : ConfigRecord} (h : s.act = some c) : activeGeometry s = configGeometry c := by
  simp [activeGeometry, h]

theorem activePayloadBytes_eq (s : State) : activePayloadBytes s = (activeGeometry s).pay := by
  unfold activePayloadBytes activeGeometry
  cases s.act <;> rfl

theorem chunkBytes_eq (s : State) : chunkBytes s = payloadChunk s := by
  unfold chunkBytes payloadChunk activeGeometry
  cases s.act with
  | none => exact (Nat.min_zero _).symm
  | some c => rfl

theorem frameLen_activeGeometry (s : State) : frameLen (activeGeometry s) = Config.frameBytes := by
  unfold activeGeometry
  cases s.act <;> rfl

/-! The parity operand (R113). -/

theorem aux_split (s : State) : s.args.aux.toNat = (s.args.aux.extractLsb' 8 24).toNat * 256 + auxParity s := by
  have := s.args.aux.isLt
  simp only [auxParity, BitVec.extractLsb'_toNat, Nat.shiftRight_eq_div_pow]
  omega

theorem auxParityBad_eq_false {s : State} : auxParityBad s = false ↔ s.args.aux.toNat ≤ 254 := by
  have hs := aux_split s
  have hp : auxParity s < 256 := (s.args.aux.extractLsb' 0 8).isLt
  have h0 : (0 : BitVec 24).toNat = 0 := rfl
  rw [auxParityBad, Bool.or_eq_false_iff, bne_eq_false_iff_eq, decide_eq_false_iff_not, ← BitVec.toNat_inj, h0]
  omega

theorem auxParity_of_le {s : State} (h : s.args.aux.toNat ≤ 254) : auxParity s = s.args.aux.toNat := by
  have := aux_split s
  omega

/-! The register tests and the rows of R81. -/

theorem firstError_cons_eq_none {b : Bool} {e : ErrCode} {l : List (Bool × ErrCode)} :
    firstError ((b, e) :: l) = none ↔ b = false ∧ firstError l = none := by
  cases b <;> simp

theorem not_cfgValid_eq_false {s : State} : (!cfgValid s) = false ↔ s.act ≠ none := by
  rw [Bool.not_eq_false', cfgValid, Option.isSome_iff_ne_none]

theorem not_mayBegin_eq_false {p : Phase} : (!mayBegin p) = false ↔ p ∈ [Phase.idle, .done, .failed] := by
  cases p <;> decide

theorem frameBytes_eq : Config.frameBytes = 24883200 := rfl

theorem rsEncodePre_eq_none {s : State} : rsEncodePre s = none ↔ PassesRegisterTests .rsEncode s := by
  simp only [rsEncodePre, firstError_cons_eq_none, auxParityBad_eq_false, PassesRegisterTests]
  refine and_congr_right fun hp => ?_
  simp [auxParity_of_le hp, checkRange_iff, argSrc, argDst, argLen]

theorem rsDecodePre_eq_none {s : State} : rsDecodePre s = none ↔ PassesRegisterTests .rsDecode s := by
  simp only [rsDecodePre, firstError_cons_eq_none, auxParityBad_eq_false, Bool.or_eq_false_iff, decide_eq_false_iff_not,
    PassesRegisterTests]
  refine and_congr_right fun hp => ?_
  simp [auxParity_of_le hp, checkRange_iff, argSrc, argDst, argLen, argEraAddr, argEraCount, and_assoc]

theorem dequantBlockPre_eq_none {s : State} : dequantBlockPre s = none ↔ PassesRegisterTests .dequantBlock s := by
  simp only [dequantBlockPre, firstError_cons_eq_none, not_cfgValid_eq_false, Bool.or_eq_false_iff, decide_eq_false_iff_not,
    PassesRegisterTests]
  simp [checkRange_iff, argSrc, argLen, Nat.one_le_iff_ne_zero, and_assoc]

theorem packFramePre_eq_none {s : State} : packFramePre s = none ↔ PassesRegisterTests .packFrame s := by
  simp only [packFramePre, firstError_cons_eq_none, not_cfgValid_eq_false, decide_eq_false_iff_not, PassesRegisterTests,
    activePayloadBytes_eq]
  simp [checkRange_iff, argSrc, argDst, argLen, frameBytes_eq]

theorem unpackFramePre_eq_none {s : State} : unpackFramePre s = none ↔ PassesRegisterTests .unpackFrame s := by
  simp only [unpackFramePre, firstError_cons_eq_none, not_cfgValid_eq_false, PassesRegisterTests, activePayloadBytes_eq]
  simp [checkRange_iff, argSrc, argDst, frameBytes_eq]

theorem streamEncBeginPre_eq_none {s : State} : streamEncBeginPre s = none ↔ PassesRegisterTests .streamEncBegin s := by
  simp only [streamEncBeginPre, firstError_cons_eq_none, not_cfgValid_eq_false, not_mayBegin_eq_false, PassesRegisterTests]
  simp [checkRange_iff, argSrc, argDst, Config.hdrLen]

theorem streamEncFramePre_eq_none {s : State} : streamEncFramePre s = none ↔ PassesRegisterTests .streamEncFrame s := by
  unfold streamEncFramePre PassesRegisterTests
  cases hp : s.seq.phase <;>
    simp [firstError_cons_eq_none, checkRange_iff, argSrc, argDst, chunkBytes_eq, frameBytes_eq, hp, and_comm]

theorem streamDecFramePre_eq_none {s : State} : streamDecFramePre s = none ↔ PassesRegisterTests .streamDecFrame s := by
  unfold streamDecFramePre PassesRegisterTests
  cases hp : s.seq.phase <;>
    simp [firstError_cons_eq_none, checkRange_iff, argSrc, argDst, chunkBytes_eq, frameBytes_eq, Config.hdrLen, hp]

/-- The commands without a row in R81. -/
def ReachesNoMemory (i : Instr) : Prop :=
  i ∈ [Instr.nop, .cfgCommit, .quant, .dequant, .streamDecBegin, .streamEnd, .streamAbort]

/-- The model's preconditions of a command with a row in R81 are the register tests of its rule. -/
theorem commandPre_eq_none {i : Instr} {s : State} (hi : ¬ReachesNoMemory i) :
    commandPre i s = none ↔ PassesRegisterTests i s := by
  cases i
  case rsEncode => exact rsEncodePre_eq_none
  case rsDecode => exact rsDecodePre_eq_none
  case dequantBlock => exact dequantBlockPre_eq_none
  case packFrame => exact packFramePre_eq_none
  case unpackFrame => exact unpackFramePre_eq_none
  case streamEncBegin => exact streamEncBeginPre_eq_none
  case streamEncFrame => exact streamEncFramePre_eq_none
  case streamDecFrame => exact streamDecFramePre_eq_none
  all_goals exact absurd (by unfold ReachesNoMemory; decide) hi

/-- A command without a row in R81 has no test to pass before it reaches memory. -/
theorem passesRegisterTests_of_pre {i : Instr} {s : State} (h : commandPre i s = none) : PassesRegisterTests i s := by
  by_cases hi : ReachesNoMemory i
  · simp only [ReachesNoMemory, List.mem_cons, List.not_mem_nil, or_false] at hi
    rcases hi with rfl | rfl | rfl | rfl | rfl | rfl | rfl <;> trivial
  · exact (commandPre_eq_none hi).1 h

/-- The model's ranges of a command that passes its register tests are its row of R81. -/
theorem commandRanges_eq {i : Instr} {s : State} (h : PassesRegisterTests i s) : commandRanges i s = memoryRanges i s := by
  cases i
  case rsEncode | rsDecode =>
    obtain ⟨hp, -⟩ := h
    simp only [commandRanges, memoryRanges, auxParity_of_le hp]
    rfl
  case unpackFrame => simp only [commandRanges, memoryRanges, activePayloadBytes_eq]; rfl
  case streamEncFrame | streamDecFrame => simp only [commandRanges, memoryRanges, chunkBytes_eq]; rfl
  all_goals rfl

theorem commandFootprint_of_some {i : Instr} {s : State} {e : ErrCode} (h : commandPre i s = some e) :
    commandFootprint i s = noRanges := by
  simp [commandFootprint, h]

theorem commandFootprint_of_none {i : Instr} {s : State} (h : commandPre i s = none) :
    commandFootprint i s = commandRanges i s := by
  simp [commandFootprint, h]

theorem ranges_of_reachesNoMemory {i : Instr} (hi : ReachesNoMemory i) (s : State) :
    commandRanges i s = noRanges ∧ memoryRanges i s = noRanges := by
  simp only [ReachesNoMemory, List.mem_cons, List.not_mem_nil, or_false] at hi
  rcases hi with rfl | rfl | rfl | rfl | rfl | rfl | rfl <;> exact ⟨rfl, rfl⟩

/-- A command that passes its register tests has its destination inside memory. -/
theorem writes_inMemory {i : Instr} {s : State} (h : PassesRegisterTests i s) :
    ∀ r ∈ (memoryRanges i s).writes, InMemory r.base r.len := by
  cases i
  case rsEncode =>
    obtain ⟨-, -, -, hdst⟩ := h
    exact List.forall_mem_singleton.2 hdst
  case rsDecode =>
    obtain ⟨-, -, -, -, -, -, hdst⟩ := h
    exact List.forall_mem_singleton.2 hdst
  case packFrame | streamEncBegin =>
    obtain ⟨-, -, -, hdst⟩ := h
    exact List.forall_mem_singleton.2 hdst
  case unpackFrame =>
    obtain ⟨-, -, hdst⟩ := h
    exact List.forall_mem_singleton.2 hdst
  case streamEncFrame =>
    obtain ⟨hdst, -⟩ := h
    exact List.forall_mem_singleton.2 hdst
  case streamDecFrame =>
    obtain ⟨-, ⟨hp, hdst⟩ | ⟨hp, hdst⟩⟩ := h
    · exact List.forall_mem_singleton.2 (by simpa [hp] using hdst)
    · exact List.forall_mem_singleton.2 (by simpa [hp] using hdst)
  all_goals exact List.forall_mem_nil _

/-- The ranges a command has in flight: its row of R81 if it passes its register tests, else none (log 6). -/
theorem commandFootprint_eq (i : Instr) (s : State) :
    (PassesRegisterTests i s → commandFootprint i s = memoryRanges i s) ∧
      (¬PassesRegisterTests i s → commandFootprint i s = noRanges) := by
  by_cases hi : ReachesNoMemory i
  · obtain ⟨hc, hm⟩ := ranges_of_reachesNoMemory hi s
    have hn : commandFootprint i s = noRanges := by
      cases hp : commandPre i s with
      | some e => exact commandFootprint_of_some hp
      | none => rw [commandFootprint_of_none hp, hc]
    exact ⟨fun _ => hn.trans hm.symm, fun _ => hn⟩
  · refine ⟨fun h => ?_, fun h => ?_⟩
    · rw [commandFootprint_of_none ((commandPre_eq_none hi).2 h), commandRanges_eq h]
    · obtain ⟨e, he⟩ := Option.ne_none_iff_exists'.1 fun hn => h ((commandPre_eq_none hi).1 hn)
      exact commandFootprint_of_some he

/-- Settles O51: in an idle block a CMD write is `issue`, and its flight has the footprint of the word. -/
theorem cmdWriteIssuesTheWord : Obligations.CmdWriteIssuesTheWord := by
  intro w s hs
  have hw : writeOffset 0x10 w s = issue w s :=
    (writeOffset_of_regAt (r := .cmd) rfl w s).trans (writeReg_of_cmd (.inl (busy_of_pending_none hs)) rfl w)
  have hback : { issue w s with pending := none, lastCmd := s.lastCmd, inFlight := s.inFlight } = s := by
    rw [← hs]
    rfl
  rw [hw]
  refine ⟨⟨rfl, rfl, rfl, hback⟩, _, rfl, rfl, fun hd => ?_, fun i hd => ?_⟩
  · simp only [wordFootprint, hd]
    rfl
  · simp only [wordFootprint, hd]
    exact commandFootprint_eq i s

end Sys2Proof.Machine
end

section
/-! What a command can do: one inversion lemma for `exec` (60_exceptions.md R320, R325, R326), from which each fact about every
command follows. -/

namespace Sys2Proof.Machine

/-! Lengths of what commands store. -/

@[simp] theorem length_leBytes (n v : Nat) : (leBytes n v).length = n := by
  induction n generalizing v with
  | zero => rfl
  | succ n ih => simp [leBytes, ih]

theorem length_slice {b : List Byte} {i j : Nat} (h : j ≤ b.length) : (slice b i j).length = j - i := by
  simp only [slice, List.length_take, List.length_drop]
  omega

/-- The record of R271 has 112 bytes. -/
theorem length_buildRecord {h : List Byte} (hl : h.length = Config.hdrLen) (c : ConfigRecord) (pf : Nat) :
    (buildRecord h c pf).length = Config.hdrLen := by
  have hlen : ∀ i j, j ≤ 112 → (slice h i j).length = j - i := fun i j hj => length_slice (hl ▸ hj)
  simp [buildRecord, hlen, Config.hdrMagic, Config.hdrLen]

theorem length_emittedRecord (s : State) : (emittedRecord s).length = Config.hdrLen :=
  length_buildRecord (Memory.length_read ..) _ _

theorem length_headerFrame (hb : List Byte) : (headerFrame hb).length = Config.frameBytes := length_packFrame _ _

theorem length_payloadFrame (s : State) (d : List Byte) : (payloadFrame (activeGeometry s) d).length = Config.frameBytes :=
  (length_packFrame _ _).trans (frameLen_activeGeometry s)

/-- What a record that passes ParseHeader's steps 4 to 9 satisfies (R276). -/
theorem headerError_eq_none {d : List Byte} (h : headerError d = none) :
    let hdr := slice d 2 114
    let g := configGeometry (recordConfig hdr)
    validate (recordConfig hdr) = none ∧ recordFrames hdr = ceilDiv (recordPayloadLen hdr) (g.c * g.k) ∧
      recordFrames hdr ≤ 2 ^ 32 - 2 := by
  simp only [headerError, firstError_cons_eq_none, firstError_nil, and_true, frameCountTooLarge, bne_eq_false_iff_eq,
    decide_eq_false_iff_not, Nat.not_lt, Option.isSome_eq_false_iff, Option.isNone_iff_eq_none] at h
  obtain ⟨-, -, -, -, hv, hpf, hle⟩ := h
  exact ⟨hv, hpf, hle⟩

/-- Everything ParseHeader can answer with a record (R276). -/
theorem parseHeader_ok_cases {vote : VoteMode} {frame : Nat → Byte} {hdr : List Byte} {corr : Nat}
    (h : parseHeader vote frame = .ok (hdr, corr)) :
    hdr.length = Config.hdrLen ∧ ∃ d, hdr = slice d 2 114 ∧ headerError d = none := by
  let word := slice (unpackFrame headerGeometry vote frame) 0 Config.cwLen
  have hword : word.length = 255 := length_slice (by rw [length_unpackFrame]; decide +kernel)
  cases hd : rsDec word Config.hdrParity [] with
  | none => cases (parseHeader_fail hd).symm.trans h
  | some ok =>
    cases he : headerError ok.data with
    | some e => cases (parseHeader_error hd he).symm.trans h
    | none =>
      cases (parseHeader_ok hd he).symm.trans h
      have hdata : ok.data.length = 191 := by rw [rsDec_data_length hd, hword]; rfl
      exact ⟨length_slice (by omega), ok.data, rfl, he⟩

/-! The effects of a command. -/

/-- `bs` fits the destination range of a command that passes its register tests (R81). -/
def FitsDestination (i : Instr) (s : State) (bs : List Byte) : Prop :=
  commandPre i s = none ∧ ∃ n, (commandRanges i s).writes = [⟨argDst s, n⟩] ∧ bs.length ≤ n

/-- The destination is in the command's row of R81. -/
theorem FitsDestination.mem_writes {i : Instr} {s : State} {bs : List Byte} (h : FitsDestination i s bs) :
    PassesRegisterTests i s ∧ ∃ n, ⟨argDst s, n⟩ ∈ (memoryRanges i s).writes ∧ bs.length ≤ n := by
  obtain ⟨hpre, n, hw, hl⟩ := h
  have hp := passesRegisterTests_of_pre hpre
  refine ⟨hp, n, ?_, hl⟩
  rw [← commandRanges_eq hp, hw]
  exact List.mem_singleton_self _

/-- `Effect s i e u`: from `s` the command `i` ends with the code `e`, and `u` is the state its completion starts from: `s` with
what the rule of the command writes. -/
inductive Effect (s : State) : Instr → ErrCode → State → Prop
  /-- an error of a precondition, or a command that writes no state but its results -/
  | keeps (i : Instr) (e : ErrCode) : Effect s i e s
  /-- CFG_COMMIT (R141) -/
  | commits (hpre : cfgCommitPre s = none) (hv : validate s.staging = none) :
    Effect s .cfgCommit .none { s with act := some s.staging }
  /-- a command outside the stream that stores (R176, R177, R245, R246) -/
  | stores {i : Instr} {bs : List Byte} (hi : FitsDestination i s bs) :
    Effect s i .none { s with mem := Memory.write s.mem (argDst s) bs }
  /-- STREAM_ENC_BEGIN (R280) -/
  | encBegins (hi : FitsDestination .streamEncBegin s (emittedRecord s)) (hrec : streamEncBeginRecordPre s = none) :
    Effect s .streamEncBegin .none { s with
      hb := emittedRecord s
      mem := Memory.write s.mem (argDst s) (emittedRecord s)
      seq := { phase := .encHeader, frameIdx := 0, totalFrames := BitVec.ofNat 32 (1 + hostFrameCount s)
               bytesRem := BitVec.ofNat 64 (recordPayloadLen (hostRecord s)), correctedTotal := 0, cwDone := 0 } }
  /-- STREAM_ENC_FRAME, the header frame (R285) -/
  | encHeader (hp : s.seq.phase = .encHeader) (hi : FitsDestination .streamEncFrame s (headerFrame s.hb)) :
    Effect s .streamEncFrame .none { s with
      mem := Memory.write s.mem (argDst s) (headerFrame s.hb)
      seq := { s.seq with frameIdx := 1, phase := if s.seq.totalFrames = 1 then .done else .encPayload } }
  /-- a payload frame, encoded or decoded (R285, R292) -/
  | advances {i : Instr} {bs : List Byte} {corrected : Nat}
    (hp : i = .streamEncFrame ∧ s.seq.phase = .encPayload ∨ i = .streamDecFrame ∧ s.seq.phase = .decPayload)
    (hi : FitsDestination i s bs) :
    Effect s i .none { s with
      mem := Memory.write s.mem (argDst s) bs
      seq := advanceSeq s.seq (payloadChunk s) (ceilDiv (payloadChunk s) (activeGeometry s).k) corrected }
  /-- STREAM_DEC_BEGIN (R290) -/
  | decBegins (hpre : streamDecBeginPre s = none) :
    Effect s .streamDecBegin .none { s with
      seq := { phase := .decHeader, frameIdx := 0, totalFrames := 0, bytesRem := 0, correctedTotal := 0, cwDone := 0 } }
  /-- STREAM_DEC_FRAME, the header frame accepted (R292) -/
  | decHeader {hdr : List Byte} {corr : Nat} (hp : s.seq.phase = .decHeader)
    (hparse : parseHeader s.vote (frameAt s.mem (argSrc s)) = .ok (hdr, corr))
    (hi : FitsDestination .streamDecFrame s hdr) :
    Effect s .streamDecFrame .none { s with
      hb := hdr
      staging := recordConfig hdr
      act := some (recordConfig hdr)
      mem := Memory.write s.mem (argDst s) hdr
      seq := { s.seq with
        totalFrames := BitVec.ofNat 32 (1 + recordFrames hdr)
        bytesRem := BitVec.ofNat 64 (recordPayloadLen hdr)
        frameIdx := 1
        correctedTotal := BitVec.ofNat 32 corr
        phase := if recordFrames hdr = 0 then .done else .decPayload } }
  /-- a processing error of STREAM_DEC_FRAME or STREAM_END (R292, R296) -/
  | fails {i : Instr} (hi : i = .streamDecFrame ∨ i = .streamEnd) (e : ErrCode) :
    Effect s i e { s with seq := { s.seq with phase := .failed } }
  /-- STREAM_END in DONE, STREAM_ABORT (R296, R297) -/
  | idles {i : Instr} (hi : i = .streamEnd ∨ i = .streamAbort) :
    Effect s i .none { s with seq := { s.seq with phase := .idle } }

/-- A command ends: an effect, then a completion. -/
def Ends (i : Instr) (s t : State) : Prop :=
  ∃ e irq r0 r1 r2 u, Effect s i e u ∧ t = finish e irq r0 r1 r2 u

theorem ends_raise (i : Instr) (s : State) (e : ErrCode) : Ends i s (raise e s) := ⟨e, _, _, _, _, s, .keeps i e, rfl⟩

theorem ends_complete {i : Instr} {s u : State} (h : Effect s i .none u) (r0 r1 r2 : Nat) : Ends i s (complete r0 r1 r2 u) :=
  ⟨.none, _, _, _, _, u, h, rfl⟩

theorem ends_failStream {i : Instr} (hi : i = .streamDecFrame ∨ i = .streamEnd) (s : State) (e : ErrCode) :
    Ends i s (failStream e s) :=
  ⟨e, _, _, _, _, _, .fails hi e, rfl⟩

theorem ends_store {i : Instr} {s : State} {bs : List Byte} {n : Nat} (hpre : commandPre i s = none)
    (hw : (commandRanges i s).writes = [⟨argDst s, n⟩]) (hl : bs.length ≤ n) (r0 r1 r2 : Nat) :
    Ends i s (complete r0 r1 r2 { s with mem := Memory.write s.mem (argDst s) bs }) :=
  ends_complete (.stores ⟨hpre, n, hw, hl⟩) r0 r1 r2

theorem ends_orRaise {i : Instr} {s : State} {pre : Option ErrCode} {go : State → State} (h : pre = none → Ends i s (go s)) :
    Ends i s (orRaise pre s go) :=
  orRaise_ind (fun e _ => ends_raise i s e) h

/-! The commands with more than one outcome behind their preconditions. -/

theorem streamEncFramePre_phase {s : State} (h : streamEncFramePre s = none) :
    s.seq.phase = .encHeader ∨ s.seq.phase = .encPayload :=
  (streamEncFramePre_eq_none.1 h).2.imp id And.left

theorem streamDecFramePre_phase {s : State} (h : streamDecFramePre s = none) :
    s.seq.phase = .decHeader ∨ s.seq.phase = .decPayload :=
  (streamDecFramePre_eq_none.1 h).2.imp And.left And.left

theorem ends_decodeHeaderFrame {s : State} (hp : s.seq.phase = .decHeader) (hpre : streamDecFramePre s = none) :
    Ends .streamDecFrame s (decodeHeaderFrame s) := by
  unfold decodeHeaderFrame
  cases hparse : parseHeader s.vote (frameAt s.mem (argSrc s)) with
  | error e => exact ends_failStream (.inl rfl) s e
  | ok r =>
    obtain ⟨hdr, corr⟩ := r
    have hfit : FitsDestination .streamDecFrame s hdr :=
      ⟨hpre, Config.hdrLen, by simp [commandRanges, hp], (parseHeader_ok_cases hparse).1.le⟩
    exact ends_complete (.decHeader hp hparse hfit) _ _ _

theorem ends_decodePayloadFrame {s : State} (hp : s.seq.phase = .decPayload) (hpre : streamDecFramePre s = none) :
    Ends .streamDecFrame s (decodePayloadFrame s) := by
  unfold decodePayloadFrame
  cases hd : decodeSlots (activeGeometry s).p (unpackFrame (activeGeometry s) s.vote (frameAt s.mem (argSrc s)))
      (List.range (ceilDiv (payloadChunk s) (activeGeometry s).k)) with
  | none =>
    simp only [hd]
    exact ends_failStream (.inl rfl) s _
  | some oks =>
    simp only [hd]
    have hfit : FitsDestination .streamDecFrame s ((decodedBytes oks).take (payloadChunk s)) :=
      ⟨hpre, payloadChunk s, by simp [commandRanges, hp], List.length_take_le _ _⟩
    exact ends_complete (.advances (.inr ⟨rfl, hp⟩) hfit) _ _ _

/-- Everything a command can do. -/
theorem exec_ends {i : Instr} {s t : State} (h : exec i s = .next t) : Ends i s t := by
  cases i <;> obtain rfl := Host.Outcome.next.inj h
  case nop => exact ends_complete (.keeps ..) _ _ _
  case cfgCommit =>
    exact ends_orRaise fun hpre => ends_orRaise fun hv => ends_complete (.commits hpre hv) _ _ _
  case rsEncode => exact ends_orRaise fun hpre => ends_store (i := .rsEncode) hpre rfl (by simp) _ _ _
  case rsDecode =>
    refine ends_orRaise fun hpre => ends_orRaise fun _ => ?_
    split
    · exact ends_raise _ s _
    · next ok hd =>
      have hlen : ok.data.length = argLen s - auxParity s := by rw [rsDec_data_length hd, Memory.length_read]
      exact ends_store (i := .rsDecode) hpre rfl hlen.le _ _ _
  case quant | dequant | dequantBlock => exact ends_orRaise fun _ => ends_complete (.keeps ..) _ _ _
  case packFrame =>
    exact ends_orRaise fun hpre => ends_store (i := .packFrame) hpre rfl (by simp [frameLen_activeGeometry]) _ _ _
  case unpackFrame => exact ends_orRaise fun hpre => ends_store (i := .unpackFrame) hpre rfl (by simp) _ _ _
  case streamEncBegin =>
    exact ends_orRaise fun hpre => ends_orRaise fun hrec =>
      ends_complete (.encBegins ⟨hpre, _, rfl, (length_emittedRecord s).le⟩ hrec) _ _ _
  case streamEncFrame =>
    refine ends_orRaise fun hpre => ?_
    have hfit : ∀ bs, bs.length = Config.frameBytes → FitsDestination .streamEncFrame s bs :=
      fun bs hl => ⟨hpre, _, rfl, hl.le⟩
    rcases streamEncFramePre_phase hpre with hp | hp
    · rw [if_pos hp]
      exact ends_complete (.encHeader hp (hfit _ (length_headerFrame _))) _ _ _
    · rw [if_neg (by simp [hp])]
      exact ends_complete (.advances (.inl ⟨rfl, hp⟩) (hfit _ (length_payloadFrame s _))) _ _ _
  case streamDecBegin => exact ends_orRaise fun hpre => ends_complete (.decBegins hpre) _ _ _
  case streamDecFrame =>
    refine ends_orRaise fun hpre => ?_
    rcases streamDecFramePre_phase hpre with hp | hp
    · rw [if_pos hp]
      exact ends_decodeHeaderFrame hp hpre
    · rw [if_neg (by simp [hp])]
      exact ends_decodePayloadFrame hp hpre
  case streamEnd =>
    refine ends_orRaise fun _ => ?_
    cases s.seq.phase
    case idle | done | failed => exact ends_complete (.idles (.inl rfl)) _ _ _
    all_goals exact ends_failStream (.inr rfl) s _
  case streamAbort => exact ends_complete (.idles (.inr rfl)) _ _ _

/-! The obligations that are one look at each effect. -/

/-- No effect and no completion writes what the host writes. -/
theorem Ends.keepsHostWritten {i : Instr} {s t : State} (h : Ends i s t) : KeepsHostWritten s t := by
  obtain ⟨e, irq, r0, r1, r2, u, heff, rfl⟩ := h
  have hu : KeepsHostWritten s u := by cases heff <;> exact ⟨rfl, rfl, rfl, rfl, rfl, rfl, rfl, rfl, rfl, rfl, rfl⟩
  exact { hu with flights := (map_landed_ranges _ _).trans hu.flights }

/-- Settles O44. -/
theorem commandsKeepHostWrittenRegisters : Obligations.CommandsKeepHostWrittenRegisters :=
  fun _ _ _ h => (exec_ends h).keepsHostWritten

/-- What an effect does to the configuration (R40, R41). -/
theorem Effect.config {s u : State} {i : Instr} {e : ErrCode} (h : Effect s i e u) :
    (u.act = s.act ∧ u.staging = s.staging) ∨
      (i = .cfgCommit ∧ e = .none ∧ cfgCommitPre s = none ∧ u.act = some s.staging ∧ validate s.staging = none ∧
        u.staging = s.staging) ∨
      (i = .streamDecFrame ∧ e = .none ∧ s.seq.phase = .decHeader ∧ ∃ c, u.act = some c ∧ validate c = none) := by
  cases h
  case commits hpre hv => exact .inr (.inl ⟨rfl, rfl, hpre, rfl, hv, rfl⟩)
  case decHeader hp hparse _ =>
    obtain ⟨-, d, rfl, hd⟩ := parseHeader_ok_cases hparse
    exact .inr (.inr ⟨rfl, rfl, hp, _, rfl, (headerError_eq_none hd).1⟩)
  all_goals exact .inl ⟨rfl, rfl⟩

theorem cfgCommitPre_eq_none {s : State} :
    cfgCommitPre s = none ↔ s.seq.phase ∉ [Phase.encHeader, .encPayload, .decHeader, .decPayload] := by
  unfold cfgCommitPre
  cases s.seq.phase <;> decide

/-- Settles O45. -/
theorem activeConfigurationWriters : Obligations.ActiveConfigurationWriters := by
  intro i s t h
  obtain ⟨e, irq, r0, r1, r2, u, heff, rfl⟩ := exec_ends h
  simp only [finish_act, finish_staging, finish_errCode]
  rcases heff.config with ⟨ha, hs⟩ | ⟨rfl, he, hp, ha, -, hs⟩ | ⟨rfl, he, hp, c, ha, -⟩
  · exact ⟨fun hn => absurd ha hn, fun hn => absurd hs hn⟩
  · exact ⟨fun _ => ⟨he, by simp [ha], .inl ⟨rfl, cfgCommitPre_eq_none.1 hp⟩⟩, fun hn => absurd hs hn⟩
  · exact ⟨fun _ => ⟨he, by simp [ha], .inr ⟨rfl, hp⟩⟩, fun _ => ⟨rfl, hp, he⟩⟩

end Sys2Proof.Machine
end

section
/-! The engine's step (10_state.md R60), and reset (R36, R64; 70_reset_and_hazards.md R360, R362): what each of its four forms
leaves. -/

namespace Sys2Proof.Machine

/-! The engine's step. -/

theorem runWord_illegal {w : Word} (h : decode w = none) (s : State) : runWord w s = .next (raise .illegalCmd s) := by
  simp [runWord, h]

theorem runWord_legal {w : Word} {i : Instr} (h : decode w = some i) (s : State) : runWord w s = exec i s := by
  simp [runWord, h]

/-- A word ends as a command does; an illegal one as a command that raises. -/
theorem runWord_ends {w : Word} {s t : State} (h : runWord w s = .next t) : ∃ i, Ends i s t := by
  cases hd : decode w with
  | none =>
    cases (runWord_illegal hd s).symm.trans h
    exact ⟨.nop, ends_raise .nop s .illegalCmd⟩
  | some i => exact ⟨i, exec_ends ((runWord_legal hd s).symm.trans h)⟩

theorem engineStep_idle {s : State} (h : s.pending = none) : engineStep s = .next s := by
  simp [engineStep, h]

theorem engineStep_busy {s : State} {w : Word} (h : s.pending = some w) : engineStep s = runWord w s := by
  simp [engineStep, h]

theorem landedMemory_of_next {s t : State} (h : engineStep s = .next t) : landedMemory s = t.mem := by
  simp [landedMemory, h]

theorem resetMemory_idle {s : State} (h : s.pending = none) : resetMemory s = s.mem := by
  simp [resetMemory, h]

theorem resetMemory_busy {s : State} {w : Word} (h : s.pending = some w) :
    resetMemory s = Memory.blend (Config.srstLands s.draws) s.mem (landedMemory s) := by
  simp [resetMemory, h]

/-! The four forms of a reset. -/

theorem releaseResetInput_asserted {s : State} (h : s.resetInput = true) :
    releaseResetInput s = { resetBlock s with resetInput := false } := by
  simp [releaseResetInput, h]

theorem releaseResetInput_released {s : State} (h : s.resetInput = false) : releaseResetInput s = s := by
  simp [releaseResetInput, h]

theorem writeOffset_ctrl (v : Word) (s : State) : writeOffset 0x08 v s = writeCtrl v s :=
  (writeOffset_of_regAt (r := .ctrl) rfl v s).trans (writeReg_of_w1a (.inr rfl) rfl v)

/-- Each form of a reset leaves a reset block, and memory as a reset of the block leaves it. -/
theorem IsReset.cases {s t : State} (h : IsReset s t) :
    (∃ u b, t = { resetBlock u with resetInput := b }) ∧ t.mem = resetMemory s := by
  rcases h with ⟨v, hv, rfl⟩ | h | ⟨ha, h⟩ | h
  · rw [writeOffset_ctrl, writeCtrl_srst hv]
    exact ⟨⟨s, s.resetInput, rfl⟩, rfl⟩
  · obtain rfl := Host.Outcome.next.inj h
    exact ⟨⟨s, true, rfl⟩, rfl⟩
  · obtain rfl := Host.Outcome.next.inj h
    rw [releaseResetInput_asserted ha]
    exact ⟨⟨s, false, rfl⟩, rfl⟩
  · obtain rfl := Host.Outcome.next.inj h
    rw [releaseResetInput_asserted rfl]
    exact ⟨⟨assertResetInput s, false, rfl⟩, resetMemory_idle (s := assertResetInput s) rfl⟩

/-- Settles O57. -/
theorem resetRestoresTheTable : Obligations.ResetRestoresTheTable := by
  intro s
  have hrel : (releaseResetInput s).resetInput = false := by
    rcases releaseResetInput_cases s with ⟨-, h⟩ | ⟨hs, h⟩ <;> rw [h]
    exact hs
  refine ⟨fun t ht => ?_, ⟨_, rfl, rfl⟩, ⟨_, rfl, hrel⟩, fun hs => congrArg _ (releaseResetInput_released hs),
    ⟨_, rfl, rfl⟩, fun v => ?_⟩
  · obtain ⟨⟨u, b, hu⟩, hmem⟩ := ht.cases
    refine ⟨?_, fun hs => hmem.trans (resetMemory_idle hs)⟩
    rw [hu]
    exact ⟨rfl, rfl, rfl, rfl, rfl, rfl, rfl, rfl, rfl, rfl, rfl, rfl, rfl, rfl, rfl, by simp [irqLine, State.reset]⟩
  · rw [writeOffset_ctrl]
    exact ⟨writeCtrl_resetInput v s, fun h0 h1 => writeCtrl_clrOverrun h0 h1 s, fun h0 h1 => writeCtrl_neither h0 h1 s⟩

/-! Memory after a reset of a busy block (R362). -/

theorem Memory.blend_cons (lands : Nat → Bool) (old : Memory) (c : Host.Cell) (new : Memory) :
    Memory.blend lands old (c :: new) =
      ((if lands c.1 then some c.2 else Memory.lookup old c.1).map (c.1, ·)).toList ++ Memory.blend lands old new := by
  rw [Memory.blend, List.filterMap_cons]
  cases lands c.1
  · cases Memory.lookup old c.1 <;> rfl
  · rfl

/-- A blend lists what the new memory lists, each byte old or new. -/
theorem Memory.lookup_blend (lands : Nat → Bool) (old new : Memory) (a : Nat) :
    Memory.lookup (Memory.blend lands old new) a =
      (Memory.lookup new a).bind fun v => if lands a then some v else Memory.lookup old a := by
  induction new with
  | nil => rfl
  | cons c new ih =>
    rw [Memory.blend_cons, Memory.lookup_append, ih, Memory.lookup_cons]
    by_cases hc : c.1 = a
    · subst hc
      cases lands c.1
      · cases Memory.lookup old c.1 <;> simp [Memory.lookup_cons]
      · simp [Memory.lookup_cons]
    · cases (if lands c.1 then some c.2 else Memory.lookup old c.1) <;> simp [Memory.lookup_cons, hc]

theorem Memory.readByte_congr {m m' : Memory} {a : Nat} (h : Memory.lookup m a = Memory.lookup m' a) :
    Memory.readByte m a = Memory.readByte m' a := by
  simp [Memory.readByte, h]

/-- Each byte of a blend is the old or the new one. -/
theorem Memory.readByte_blend (lands : Nat → Bool) (old new : Memory) (a : Nat) :
    Memory.readByte (Memory.blend lands old new) a = Memory.readByte old a ∨
      Memory.readByte (Memory.blend lands old new) a = Memory.readByte new a := by
  cases hn : Memory.lookup new a with
  | none => exact .inr (Memory.readByte_congr (by rw [Memory.lookup_blend, hn, Option.bind_none]))
  | some v =>
    have hb := Memory.lookup_blend lands old new a
    rw [hn, Option.bind_some] at hb
    cases hl : lands a <;> rw [hl] at hb
    · exact .inl (Memory.readByte_congr hb)
    · exact .inr (Memory.readByte_congr (hb.trans hn.symm))

/-- A byte that the new memory lists as the old one does is the old one in the blend. -/
theorem Memory.readByte_blend_same {lands : Nat → Bool} {old new : Memory} {a : Nat}
    (h : Memory.lookup new a = Memory.lookup old a) :
    Memory.readByte (Memory.blend lands old new) a = Memory.readByte old a := by
  apply Memory.readByte_congr
  rw [Memory.lookup_blend, h]
  cases Memory.lookup old a <;> simp

/-- The one place an effect stores: the destination of the command's row of R81, inside memory. -/
theorem Effect.mem {s u : State} {i : Instr} {e : ErrCode} (h : Effect s i e u) :
    u.mem = s.mem ∨ ∃ bs, FitsDestination i s bs ∧ u.mem = Memory.write s.mem (argDst s) bs := by
  cases h
  case stores bs hi => exact .inr ⟨bs, hi, rfl⟩
  case encBegins hi _ => exact .inr ⟨_, hi, rfl⟩
  case encHeader _ hi => exact .inr ⟨_, hi, rfl⟩
  case advances _ hi => exact .inr ⟨_, hi, rfl⟩
  case decHeader _ _ hi => exact .inr ⟨_, hi, rfl⟩
  all_goals exact .inl rfl

/-- What a command lists outside its destination ranges is what was listed before. -/
theorem lookup_outside_writes {i : Instr} {s t : State} (h : exec i s = .next t) {a : Nat}
    (ha : ∀ r ∈ (memoryRanges i s).writes, a < r.base ∨ r.base + r.len ≤ a) :
    Memory.lookup t.mem a = Memory.lookup s.mem a := by
  obtain ⟨e, irq, r0, r1, r2, u, heff, rfl⟩ := exec_ends h
  rw [finish_mem]
  rcases heff.mem with hm | ⟨bs, hfit, hm⟩
  · rw [hm]
  · obtain ⟨-, n, hn, hl⟩ := hfit.mem_writes
    have ha : a < argDst s ∨ argDst s + n ≤ a := ha _ hn
    rw [hm, Memory.lookup_write, if_neg (by omega)]

/-- Settles O58: memory is the blend of the old and of what the pending word leaves. -/
theorem busyResetLeavesOldOrNewBytes : Obligations.BusyResetLeavesOldOrNewBytes := by
  intro s t w _ hs ht
  obtain ⟨-, hmem⟩ := ht.cases
  rw [hmem, resetMemory_busy hs]
  refine ⟨fun hd a => ?_, fun i u hd hu a => ?_⟩
  · have hl : landedMemory s = s.mem := (landedMemory_of_next ((engineStep_busy hs).trans (runWord_illegal hd s))).trans rfl
    rw [hl]
    exact Memory.readByte_blend_same rfl
  · have hl : landedMemory s = u.mem := landedMemory_of_next (((engineStep_busy hs).trans (runWord_legal hd s)).trans hu)
    rw [hl]
    exact ⟨Memory.readByte_blend _ _ _ _, fun ha => Memory.readByte_blend_same (lookup_outside_writes hu ha)⟩

end Sys2Proof.Machine
end

section
/-! The agents' moves (10_state.md R60, 30_encoding.md R117): a step by the schedule, and one inversion lemma for the host's
operations. -/

namespace Sys2Proof.Machine

/-! `step`, by what the schedule names (log 1). -/

theorem step_engine {s : State} {rest : List Agent} (h : s.sched = .engine :: rest) :
    step s = engineStep { s with sched := rest } := by
  simp [step, h]

theorem step_host {s : State} {rest : List Agent} (h : s.sched = .host :: rest) :
    step s = hostStep { s with sched := rest } := by
  simp [step, h]

theorem step_unscheduled_busy {s : State} (h : s.sched = []) (hb : busy s = true) : step s = engineStep s := by
  simp [step, h, hb]

theorem step_unscheduled_idle {s : State} (h : s.sched = []) (hb : busy s = false) : step s = hostStep s := by
  simp [step, h, hb]

theorem hostStep_nil {s : State} (h : s.host = []) : hostStep s = .next s := by
  simp [hostStep, h]

theorem hostStep_cons {s : State} {op : HostOp} {ops : List HostOp} (h : s.host = op :: ops) :
    hostStep s = runHostOp op { s with host := ops } := by
  simp [hostStep, h]

/-- Settles O4: by the head of the schedule, then by what the agent it names has to do. -/
theorem stepRunsDecodedCommand : Obligations.StepRunsDecodedCommand := by
  refine ⟨fun s w i hw hi => ?_, fun s op ops hop => ?_, fun s => ?_⟩
  · have hrun : ∀ u : State, u.pending = some w → engineStep u = exec i u :=
      fun u hu => (engineStep_busy hu).trans (runWord_legal hi u)
    exact ⟨fun h => (step_unscheduled_busy h (busy_of_pending_some hw)).trans (hrun s hw),
      fun rest h => (step_engine h).trans (hrun _ hw)⟩
  · exact ⟨fun h hn => (step_unscheduled_idle h (busy_of_pending_none hn)).trans (hostStep_cons hop),
      fun rest h => (step_host h).trans (hostStep_cons hop)⟩
  · exact ⟨fun hh h hn => (step_unscheduled_idle h (busy_of_pending_none hn)).trans (hostStep_nil hh),
      fun hh rest h => (step_host h).trans (hostStep_nil hh), fun hn rest h => (step_engine h).trans (engineStep_idle hn)⟩

/-! The host's accesses. -/

theorem accessLegal_iff {off : BitVec 8} {width : Nat} : accessLegal off width = true ↔ width = 32 ∧ off.toNat % 4 = 0 := by
  simp [accessLegal]

theorem runHostOp_regRead {off : BitVec 8} {width : Nat} (h : accessLegal off width = true) (s : State) :
    runHostOp (.regRead off width) s = .next (hostRead off s) := by
  simp [runHostOp, h]

theorem runHostOp_regWrite {off : BitVec 8} {width : Nat} (h : accessLegal off width = true) (v : Word) (s : State) :
    runHostOp (.regWrite off width v) s = .next (hostWrite off v s) := by
  simp [runHostOp, h]

theorem runHostOp_illegal {off : BitVec 8} {width : Nat} (h : accessLegal off width = false) (s : State) :
    runHostOp (.regRead off width) s = .fault .hostBusError ∧
      ∀ v, runHostOp (.regWrite off width v) s = .fault .hostBusError := by
  simp [runHostOp, h]

/-- A STATUS read of an idle block observes every completion, another read none (R90 item 4). -/
theorem observeStatus_eq (off : BitVec 8) (s : State) :
    observeStatus off s = { s with inFlight := if off = 0x0C ∧ s.pending = none then [] else s.inFlight } := by
  have hiff : (decide (off = regOffset .status) && !busy s) = true ↔ off = 0x0C ∧ s.pending = none := by
    rw [Bool.and_eq_true, decide_eq_true_iff, Bool.not_eq_true', busy_eq_false]
    rfl
  unfold observeStatus
  by_cases h : off = 0x0C ∧ s.pending = none
  · rw [if_pos (hiff.2 h), if_pos h]
  · rw [if_neg (mt hiff.1 h), if_neg h]

/-- Everything a register read does. -/
theorem hostRead_eq (off : BitVec 8) (s : State) :
    hostRead off s = { s with
      hostReads := .reg off (readOffset off s) :: s.hostReads
      inFlight := if off = 0x0C ∧ s.pending = none then [] else s.inFlight } := by
  rw [hostRead, observeStatus_eq]

theorem hostRead_with_host (off : BitVec 8) (s : State) : { hostRead off s with host := s.host } = hostRead off s := by
  rw [hostRead_eq]

theorem runHostOp_wait (s : State) :
    runHostOp .wait s =
      .next (if s.pending = none then hostRead 0x0C s else { hostRead 0x0C s with host := .wait :: s.host }) := by
  have hhost : (hostRead 0x0C s).host = s.host := by rw [hostRead_eq]
  change Host.Outcome.next (if busy s then { hostRead 0x0C s with host := .wait :: (hostRead 0x0C s).host }
    else hostRead 0x0C s) = _
  rw [hhost]
  cases h : s.pending with
  | none => rw [busy_of_pending_none h]; rfl
  | some w => rw [busy_of_pending_some h]; rfl

theorem runHostOp_takeIrq_asserted {s : State} (h : irqLine s = true) : runHostOp .takeIrq s = .next (observeIrq s) := by
  simp [runHostOp, h]

theorem runHostOp_takeIrq_deasserted {s : State} (h : irqLine s = false) :
    runHostOp .takeIrq s = .next { s with host := .takeIrq :: s.host } := by
  simp [runHostOp, h]

theorem signalled_iff {s : State} {f : Flight} : signalled s f = true ↔ Signals s f := by
  have hbits : ∀ b x y : BitVec 2,
      ((b &&& x &&& y) != 0) = true ↔ ∃ k, k < 2 ∧ b.getLsbD k = true ∧ x.getLsbD k = true ∧ y.getLsbD k = true := by
    decide +kernel
  unfold signalled Signals
  rw [hbits]
  cases hf : f.irqBits with
  | none => simp
  | some b => simp

theorem not_signalled_iff {s : State} {f : Flight} : (!signalled s f) = true ↔ ¬Signals s f := by
  rw [← signalled_iff, Bool.not_eq_true', Bool.not_eq_true]

/-- Everything a host store can do. -/
theorem hostStore_cases {a : Nat} {bs : List Byte} {s t : State} (h : hostStore a bs s = .next t) :
    checkRange a bs.length = true ∧ t = { s with mem := Memory.write s.mem a bs } := by
  unfold hostStore at h
  split at h
  · cases h
  · next hc =>
    split at h
    · cases h
    · exact ⟨by simpa using hc, (Host.Outcome.next.inj h).symm⟩

theorem hostStore_next {a : Nat} {bs : List Byte} {s : State} (hc : checkRange a bs.length = true)
    (hr : storeRaces s a bs.length = false) : hostStore a bs s = .next { s with mem := Memory.write s.mem a bs } := by
  simp [hostStore, hc, hr]

/-- Everything a host load can do. -/
theorem hostLoad_cases {a : Word} {n : Nat} {s t : State} (h : hostLoad a n s = .next t) :
    t = { s with hostReads := .mem a (Memory.read s.mem a.toNat n) :: s.hostReads } := by
  unfold hostLoad at h
  split at h
  · cases h
  · split at h
    · cases h
    · exact (Host.Outcome.next.inj h).symm

theorem hostLoad_next {a : Word} {n : Nat} {s : State} (hc : checkRange a.toNat n = true) (hr : loadRaces s a.toNat n = false) :
    hostLoad a n s = .next { s with hostReads := .mem a (Memory.read s.mem a.toNat n) :: s.hostReads } := by
  simp [hostLoad, hc, hr]

/-- The flights after taking the interrupt (R90 item 4): those newer than the newest one that it signals. -/
theorem takeWhile_not_signalled {s : State} {newer older : List Flight} {f : Flight} (h : s.inFlight = newer ++ f :: older)
    (hf : Signals s f) (hn : ∀ g ∈ newer, ¬Signals s g) : s.inFlight.takeWhile (fun g => !signalled s g) = newer := by
  have hnew : ∀ g ∈ newer, (!signalled s g) = true := fun g hg => not_signalled_iff.2 (hn g hg)
  rw [h, List.takeWhile_append_of_pos hnew, List.takeWhile_cons_of_neg (by simp [signalled_iff.2 hf]), List.append_nil]

theorem takeWhile_none_signalled {s : State} (hn : ∀ g ∈ s.inFlight, ¬Signals s g) :
    s.inFlight.takeWhile (fun g => !signalled s g) = s.inFlight :=
  List.takeWhile_eq_self_iff.2 fun g hg => not_signalled_iff.2 (hn g hg)

/-- Settles O53, one rule of a host operation per clause. -/
theorem registerReadsHaveNoSideEffect : Obligations.RegisterReadsHaveNoSideEffect := by
  intro off width s
  refine ⟨fun hw ha => ?_, fun hn => ?_, ⟨_, rfl, runHostOp_wait s⟩, runHostOp_takeIrq_deasserted, fun hl => ?_,
    fun a bs hm hf => ?_, fun a n hm hf => ?_⟩
  · have hlegal := accessLegal_iff.2 ⟨hw, ha⟩
    refine ⟨⟨_, (runHostOp_regRead hlegal s).trans (congrArg _ (hostRead_eq off s)), rfl, rfl, rfl⟩, fun v => ?_⟩
    exact runHostOp_regWrite hlegal v s
  · refine runHostOp_illegal (Bool.eq_false_iff.2 fun h => ?_) s
    obtain ⟨hw, ha⟩ := accessLegal_iff.1 h
    exact hn.elim (· hw) (· ha)
  · exact ⟨_, runHostOp_takeIrq_asserted hl, rfl, fun newer f older => takeWhile_not_signalled, takeWhile_none_signalled⟩
  · exact ⟨_, hostStore_next ((checkRange_iff _ _).2 hm) (storeRaces_eq_false.2 hf), write_storesAt rfl, rfl⟩
  · refine ⟨_, _, hostLoad_next ((checkRange_iff _ _).2 hm) (loadRaces_eq_false.2 hf), rfl, Memory.length_read ..,
      fun i hi => ?_, rfl⟩
    rw [List.getD_eq_getElem _ _ (by simpa using hi), Memory.getElem_read]

/-! Everything a host operation can do. -/

/-- `HostEffect s op t`: what `op` makes of `s` when it does not fault. -/
inductive HostEffect (s : State) : HostOp → State → Prop
  /-- no register changes: a read, a load, a store, a wait, the interrupt, a write under the asserted reset input -/
  | outside {op : HostOp} {m : Memory} {fl : List Flight} {ops : List HostOp} {rs : List HostRead}
    (hm : m = s.mem ∨ ∃ a bs, checkRange a bs.length = true ∧ m = Memory.write s.mem a bs)
    (hf : fl = s.inFlight ∨ s.pending = none ∧ fl = [] ∨ fl = s.inFlight.takeWhile fun f => !signalled s f) :
    HostEffect s op { s with mem := m, inFlight := fl, host := ops, hostReads := rs }
  /-- a register write -/
  | writes {off : BitVec 8} {width : Nat} {r : Reg} {v : Word} (hr : regAt off = some r) (hs : s.resetInput = false) :
    HostEffect s (.regWrite off width v) (writeReg r v s)
  /-- the reset input -/
  | asserts : HostEffect s .assertReset (assertResetInput s)
  | releases : HostEffect s .releaseReset (releaseResetInput s)
  | pulses : HostEffect s .hwReset (releaseResetInput (assertResetInput s))

theorem HostEffect.nothing (s : State) (op : HostOp) : HostEffect s op s :=
  .outside (m := s.mem) (fl := s.inFlight) (ops := s.host) (rs := s.hostReads) (.inl rfl) (.inl rfl)

theorem hostEffect_hostWrite (off : BitVec 8) (width : Nat) (v : Word) (s : State) :
    HostEffect s (.regWrite off width v) (hostWrite off v s) := by
  cases hs : s.resetInput with
  | true => rw [hostWrite_asserted hs]; exact .nothing s _
  | false =>
    rw [hostWrite_released hs]
    cases hr : regAt off with
    | none => rw [writeOffset, hr]; exact .nothing s _
    | some r => rw [writeOffset_of_regAt hr]; exact .writes hr hs

theorem hostEffect_hostRead (op : HostOp) (off : BitVec 8) (ops : List HostOp) (s : State) :
    HostEffect s op { hostRead off s with host := ops } := by
  rw [hostRead_eq]
  refine .outside (.inl rfl) ?_
  split
  · next h => exact .inr (.inl ⟨h.2, rfl⟩)
  · exact .inl rfl

theorem runHostOp_effect {op : HostOp} {s t : State} (h : runHostOp op s = .next t) : HostEffect s op t := by
  cases op with
  | regRead off width =>
    cases hl : accessLegal off width with
    | false => cases ((runHostOp_illegal hl s).1).symm.trans h
    | true =>
      cases (runHostOp_regRead hl s).symm.trans h
      rw [← hostRead_with_host]
      exact hostEffect_hostRead _ off s.host s
  | regWrite off width v =>
    cases hl : accessLegal off width with
    | false => cases ((runHostOp_illegal hl s).2 v).symm.trans h
    | true =>
      cases (runHostOp_regWrite hl v s).symm.trans h
      exact hostEffect_hostWrite off width v s
  | wait =>
    cases (runHostOp_wait s).symm.trans h
    split
    · rw [← hostRead_with_host]
      exact hostEffect_hostRead _ 0x0C s.host s
    · exact hostEffect_hostRead _ 0x0C (.wait :: s.host) s
  | takeIrq =>
    cases hl : irqLine s with
    | true => cases (runHostOp_takeIrq_asserted hl).symm.trans h; exact .outside (.inl rfl) (.inr (.inr rfl))
    | false => cases (runHostOp_takeIrq_deasserted hl).symm.trans h; exact .outside (.inl rfl) (.inl rfl)
  | memStore a bs =>
    obtain ⟨hc, rfl⟩ := hostStore_cases h
    exact .outside (.inr ⟨_, bs, hc, rfl⟩) (.inl rfl)
  | memLoad a n =>
    obtain rfl := hostLoad_cases h
    exact .outside (.inl rfl) (.inl rfl)
  | assertReset => cases h; exact .asserts
  | releaseReset => cases h; exact .releases
  | hwReset => cases h; exact .pulses

/-- Settles O54: an operation that changes no register, or a register write, which while busy is CTRL's, or sets OVERRUN, or
stores to a register that is not guarded. -/
theorem busyHostStepKeepsResultsAndOperands : Obligations.BusyHostStepKeepsResultsAndOperands := by
  intro op s t w hw h
  have hb := busy_of_pending_some hw
  cases runHostOp_effect h
  case outside => exact .inl ⟨hw, rfl, rfl, rfl, rfl, rfl, rfl, rfl, rfl, rfl, rfl, rfl⟩
  case asserts | releases | pulses => exact .inr (.inl (by decide))
  case writes off width r v hr hs =>
    rcases writeReg_cases r v s with ⟨-, h⟩ | ⟨rfl, h⟩ | ⟨hn, -⟩ | ⟨hu, h⟩
    · rw [h]
      exact .inl ⟨hw, rfl, rfl, rfl, rfl, rfl, rfl, rfl, rfl, rfl, rfl, rfl⟩
    · rcases writeCtrl_cases v s with ⟨hv, -⟩ | ⟨-, b, hc⟩
      · exact .inr (.inr ⟨off, width, v, rfl, (regOffset_of_regAt hr).symm, hv⟩)
      · rw [h, hc]
        exact .inl ⟨hw, rfl, rfl, rfl, rfl, rfl, rfl, rfl, rfl, rfl, rfl, rfl⟩
    · exact absurd hb (by simp [hn])
    · obtain ⟨hargs, hstaging, hvote⟩ := storeReg_of_unguarded (hu.resolve_left (by simp [hb])) v s
      rw [h]
      exact .inl ⟨(storeReg_pending ..).trans hw, storeReg_res0 .., storeReg_res1 .., storeReg_res2 .., storeReg_errCode ..,
        storeReg_seq .., storeReg_hb .., storeReg_act .., hstaging, hargs, hvote, storeReg_lastCmd ..⟩

end Sys2Proof.Machine
end

section
/-! The invariant (10_state.md R41, R56, R63; 44_stream.md R272, R285; 70_reset_and_hazards.md R360, R366): the counts of a
stream, then each part of the invariant over each effect, of a command and of a host operation. -/

namespace Sys2Proof.Machine

/-! `ceil_div` (R7), by the inequality that defines it. -/

theorem ceilDiv_le_iff {a b q : Nat} (hb : 0 < b) : ceilDiv a b ≤ q ↔ a ≤ q * b := by
  rw [ceilDiv, ← Nat.lt_succ_iff, Nat.div_lt_iff_lt_mul hb, Nat.succ_mul]
  omega

theorem ceilDiv_eq_zero {a b : Nat} (hb : 0 < b) : ceilDiv a b = 0 ↔ a = 0 := by
  rw [← Nat.le_zero, ceilDiv_le_iff hb, Nat.zero_mul, Nat.le_zero]

theorem ceilDiv_ceilDiv {k c : Nat} (hk : 0 < k) (hc : 0 < c) (n : Nat) :
    ceilDiv (ceilDiv n k) c = ceilDiv n (c * k) :=
  eq_of_forall_ge_iff fun q => by
    rw [ceilDiv_le_iff hc, ceilDiv_le_iff hk, ceilDiv_le_iff (Nat.mul_pos hc hk), Nat.mul_assoc]

theorem ceilDiv_sub {m : Nat} (hm : 0 < m) (n : Nat) : ceilDiv (n - m) m = ceilDiv n m - 1 :=
  eq_of_forall_ge_iff fun q => by
    rw [ceilDiv_le_iff hm, Nat.sub_le_iff_le_add, Nat.sub_le_iff_le_add, ceilDiv_le_iff hm, Nat.succ_mul]

/-! A validated configuration (R142). -/

theorem mem_legalLevels_log2 : ∀ l ∈ legalLevels, Nat.log2 l ≤ 8 := by decide +kernel

/-- What a validated configuration satisfies of its numbers. -/
theorem validate_numbers {c : ConfigRecord} (h : validate c = none) :
    Nat.log2 c.levels.toNat ≤ 8 ∧ c.eccParity.toNat ≤ 254 ∧ 0 < (configGeometry c).c := by
  simp only [validate, validateOn, firstError_cons_eq_none, firstError_nil, and_true, Bool.not_eq_false',
    List.contains_iff_mem, decide_eq_false_iff_not, Nat.not_lt, beq_eq_false_iff_ne] at h
  obtain ⟨hl, -, -, -, hp, hc⟩ := h
  exact ⟨mem_legalLevels_log2 _ hl, hp, Nat.pos_of_ne_zero hc⟩

/-- The numbers of the geometry, in the words of the claims (R6). -/
theorem configGeometry_numbers (c : ConfigRecord) :
    (configGeometry c).bpc = Nat.log2 c.levels.toNat ∧ (configGeometry c).bpb = 3 * Nat.log2 c.levels.toNat ∧
      (configGeometry c).bx = 3840 / c.blockSize.toNat ∧ (configGeometry c).bRows = 2160 / c.blockSize.toNat ∧
      (configGeometry c).nb = blocksPerFrame c ∧ (configGeometry c).pay = payloadBytes c ∧
      (configGeometry c).c = codewordsPerFrame c ∧ (configGeometry c).k = dataBytes c :=
  ⟨rfl, rfl, rfl, rfl, rfl, rfl, rfl, rfl⟩

theorem configGeometry_k_pos {c : ConfigRecord} (h : validate c = none) : 0 < (configGeometry c).k := by
  obtain ⟨-, hp, -⟩ := validate_numbers h
  change 0 < 255 - c.eccParity.toNat
  omega

theorem payloadBytes_le {c : ConfigRecord} (h : validate c = none) :
    blocksPerFrame c ≤ 8294400 ∧ payloadBytes c ≤ 24883200 := by
  obtain ⟨hl, -, -⟩ := validate_numbers h
  have hnb : blocksPerFrame c ≤ 3840 * 2160 := Nat.mul_le_mul (Nat.div_le_self ..) (Nat.div_le_self ..)
  have hbits : blocksPerFrame c * (3 * Nat.log2 c.levels.toNat) ≤ 8294400 * 24 :=
    Nat.mul_le_mul hnb (by omega)
  refine ⟨hnb, ?_⟩
  unfold payloadBytes
  omega

theorem toNat_regWord {n : Nat} (h : n < 2 ^ 32) : (regWord n).toNat = n := by
  rw [regWord, BitVec.toNat_ofNat, Nat.mod_eq_of_lt h]

/-- Settles O47: the geometry of a validated configuration fits in 32 bits. -/
theorem activeAndGeometryRegisters : Obligations.ActiveAndGeometryRegisters := by
  refine fun s => ⟨fun ha r hr => ?_, fun c ha hv => ?_⟩
  · have hg : activeGeometry s = noGeometry := by simp [activeGeometry, ha]
    have hf : ∀ f, actField f s = 0 := fun f => by simp [actField, ha]
    simp only [List.mem_cons, List.not_mem_nil, or_false] at hr
    rcases hr with rfl | rfl | rfl | rfl | rfl | rfl | rfl | rfl | rfl | rfl | rfl | rfl | rfl <;>
      simp [readReg, hf, hg, noGeometry, regWord]
  · have hf : ∀ f, actField f s = f c := fun f => by simp [actField, ha]
    obtain ⟨hl, -, -⟩ := validate_numbers hv
    obtain ⟨hnb, hpay⟩ := payloadBytes_le hv
    have hx : 3840 / c.blockSize.toNat ≤ 3840 := Nat.div_le_self ..
    have hy : 2160 / c.blockSize.toNat ≤ 2160 := Nat.div_le_self ..
    have hc : codewordsPerFrame c ≤ payloadBytes c := Nat.div_le_self ..
    have hk : dataBytes c ≤ 255 := Nat.sub_le ..
    obtain ⟨h1, h2, h3, h4, h5, h6, h7, h8⟩ := configGeometry_numbers c
    simp only [readReg, hf, activeGeometry_of_act ha, h1, h2, h3, h4, h5, h6, h7, h8, true_and]
    refine ⟨toNat_regWord ?_, toNat_regWord ?_, toNat_regWord ?_, toNat_regWord ?_, toNat_regWord ?_, toNat_regWord ?_,
      toNat_regWord ?_, toNat_regWord ?_⟩ <;> omega

/-! The sequencer. -/

theorem sequencerAgrees_encHeader {s : State} (hp : s.seq.phase = .encHeader) : SequencerAgrees s ↔
    s.act.isSome = true ∧ s.seq.frameIdx = 0 ∧ s.seq.totalFrames.toNat = 1 + framesLeft s := by
  rw [SequencerAgrees, hp]

theorem sequencerAgrees_payload {s : State} (hp : s.seq.phase = .encPayload ∨ s.seq.phase = .decPayload) :
    SequencerAgrees s ↔ s.act.isSome = true ∧ 1 ≤ s.seq.frameIdx.toNat ∧ 1 ≤ framesLeft s ∧
      s.seq.totalFrames.toNat = s.seq.frameIdx.toNat + framesLeft s := by
  rcases hp with hp | hp <;> rw [SequencerAgrees, hp]

theorem sequencerAgrees_done {s : State} (hp : s.seq.phase = .done) :
    SequencerAgrees s ↔ s.seq.bytesRem = 0 ∧ s.seq.frameIdx = s.seq.totalFrames := by
  rw [SequencerAgrees, hp]

theorem sequencerAgrees_resting {s : State} (hp : s.seq.phase = .idle ∨ s.seq.phase = .failed) : SequencerAgrees s := by
  rcases hp with hp | hp <;> rw [SequencerAgrees, hp] <;> trivial

theorem SequencerAgrees.congr {s t : State} (h : SequencerAgrees s) (ha : t.act = s.act) (hq : t.seq = s.seq) :
    SequencerAgrees t := by
  unfold SequencerAgrees framesLeft activeGeometry at *
  rwa [ha, hq]

/-- The frames left are the bytes left in units of what a frame carries (R272). -/
theorem framesLeft_eq {s : State} {c : ConfigRecord} (ha : s.act = some c) (hv : validate c = none) :
    framesLeft s = ceilDiv s.seq.bytesRem.toNat ((configGeometry c).c * (configGeometry c).k) := by
  obtain ⟨-, -, hc⟩ := validate_numbers hv
  rw [framesLeft, activeGeometry_of_act ha]
  exact ceilDiv_ceilDiv (configGeometry_k_pos hv) hc _

theorem frameCapacity_pos {c : ConfigRecord} (hv : validate c = none) :
    0 < (configGeometry c).c * (configGeometry c).k := by
  obtain ⟨-, -, hc⟩ := validate_numbers hv
  exact Nat.mul_pos hc (configGeometry_k_pos hv)

theorem framesLeft_eq_zero {s : State} {c : ConfigRecord} (ha : s.act = some c) (hv : validate c = none) :
    framesLeft s = 0 ↔ s.seq.bytesRem = 0 := by
  rw [framesLeft_eq ha hv, ceilDiv_eq_zero (frameCapacity_pos hv), ← BitVec.toNat_inj]
  rfl

/-- After the header frame of a stream, the frames that `total` counts are all still to come (R285, R292). -/
theorem sequencerAgrees_afterHeader {s : State} {c : ConfigRecord} (ha : s.act = some c) (hv : validate c = none)
    (hi : s.seq.frameIdx = 1) (ht : s.seq.totalFrames.toNat = 1 + framesLeft s)
    (hp : framesLeft s = 0 ∧ s.seq.phase = .done ∨
      framesLeft s ≠ 0 ∧ (s.seq.phase = .encPayload ∨ s.seq.phase = .decPayload)) : SequencerAgrees s := by
  have h1 : s.seq.frameIdx.toNat = 1 := congrArg BitVec.toNat hi
  rcases hp with ⟨hl, hp⟩ | ⟨hl, hp⟩
  · exact (sequencerAgrees_done hp).2 ⟨(framesLeft_eq_zero ha hv).1 hl, BitVec.eq_of_toNat_eq (by omega)⟩
  · exact (sequencerAgrees_payload hp).2 ⟨by simp [ha], by omega, by omega, by omega⟩

/-- A payload frame leaves one frame less (R285, R292). -/
theorem framesLeft_advance {s t : State} {c : ConfigRecord} (ha : s.act = some c) (hv : validate c = none)
    (hta : t.act = s.act) {u corrected : Nat} (htq : t.seq = advanceSeq s.seq (payloadChunk s) u corrected) :
    framesLeft t = framesLeft s - 1 := by
  have hrem := s.seq.bytesRem.isLt
  have hbytes : t.seq.bytesRem.toNat = s.seq.bytesRem.toNat - (configGeometry c).c * (configGeometry c).k := by
    rw [htq, advanceSeq, payloadChunk, activeGeometry_of_act ha, BitVec.toNat_ofNat, Nat.mod_eq_of_lt (by omega)]
    omega
  rw [framesLeft_eq (hta.trans ha) hv, framesLeft_eq ha hv, hbytes, ceilDiv_sub (frameCapacity_pos hv)]

theorem sequencerAgrees_advance {s t : State} {c : ConfigRecord} (ha : s.act = some c) (hv : validate c = none)
    (hp : s.seq.phase = .encPayload ∨ s.seq.phase = .decPayload) (hs : SequencerAgrees s)
    (hta : t.act = s.act) {u corrected : Nat} (htq : t.seq = advanceSeq s.seq (payloadChunk s) u corrected) :
    SequencerAgrees t := by
  obtain ⟨-, hi, hl, ht⟩ := (sequencerAgrees_payload hp).1 hs
  have hleft := framesLeft_advance ha hv hta htq
  have htotal := s.seq.totalFrames.isLt
  have hidx : t.seq.frameIdx.toNat = s.seq.frameIdx.toNat + 1 := by
    rw [htq, advanceSeq, BitVec.toNat_ofNat, Nat.mod_eq_of_lt (by omega)]
  have htot : t.seq.totalFrames = s.seq.totalFrames := by rw [htq, advanceSeq]
  have hphase : t.seq.phase = if s.seq.frameIdx.toNat + 1 = s.seq.totalFrames.toNat then .done else s.seq.phase := by
    rw [htq, advanceSeq]
  by_cases hlast : s.seq.frameIdx.toNat + 1 = s.seq.totalFrames.toNat
  · rw [if_pos hlast] at hphase
    exact (sequencerAgrees_done hphase).2 ⟨(framesLeft_eq_zero (hta.trans ha) hv).1 (by omega),
      BitVec.eq_of_toNat_eq (by rw [hidx, htot, hlast])⟩
  · rw [if_neg hlast] at hphase
    exact (sequencerAgrees_payload (hphase ▸ hp)).2 ⟨by simp [hta, ha], by omega, by omega, by rw [htot, ht]; omega⟩

end Sys2Proof.Machine
end

section
/-! Each part of the invariant over each effect of a command and of a host operation (10_state.md R41, R56, R63;
70_reset_and_hazards.md R360, R366). -/

namespace Sys2Proof.Machine

/-! What a command leaves of each part. -/

theorem FitsDestination.checkRange {i : Instr} {s : State} {bs : List Byte} (h : FitsDestination i s bs) :
    checkRange (argDst s) bs.length = true := by
  obtain ⟨hp, n, hn, hl⟩ := h.mem_writes
  have hdst : InMemory (argDst s) n := writes_inMemory hp _ hn
  rw [checkRange_iff]
  unfold InMemory at *
  omega

theorem Effect.mem_wf {s u : State} {i : Instr} {e : ErrCode} (h : Effect s i e u) (hm : Memory.wf s.mem) :
    Memory.wf u.mem := by
  rcases h.mem with hu | ⟨bs, hfit, hu⟩
  · rw [hu]; exact hm
  · rw [hu]; exact Memory.wf_write hm hfit.checkRange

theorem Effect.hb_length {s u : State} {i : Instr} {e : ErrCode} (h : Effect s i e u) (hb : s.hb.length = Config.hdrLen) :
    u.hb.length = Config.hdrLen := by
  cases h
  case encBegins => exact length_emittedRecord s
  case decHeader hparse _ => exact (parseHeader_ok_cases hparse).1
  all_goals exact hb

theorem Effect.act_validated {s u : State} {i : Instr} {e : ErrCode} (h : Effect s i e u)
    (ha : ∀ c, s.act = some c → validate c = none) : ∀ c, u.act = some c → validate c = none := by
  intro c hc
  rcases h.config with ⟨hu, -⟩ | ⟨-, -, -, hu, hv, -⟩ | ⟨-, -, -, c', hu, hv⟩
  · exact ha c (hu ▸ hc)
  · cases hu.symm.trans hc; exact hv
  · cases hu.symm.trans hc; exact hv

theorem leNat_lt (bs : List Byte) : leNat bs < 256 ^ bs.length := by
  induction bs with
  | nil => simp [leNat]
  | cons b bs ih =>
    have := b.isLt
    rw [leNat, List.length_cons, Nat.pow_succ]
    omega

theorem recordPayloadLen_lt (hdr : List Byte) : recordPayloadLen hdr < 2 ^ 64 := by
  have hl : (slice hdr 24 32).length ≤ 8 := List.length_take_le _ _
  calc recordPayloadLen hdr < 256 ^ (slice hdr 24 32).length := leNat_lt _
    _ ≤ 256 ^ 8 := Nat.pow_le_pow_right (by decide) hl
    _ = 2 ^ 64 := by decide

/-- STREAM_ENC_BEGIN's counts (R272, R280). -/
theorem sequencerAgrees_encBegin {s t : State} (hpre : streamEncBeginPre s = none) (hrec : streamEncBeginRecordPre s = none)
    (hta : t.act = s.act) (hp : t.seq.phase = .encHeader) (hi : t.seq.frameIdx = 0)
    (ht : t.seq.totalFrames = BitVec.ofNat 32 (1 + hostFrameCount s))
    (hb : t.seq.bytesRem = BitVec.ofNat 64 (recordPayloadLen (hostRecord s))) : SequencerAgrees t := by
  obtain ⟨hact, -⟩ := streamEncBeginPre_eq_none.1 hpre
  simp only [streamEncBeginRecordPre, firstError_cons_eq_none, frameCountTooLarge, decide_eq_false_iff_not, Nat.not_lt] at hrec
  obtain ⟨-, hle, -⟩ := hrec
  have hleft : framesLeft t = hostFrameCount s := by
    rw [framesLeft, hb, BitVec.toNat_ofNat, Nat.mod_eq_of_lt (recordPayloadLen_lt _)]
    simp only [activeGeometry, hta, hostFrameCount]
  refine (sequencerAgrees_encHeader hp).2 ⟨?_, hi, ?_⟩
  · rw [hta]; exact Option.isSome_iff_ne_none.2 hact
  · rw [ht, hleft, BitVec.toNat_ofNat, Nat.mod_eq_of_lt (by omega)]

/-- Outside a stream the sequencer agrees whatever the configuration is (R275). -/
theorem SequencerAgrees.of_resting {s t : State} (h : SequencerAgrees s) (hp : streamActive s.seq.phase = false)
    (hq : t.seq = s.seq) : SequencerAgrees t := by
  cases hphase : s.seq.phase
  case idle => exact sequencerAgrees_resting (.inl (hq ▸ hphase))
  case failed => exact sequencerAgrees_resting (.inr (hq ▸ hphase))
  case done => exact (sequencerAgrees_done (hq ▸ hphase)).2 (hq ▸ (sequencerAgrees_done hphase).1 h)
  all_goals rw [hphase] at hp; cases hp

/-- ENC_HEADER's frame: the stream is over when it counts one frame (R285). -/
theorem sequencerAgrees_encFirst {s t : State} (ha : ∀ c, s.act = some c → validate c = none) (hs : SequencerAgrees s)
    (hp : s.seq.phase = .encHeader) (hta : t.act = s.act)
    (htq : t.seq = { s.seq with frameIdx := 1, phase := if s.seq.totalFrames = 1 then .done else .encPayload }) :
    SequencerAgrees t := by
  obtain ⟨hact, -, ht⟩ := (sequencerAgrees_encHeader hp).1 hs
  obtain ⟨c, hc⟩ := Option.isSome_iff_exists.1 hact
  have hleft : framesLeft t = framesLeft s := by unfold framesLeft activeGeometry; rw [hta, htq]
  have hphase : t.seq.phase = if s.seq.totalFrames = 1 then .done else .encPayload := by rw [htq]
  refine sequencerAgrees_afterHeader (hta.trans hc) (ha c hc) (by rw [htq]) (by rw [hleft, htq]; exact ht) ?_
  rw [hleft, hphase]
  by_cases h1 : s.seq.totalFrames = 1
  · have h1' : s.seq.totalFrames.toNat = 1 := congrArg BitVec.toNat h1
    exact .inl ⟨by omega, if_pos h1⟩
  · refine .inr ⟨fun h0 => h1 (BitVec.eq_of_toNat_eq ?_), .inl (if_neg h1)⟩
    rw [ht, h0]
    rfl

/-- An accepted header frame: its record's counts agree with one another (R276, R292). -/
theorem sequencerAgrees_decFirst {t : State} {hdr : List Byte} (hv : validate (recordConfig hdr) = none)
    (hpf : recordFrames hdr = ceilDiv (recordPayloadLen hdr)
      ((configGeometry (recordConfig hdr)).c * (configGeometry (recordConfig hdr)).k))
    (hle : recordFrames hdr ≤ 2 ^ 32 - 2) (hta : t.act = some (recordConfig hdr)) (hi : t.seq.frameIdx = 1)
    (ht : t.seq.totalFrames = BitVec.ofNat 32 (1 + recordFrames hdr))
    (hb : t.seq.bytesRem = BitVec.ofNat 64 (recordPayloadLen hdr))
    (hp : t.seq.phase = if recordFrames hdr = 0 then .done else .decPayload) : SequencerAgrees t := by
  have hleft : framesLeft t = recordFrames hdr := by
    rw [framesLeft_eq hta hv, hb, BitVec.toNat_ofNat, Nat.mod_eq_of_lt (recordPayloadLen_lt _), hpf]
  refine sequencerAgrees_afterHeader hta hv hi ?_ ?_
  · rw [ht, hleft, BitVec.toNat_ofNat, Nat.mod_eq_of_lt (by omega)]
  · rw [hleft, hp]
    by_cases h0 : recordFrames hdr = 0
    · exact .inl ⟨h0, if_pos h0⟩
    · exact .inr ⟨h0, .inr (if_neg h0)⟩

theorem Effect.sequencer {s u : State} {i : Instr} {e : ErrCode} (h : Effect s i e u)
    (ha : ∀ c, s.act = some c → validate c = none) (hs : SequencerAgrees s) : SequencerAgrees u := by
  cases h
  case keeps => exact hs
  case commits hpre _ => exact hs.of_resting (firstError_cons_eq_none.1 hpre).1 rfl
  case stores => exact hs.congr rfl rfl
  case encBegins hi hrec => exact sequencerAgrees_encBegin hi.1 hrec rfl rfl rfl rfl rfl
  case encHeader hp _ => exact sequencerAgrees_encFirst ha hs hp rfl rfl
  case advances corrected hp hi =>
    have hp : s.seq.phase = .encPayload ∨ s.seq.phase = .decPayload := hp.imp And.right And.right
    obtain ⟨hact, -⟩ := (sequencerAgrees_payload hp).1 hs
    obtain ⟨c, hc⟩ := Option.isSome_iff_exists.1 hact
    exact sequencerAgrees_advance hc (ha c hc) hp hs rfl rfl
  case decBegins => exact ⟨rfl, rfl, rfl⟩
  case decHeader hdr corr hp hparse hi =>
    obtain ⟨-, d, rfl, hd⟩ := parseHeader_ok_cases hparse
    obtain ⟨hv, hpf, hle⟩ := headerError_eq_none hd
    exact sequencerAgrees_decFirst hv hpf hle rfl rfl rfl rfl rfl
  case fails => exact sequencerAgrees_resting (.inr rfl)
  case idles => exact sequencerAgrees_resting (.inl rfl)

/-! The flights. -/

theorem flightsAgree_idle {s : State} (h : s.pending = none) :
    FlightsAgree s ↔ ∀ f ∈ s.inFlight, f.irqBits.isSome = true := by
  rw [FlightsAgree, h]

theorem flightsAgree_busy {s : State} {w : Word} (h : s.pending = some w) :
    FlightsAgree s ↔ ∃ f fs, s.inFlight = f :: fs ∧ f.irqBits = none ∧ f.ranges = wordFootprint w s ∧
      ∀ g ∈ fs, g.irqBits.isSome = true := by
  rw [FlightsAgree, h]
  cases s.inFlight with
  | nil => simp
  | cons f fs => simp

/-- The footprint of a word depends on the operands, ACT and the sequencer alone (R81, R366). -/
theorem wordFootprint_congr {s t : State} (hargs : t.args = s.args) (hact : t.act = s.act) (hseq : t.seq = s.seq) (w : Word) :
    wordFootprint w t = wordFootprint w s := by
  have hcore : ∀ u : State,
      wordFootprint w u = wordFootprint w { State.reset with args := u.args, act := u.act, seq := u.seq } := by
    intro u
    unfold wordFootprint
    cases decode w with
    | none => rfl
    | some i => cases i <;> rfl
  rw [hcore t, hcore s, hargs, hact, hseq]

/-- The flights agree on in a state with the same flights, and the same operands while busy. -/
theorem FlightsAgree.congr {s t : State} (h : FlightsAgree s) (hp : t.pending = s.pending) (hf : t.inFlight = s.inFlight)
    (hargs : s.pending ≠ none → t.args = s.args) (hact : t.act = s.act) (hseq : t.seq = s.seq) : FlightsAgree t := by
  cases hs : s.pending with
  | none =>
    rw [flightsAgree_idle (hp.trans hs), hf]
    exact (flightsAgree_idle hs).1 h
  | some w =>
    rw [flightsAgree_busy (hp.trans hs), hf, wordFootprint_congr (hargs (by simp [hs])) hact hseq]
    exact (flightsAgree_busy hs).1 h

/-- Observing completions keeps the flight of the pending command (R90). -/
theorem FlightsAgree.observed {s t : State} (h : FlightsAgree s) (hp : t.pending = s.pending)
    (hargs : t.args = s.args) (hact : t.act = s.act) (hseq : t.seq = s.seq)
    (hf : t.inFlight = s.inFlight ∨ s.pending = none ∧ t.inFlight = [] ∨
      t.inFlight = s.inFlight.takeWhile fun f => !signalled s f) : FlightsAgree t := by
  rcases hf with hf | ⟨hn, hf⟩ | hf
  · exact h.congr hp hf (fun _ => hargs) hact hseq
  · rw [flightsAgree_idle (hp.trans hn), hf]
    exact List.forall_mem_nil _
  · cases hs : s.pending with
    | none =>
      rw [flightsAgree_idle (hp.trans hs), hf]
      exact fun f hf => (flightsAgree_idle hs).1 h f ((List.takeWhile_prefix _).subset hf)
    | some w =>
      obtain ⟨f, fs, hfs, hnone, hr, hlanded⟩ := (flightsAgree_busy hs).1 h
      have hquiet : (!signalled s f) = true := by simp [signalled, hnone]
      rw [flightsAgree_busy (hp.trans hs), hf, hfs, List.takeWhile_cons_of_pos (p := fun f => !signalled s f) hquiet,
        wordFootprint_congr hargs hact hseq]
      exact ⟨f, _, rfl, hnone, hr, fun g hg => hlanded g ((List.takeWhile_prefix _).subset hg)⟩

theorem flightsAgree_finish (e : ErrCode) (irq : BitVec 2) (r0 r1 r2 : Word) (s : State) :
    FlightsAgree (finish e irq r0 r1 r2 s) := by
  rw [flightsAgree_idle rfl, finish_inFlight]
  simp

theorem flightsAgree_issue {s : State} (h : FlightsAgree s) (hs : s.pending = none) (w : Word) : FlightsAgree (issue w s) :=
  (flightsAgree_busy (issue_pending w s)).2
    ⟨_, _, rfl, rfl, (wordFootprint_congr (issue_args w s) (issue_act w s) (issue_seq w s) w).symm,
      (flightsAgree_idle hs).1 h⟩

/-! The asserted reset input (R360). -/

theorem HeldInReset.pending {s : State} (h : HeldInReset s) : s.pending = none := (congrArg State.pending h).symm

theorem HeldInReset.outside {s : State} (h : HeldInReset s) (m : Memory) (fl : List Flight) (ops : List HostOp)
    (sc : List Agent) (rs : List HostRead) :
    HeldInReset { s with mem := m, inFlight := fl, host := ops, sched := sc, hostReads := rs } := by
  unfold HeldInReset at *
  exact congrArg (fun u : State => { u with mem := m, inFlight := fl, host := ops, sched := sc, hostReads := rs }) h

/-! Steps. -/

/-- A change that no register takes part in keeps the invariant. -/
theorem State.Inv.outside {s : State} (h : s.Inv) {m : Memory} {fl : List Flight} (hm : Memory.wf m)
    (hf : FlightsAgree { s with inFlight := fl }) (ops : List HostOp) (sc : List Agent) (rs : List HostRead) :
    { s with mem := m, inFlight := fl, host := ops, sched := sc, hostReads := rs : State }.Inv where
  mem := hm
  hb := h.hb
  act := h.act
  seq := h.seq.congr rfl rfl
  flights := hf.congr rfl rfl (fun _ => rfl) rfl rfl
  held := fun ha => (h.held ha).outside m fl ops sc rs

/-- A change of registers that no part of the invariant constrains keeps it, with the reset input released. -/
theorem State.Inv.registers {s t : State} (h : s.Inv) (hin : t.resetInput = false) (hmem : t.mem = s.mem) (hhb : t.hb = s.hb)
    (hact : t.act = s.act) (hseq : t.seq = s.seq) (hf : FlightsAgree t) : t.Inv where
  mem := hmem ▸ h.mem
  hb := hhb ▸ h.hb
  act := hact ▸ h.act
  seq := h.seq.congr hact hseq
  flights := hf
  held := fun ha => by cases hin.symm.trans ha

/-- A command that ends keeps the invariant. -/
theorem Ends.inv {i : Instr} {s t : State} {w : Word} (he : Ends i s t) (h : s.Inv) (hw : s.pending = some w) : t.Inv := by
  have hk := he.keepsHostWritten
  obtain ⟨e, irq, r0, r1, r2, u, heff, rfl⟩ := he
  exact {
    mem := heff.mem_wf h.mem
    hb := heff.hb_length h.hb
    act := heff.act_validated h.act
    seq := (heff.sequencer h.act h.seq).congr rfl rfl
    flights := flightsAgree_finish e irq r0 r1 r2 u
    held := fun ha => by
      have hn := (h.held (hk.resetInput ▸ ha)).pending
      cases hw.symm.trans hn }

theorem engineStep_inv {s t : State} (h : s.Inv) (he : engineStep s = .next t) : t.Inv := by
  cases hs : s.pending with
  | none =>
    cases (engineStep_idle hs).symm.trans he
    exact h
  | some w =>
    obtain ⟨i, hends⟩ := runWord_ends ((engineStep_busy hs).symm.trans he)
    exact hends.inv h hs

theorem resetMemory_wf {s : State} (h : s.Inv) : Memory.wf (resetMemory s) := by
  cases hs : s.pending with
  | none => rw [resetMemory_idle hs]; exact h.mem
  | some w =>
    rw [resetMemory_busy hs]
    apply Memory.wf_blend
    unfold landedMemory
    split
    · next t ht => exact (engineStep_inv h ht).mem
    · exact h.mem
    · exact h.mem

/-- A reset of the block keeps the invariant, whatever becomes of the reset input. -/
theorem resetBlock_inv {s : State} (h : s.Inv) (b : Bool) : { resetBlock s with resetInput := b : State }.Inv where
  mem := resetMemory_wf h
  hb := List.length_replicate ..
  act := fun c hc => by cases hc
  seq := sequencerAgrees_resting (.inl rfl)
  flights := by
    rw [flightsAgree_idle rfl]
    exact fun f hf => (List.mem_filter.1 hf).2
  held := fun _ => rfl

theorem releaseResetInput_inv {s : State} (h : s.Inv) : (releaseResetInput s).Inv := by
  rcases releaseResetInput_cases s with ⟨-, hr⟩ | ⟨-, hr⟩ <;> rw [hr]
  · exact resetBlock_inv h false
  · exact h

/-- A register write with the reset input released keeps the invariant (R31). -/
theorem writeReg_inv {s : State} (h : s.Inv) (hs : s.resetInput = false) (r : Reg) (v : Word) : (writeReg r v s).Inv := by
  rcases writeReg_cases r v s with ⟨-, hw⟩ | ⟨-, hw⟩ | ⟨hb, -, hw⟩ | ⟨hu, hw⟩ <;> rw [hw]
  · exact h.registers hs rfl rfl rfl rfl (h.flights.congr rfl rfl (fun _ => rfl) rfl rfl)
  · rcases writeCtrl_cases v s with ⟨-, hc⟩ | ⟨-, b, hc⟩ <;> rw [hc]
    · exact resetBlock_inv h s.resetInput
    · exact h.registers hs rfl rfl rfl rfl (h.flights.congr rfl rfl (fun _ => rfl) rfl rfl)
  · exact h.registers hs rfl rfl rfl rfl (flightsAgree_issue h.flights (busy_eq_false.1 hb) v)
  · have hargs : s.pending ≠ none → (storeReg r v s).args = s.args := fun hn =>
      (storeReg_of_unguarded (hu.resolve_left (by simpa [busy_eq_false] using hn)) v s).1
    exact h.registers ((storeReg_resetInput ..).trans hs) (storeReg_mem ..) (storeReg_hb ..) (storeReg_act ..) (storeReg_seq ..)
      (h.flights.congr (storeReg_pending ..) (storeReg_inFlight ..) hargs (storeReg_act ..) (storeReg_seq ..))

theorem runHostOp_inv {op : HostOp} {s t : State} (h : s.Inv) (hop : runHostOp op s = .next t) : t.Inv := by
  cases runHostOp_effect hop
  case outside m fl ops rs hm hf =>
    have hm : Memory.wf m := by
      rcases hm with rfl | ⟨a, bs, hc, rfl⟩
      · exact h.mem
      · exact Memory.wf_write h.mem hc
    have hf : FlightsAgree { s with inFlight := fl } := h.flights.observed rfl rfl rfl rfl hf
    exact h.outside hm hf ops s.sched rs
  case writes off width r v hr hs => exact writeReg_inv h hs r v
  case asserts => exact resetBlock_inv h true
  case releases => exact releaseResetInput_inv h
  case pulses => exact releaseResetInput_inv (resetBlock_inv h true)

theorem hostStep_inv {s t : State} (h : s.Inv) (ht : hostStep s = .next t) : t.Inv := by
  cases hs : s.host with
  | nil =>
    cases (hostStep_nil hs).symm.trans ht
    exact h
  | cons op ops => exact runHostOp_inv (h.outside h.mem h.flights ops s.sched s.hostReads) ((hostStep_cons hs).symm.trans ht)

/-- Settles O59. -/
theorem resetMeetsInvariant : Obligations.ResetMeetsInvariant := by
  exact {
    mem := reset_mem_wf
    hb := List.length_replicate ..
    act := fun c hc => by cases hc
    seq := sequencerAgrees_resting (.inl rfl)
    flights := (flightsAgree_idle rfl).2 (List.forall_mem_nil _)
    held := fun _ => rfl }

/-- Settles O60: by the agent that moves. -/
theorem stepKeepsInvariant : Obligations.StepKeepsInvariant := by
  intro s t h ht
  have hsched : ∀ rest, { s with sched := rest : State }.Inv := fun rest => h.outside h.mem h.flights s.host rest s.hostReads
  cases hs : s.sched with
  | nil =>
    cases hb : busy s with
    | true => exact engineStep_inv h ((step_unscheduled_busy hs hb).symm.trans ht)
    | false => exact hostStep_inv h ((step_unscheduled_idle hs hb).symm.trans ht)
  | cons a rest =>
    cases a with
    | engine => exact engineStep_inv (hsched rest) ((step_engine hs).symm.trans ht)
    | host => exact hostStep_inv (hsched rest) ((step_host hs).symm.trans ht)

end Sys2Proof.Machine
end

section
/-! Host accesses to the memory of a command in flight (20_memory.md R91). -/

namespace Sys2Proof.Machine

/-- A byte in both ranges: they are not apart. -/
theorem not_apart_of_shared {a n x : Nat} {r : MemRange} (hb : r.base ≤ x) (hx : x < r.base + r.len) (ha : a ≤ x)
    (hn : x < a + n) : ¬Apart a n r := by
  intro h
  have := h x ha hn
  omega

theorem storeRaces_of_shared {s : State} {f : Flight} {r : MemRange} {a n x : Nat} (hf : f ∈ s.inFlight)
    (hr : r ∈ f.ranges.reads ∨ r ∈ f.ranges.writes) (hb : r.base ≤ x) (hx : x < r.base + r.len) (ha : a ≤ x)
    (hn : x < a + n) : storeRaces s a n = true :=
  Bool.of_not_eq_false fun h => not_apart_of_shared hb hx ha hn (storeRaces_eq_false.1 h f hf r hr)

theorem loadRaces_of_shared {s : State} {f : Flight} {r : MemRange} {a n x : Nat} (hf : f ∈ s.inFlight)
    (hr : r ∈ f.ranges.writes) (hb : r.base ≤ x) (hx : x < r.base + r.len) (ha : a ≤ x) (hn : x < a + n) :
    loadRaces s a n = true :=
  Bool.of_not_eq_false fun h => not_apart_of_shared hb hx ha hn (loadRaces_eq_false.1 h f hf r hr)

/-- Inside memory, a store that races faults with the race, not with the address (R80, R91). -/
theorem hostStore_races {a : Nat} {bs : List Byte} {s : State} (hc : checkRange a bs.length = true)
    (hr : storeRaces s a bs.length = true) : hostStore a bs s = .fault .hostDataRace := by
  simp [hostStore, hc, hr]

theorem hostLoad_races {a : Word} {n : Nat} {s : State} (hc : checkRange a.toNat n = true)
    (hr : loadRaces s a.toNat n = true) : hostLoad a n s = .fault .hostDataRace := by
  simp [hostLoad, hc, hr]

/-- Settles O55: the shared byte `x` refutes that the access and the range are apart, so the access races. -/
theorem hostAccessToFlightFaults : Obligations.HostAccessToFlightFaults := by
  intro s f r a x hf hb hx ha
  refine ⟨fun bs hr hn hm => ?_, fun n hr hn hm => ?_⟩
  · exact hostStore_races ((checkRange_iff _ _).2 (.inr hm)) (storeRaces_of_shared hf hr hb hx ha hn)
  · exact hostLoad_races ((checkRange_iff _ _).2 (.inr hm)) (loadRaces_of_shared hf hr hb hx ha hn)

end Sys2Proof.Machine
end

section
/-! Decoding and encoding (30_encoding.md R110 to R112): what the map finds, the fields of a word, one rule per outcome of the
decoder, and decoding as the inverse of encoding. -/

namespace Sys2Proof

/-! The opcode map (R111), read both ways. -/

theorem instrOfOpcode_opcodeOf (i : Instr) : instrOfOpcode (opcodeOf i) = some i := by cases i <;> rfl

theorem opcodeOf_of_mem_opcodeMap : ∀ r ∈ opcodeMap, opcodeOf r.2 = r.1 := by decide

theorem opcodeOf_of_instrOfOpcode {op : Byte} {i : Instr} (h : instrOfOpcode op = some i) : opcodeOf i = op := by
  obtain ⟨_, _, hmap, -⟩ := List.lookup_eq_some_iff.1 h
  exact opcodeOf_of_mem_opcodeMap (op, i) (hmap ▸ List.mem_append_right _ List.mem_cons_self)

theorem encode_mem_commandWords (i : Instr) : encode i ∈ Machine.commandWords := by cases i <;> decide

/-! The fields of a word (R110). -/

@[simp] theorem opcodeField_encode (i : Instr) : opcodeField (encode i) = opcodeOf i :=
  BitVec.extractLsb'_append_eq_right

@[simp] theorem rsvdField_encode (i : Instr) : rsvdField (encode i) = 0 := BitVec.extractLsb'_append_eq_left

theorem rsvdField_append_opcodeField (w : Word) : rsvdField w ++ opcodeField w = w :=
  BitVec.extractLsb'_append_extractLsb' (w := 24)

theorem toNat_rsvdField (w : Word) : (rsvdField w).toNat = w.toNat / 256 := by
  have hw := w.isLt
  rw [rsvdField, BitVec.extractLsb'_toNat, Nat.shiftRight_eq_div_pow, Nat.mod_eq_of_lt (by omega)]

theorem rsvdField_eq_zero_iff (w : Word) : rsvdField w = 0 ↔ w.toNat < 256 := by
  rw [← BitVec.toNat_inj, toNat_rsvdField]
  exact Nat.div_eq_zero_iff_lt (by decide)

/-- The four bytes of a word on the host bus, bits 7:0 first (20_memory.md R85), make up the word. -/
theorem append_bytes (w : Word) :
    w.extractLsb' 24 8 ++ w.extractLsb' 16 8 ++ w.extractLsb' 8 8 ++ w.extractLsb' 0 8 = w := by
  have join {hi lo m n : Nat} (h : hi = lo + n) :=
    BitVec.extractLsb'_append_extractLsb'_eq_extractLsb' (x := w) (len₁ := n) (len₂ := m) h
  rw [join (hi := 24) (lo := 16) rfl, join (hi := 16) (lo := 8) rfl, join (hi := 8) (lo := 0) rfl]
  exact BitVec.extractLsb'_eq_self

/-! The decoder, one rule per outcome (R112). -/

theorem decodeWord_reserved {w : Word} (h : rsvdField w ≠ 0) : decodeWord w = .error .reservedBits := if_pos h

theorem decodeWord_unassigned {w : Word} (hr : rsvdField w = 0) (ho : instrOfOpcode (opcodeField w) = none) :
    decodeWord w = .error .unassignedOpcode := by
  simp [decodeWord, hr, ho]

theorem decodeWord_assigned {w : Word} {i : Instr} (hr : rsvdField w = 0) (ho : instrOfOpcode (opcodeField w) = some i) :
    decodeWord w = .ok i := by
  simp [decodeWord, hr, ho]

@[simp] theorem decodeWord_encode (i : Instr) : decodeWord (encode i) = .ok i :=
  decodeWord_assigned (rsvdField_encode i) (by rw [opcodeField_encode, instrOfOpcode_opcodeOf])

@[simp] theorem decode_encode (i : Instr) : decode (encode i) = some i := by rw [decode, decodeWord_encode]; rfl

theorem decodeBytes_encodeBytes (i : Instr) : decodeBytes (encodeBytes i) = .ok (i, []) := by
  rw [encodeBytes, decodeBytes, append_bytes, decodeWord_encode]
  rfl

/-- Reserved bits that are 0 and an opcode of the map leave one word only: the command's. -/
theorem eq_encode_of_fields {w : Word} {i : Instr} (hr : rsvdField w = 0) (ho : instrOfOpcode (opcodeField w) = some i) :
    w = encode i := by
  rw [← rsvdField_append_opcodeField w, hr, encode, opcodeOf_of_instrOfOpcode ho]

theorem eq_encode_of_decode {w : Word} {i : Instr} (h : decode w = some i) : w = encode i := by
  by_cases hr : rsvdField w = 0
  · cases ho : instrOfOpcode (opcodeField w) with
    | none => rw [decode, decodeWord_unassigned hr ho] at h; cases h
    | some j =>
      rw [decode, decodeWord_assigned hr ho] at h
      cases h
      exact eq_encode_of_fields hr ho
  · rw [decode, decodeWord_reserved hr] at h; cases h

theorem decode_of_not_commandWord {w : Word} (h : w ∉ Machine.commandWords) : decode w = none :=
  Option.eq_none_iff_forall_ne_some.2 fun i hi => h (eq_encode_of_decode hi ▸ encode_mem_commandWords i)

/-- Settles O3: by R112's two tests in order; a word that passes both is the encoding of the command found, so it is listed. -/
theorem decodingIsExact : Obligations.DecodingIsExact := by
  refine ⟨fun w h => ?_, fun w h hw => ?_, fun w i h => ?_⟩
  · exact decodeWord_reserved (mt (rsvdField_eq_zero_iff w).1 (by omega))
  · have hr := (rsvdField_eq_zero_iff w).2 h
    refine decodeWord_unassigned hr (Option.eq_none_iff_forall_ne_some.2 fun i ho => hw ?_)
    exact eq_encode_of_fields hr ho ▸ encode_mem_commandWords i
  · obtain rfl := eq_encode_of_decode h
    exact ⟨rfl, encode_mem_commandWords i⟩

/-- Settles O1: both fields read back from the word, and the word from its bytes. -/
theorem decodeInvertsEncode : Obligations.DecodeInvertsEncode := fun i _ => ⟨decode_encode i, decodeBytes_encodeBytes i⟩

/-- Settles O2: each word is the encoding of its row's command. -/
theorem opcodeMapWordsDecode : Obligations.OpcodeMapWordsDecode :=
  ⟨decode_encode .nop, decode_encode .cfgCommit, decode_encode .rsEncode, decode_encode .rsDecode, decode_encode .quant,
    decode_encode .dequant, decode_encode .dequantBlock, decode_encode .packFrame, decode_encode .unpackFrame,
    decode_encode .streamEncBegin, decode_encode .streamEncFrame, decode_encode .streamDecBegin,
    decode_encode .streamDecFrame, decode_encode .streamEnd, decode_encode .streamAbort⟩

end Sys2Proof

namespace Sys2Proof.Machine

theorem wordFootprint_illegal {w : Word} (h : decode w = none) (s : State) : wordFootprint w s = noRanges := by
  simp [wordFootprint, h]

theorem engineStep_illegal {s : State} {w : Word} (hs : s.pending = some w) (h : decode w = none) :
    EndsInError (engineStep s) s .illegalCmd := by
  rw [engineStep_busy hs, runWord_illegal h]
  exact raise_endsInError .illegalCmd s

/-- Settles O5: an unlisted word does not decode, so the engine raises ILLEGAL_CMD, whichever way the step comes to it. -/
theorem illegalWordEndsInIllegalCmd : Obligations.IllegalWordEndsInIllegalCmd := by
  intro s w hs hw
  have hd := decode_of_not_commandWord hw
  refine ⟨engineStep_illegal hs hd, wordFootprint_illegal hd s, fun h => ?_, fun rest h => ?_⟩
  · rw [step_unscheduled_busy h (busy_of_pending_some hs)]
    exact engineStep_illegal hs hd
  · rw [step_engine h]
    exact engineStep_illegal hs hd

end Sys2Proof.Machine
end

section
/-! Validate (40_config.md R142 to R144): its six tests in the words of the claims, and what the two that bear on `(S, L)` accept
on the default canvas. -/

namespace Sys2Proof.Machine

/-- The first test decides if it fails, else the tests after it do (R10). -/
theorem firstError_cons (b : Bool) (e : ErrCode) (l : List (Bool × ErrCode)) :
    firstError ((b, e) :: l) = if b = true then some e else firstError l := rfl

/-- `Validate` on the default canvas, its tests in order (R142). -/
theorem validate_eq (c : ConfigRecord) : validate c =
    if c.levels.toNat ∉ [2, 4, 8, 16, 32, 64, 128, 256] then some .cfgInvalidLevels
    else if c.blockSize.toNat = 0 ∨ 3840 % c.blockSize.toNat ≠ 0 ∨ 2160 % c.blockSize.toNat ≠ 0 then some .cfgInvalidBlockSize
    else if c.fps.toNat = 0 then some .cfgInvalidFps
    else if 51 < c.crf.toNat then some .cfgInvalidCrf
    else if 254 < c.eccParity.toNat then some .cfgInvalidEcc
    else if codewordsPerFrame c = 0 then some .cfgInvalidBlockSize
    else none := by
  simp only [validate, validateOn, firstError_cons, firstError_nil, Bool.not_eq_true', Bool.or_eq_true, beq_iff_eq, bne_iff_ne,
    decide_eq_true_eq, List.contains_eq_mem, decide_eq_false_iff_not, or_assoc]
  rfl

/-- Settles O8: by the chain of tests. -/
theorem validateFirstFailingTestDecides : Obligations.ValidateFirstFailingTestDecides := by
  intro c
  simp only [validate_eq]
  refine ⟨fun h => if_pos h, fun h1 h => ?_, fun h1 h2 h => ?_, fun h1 h2 h3 h => ?_, fun h1 h2 h3 h4 h => ?_,
    fun h1 h2 h3 h4 h5 h => ?_, fun h1 h2 h3 h4 h5 h => ?_⟩
  · rw [if_neg h1, if_pos h]
  · rw [if_neg h1, if_neg h2, if_pos h]
  · rw [if_neg h1, if_neg h2, if_neg h3, if_pos h]
  · rw [if_neg h1, if_neg h2, if_neg h3, if_neg h4, if_pos h]
  · rw [if_neg h1, if_neg h2, if_neg h3, if_neg h4, if_neg h5, if_pos h]
  · rw [if_neg h1, if_neg h2, if_neg h3, if_neg h4, if_neg h5, if_neg h]

/-- `ok` is the answer when none of the six tests fails (R142). -/
theorem validate_eq_none {c : ConfigRecord} : validate c = none ↔
    c.levels.toNat ∈ [2, 4, 8, 16, 32, 64, 128, 256] ∧ (3840 % c.blockSize.toNat = 0 ∧ 2160 % c.blockSize.toNat = 0) ∧
      0 < c.fps.toNat ∧ c.crf.toNat ≤ 51 ∧ c.eccParity.toNat ≤ 254 ∧ codewordsPerFrame c ≠ 0 := by
  have hblock : ¬(c.blockSize.toNat = 0 ∨ 3840 % c.blockSize.toNat ≠ 0 ∨ 2160 % c.blockSize.toNat ≠ 0) ↔
      3840 % c.blockSize.toNat = 0 ∧ 2160 % c.blockSize.toNat = 0 := by
    refine ⟨fun h => by omega, fun ⟨hw, hh⟩ => ?_⟩
    have : c.blockSize.toNat ≠ 0 := fun h0 => by simp [h0] at hw
    omega
  rw [validate_eq, ← hblock]
  simp only [ite_eq_iff', reduceCtorEq, imp_false, not_not, not_lt, Nat.pos_iff_ne_zero]
  tauto

/-- The sides of the default canvas are both multiples of `S` exactly when 240, their greatest common divisor, is one (R143). -/
theorem canvas_tiles_iff (s : Nat) : 3840 % s = 0 ∧ 2160 % s = 0 ↔
    s ∈ [1, 2, 3, 4, 5, 6, 8, 10, 12, 15, 16, 20, 24, 30, 40, 48, 60, 80, 120, 240] := by
  have hgcd : Nat.gcd 3840 2160 = 240 := by decide
  have hdiv : Nat.divisors 240 = {1, 2, 3, 4, 5, 6, 8, 10, 12, 15, 16, 20, 24, 30, 40, 48, 60, 80, 120, 240} := by
    decide +kernel
  rw [← Nat.dvd_iff_mod_eq_zero, ← Nat.dvd_iff_mod_eq_zero, ← Nat.dvd_gcd_iff, hgcd]
  trans s ∈ Nat.divisors 240
  · simp
  · simp [hdiv]

/-- The pairs of a legal block size and a legal level count whose frame holds no codeword (R143). -/
theorem codewords_ne_zero_iff : ∀ s ∈ [1, 2, 3, 4, 5, 6, 8, 10, 12, 15, 16, 20, 24, 30, 40, 48, 60, 80, 120, 240],
    ∀ l ∈ [2, 4, 8, 16, 32, 64, 128, 256], (3840 / s * (2160 / s) * (3 * Nat.log2 l) / 8 / 255 ≠ 0 ↔
      (s, l) ∉ [(120, 2), (240, 2), (240, 4), (240, 8), (240, 16)]) := by
  decide +kernel

/-- Settles O9: of the six tests, those of the level count, the block size and the capacity are left. -/
theorem acceptedConfigurations : Obligations.AcceptedConfigurations := by
  intro c hfps hcrf hp
  rw [validate_eq_none, canvas_tiles_iff]
  constructor
  · rintro ⟨hl, hs, -, -, -, hc⟩
    exact ⟨hs, hl, (codewords_ne_zero_iff _ hs _ hl).1 hc⟩
  · rintro ⟨hs, hl, hpair⟩
    exact ⟨hl, hs, hfps, hcrf, hp, (codewords_ne_zero_iff _ hs _ hl).2 hpair⟩

end Sys2Proof.Machine
end

section
/-! The configuration commands (40_config.md R140, R141): how a command's completion ends it, then each outcome of NOP and
CFG_COMMIT. -/

namespace Sys2Proof.Machine

/-- A success completion of a state with IRQ_STATUS as before ends a command well (R325). -/
theorem endsOk_of_complete {i : Instr} {s u : State} {r0 r1 r2 : Nat} {rest : State → Prop}
    (h : exec i s = .next (complete r0 r1 r2 u)) (hirq : u.irqStatus = s.irqStatus) (hrest : rest (complete r0 r1 r2 u)) :
    EndsOk (exec i s) s r0 r1 r2 rest :=
  ⟨_, h, { complete_succeeded r0 r1 r2 u with irqStatus := by rw [complete_irqStatus, hirq] },
    (exec_ends h).keepsHostWritten, hrest⟩

/-- An error completion of the state itself ends a command in error (R326). -/
theorem endsInError_of_raise {i : Instr} {s : State} {e : ErrCode} (h : exec i s = .next (raise e s)) :
    EndsInError (exec i s) s e :=
  h ▸ raise_endsInError e s

theorem exec_nop (s : State) : exec .nop s = .next (complete 0 0 0 s) := rfl

/-- Settles O7. -/
theorem nopCompletesAndChangesNothing : Obligations.NopCompletesAndChangesNothing :=
  ⟨decode_encode .nop, fun s => endsOk_of_complete (exec_nop s) rfl ⟨⟨rfl, rfl⟩, ⟨rfl, rfl⟩, fun _ => rfl⟩⟩

/-! CFG_COMMIT, one rule per outcome (R141). -/

theorem exec_cfgCommit (s : State) : exec .cfgCommit s =
    .next (orRaise (cfgCommitPre s) s fun s => orRaise (validate s.staging) s fun s =>
      complete (payloadBytes s.staging) (codewordsPerFrame s.staging) (dataBytes s.staging)
        { s with act := some s.staging }) := rfl

theorem exec_cfgCommit_streaming {s : State} (h : s.seq.phase ∈ [Phase.encHeader, .encPayload, .decHeader, .decPayload]) :
    exec .cfgCommit s = .next (raise .sequence s) := by
  have hact : ∀ p ∈ [Phase.encHeader, .encPayload, .decHeader, .decPayload], streamActive p = true := by decide
  rw [exec_cfgCommit, cfgCommitPre, hact _ h, firstError_true, orRaise_some]

theorem exec_cfgCommit_invalid {s : State} {e : ErrCode} (hpre : cfgCommitPre s = none) (hv : validate s.staging = some e) :
    exec .cfgCommit s = .next (raise e s) := by
  rw [exec_cfgCommit, hpre, orRaise_none, hv, orRaise_some]

theorem exec_cfgCommit_valid {s : State} (hpre : cfgCommitPre s = none) (hv : validate s.staging = none) :
    exec .cfgCommit s = .next (complete (payloadBytes s.staging) (codewordsPerFrame s.staging) (dataBytes s.staging)
      { s with act := some s.staging }) := by
  rw [exec_cfgCommit, hpre, orRaise_none, hv, orRaise_none]

/-- STATUS.CFG_VALID reads 1 with an active configuration (R37, R41). -/
theorem status_cfgValid {s : State} {c : ConfigRecord} (h : s.act = some c) : (readReg .status s).getLsbD 1 = true := by
  obtain ⟨⟨-, hvalid, -⟩, -⟩ := statusWordFields s
  exact hvalid.2 (by simp [h])

/-- Settles O10: the three outcomes; what ACT_* and GEO_* then read is what they read of any validated configuration. -/
theorem cfgCommitRule : Obligations.CfgCommitRule := by
  refine ⟨decode_encode .cfgCommit, fun s => ⟨fun hp => ?_, fun hp e hv => ?_, fun hp hv => ?_⟩⟩
  · exact endsInError_of_raise (exec_cfgCommit_streaming hp)
  · exact endsInError_of_raise (exec_cfgCommit_invalid (cfgCommitPre_eq_none.2 hp) hv)
  · refine endsOk_of_complete (exec_cfgCommit_valid (cfgCommitPre_eq_none.2 hp) hv) rfl ?_
    obtain ⟨hs, hl, hecc, hfps, hcrf, -, -, -, -, -, hgp, hgc, hgk⟩ :=
      (activeAndGeometryRegisters (complete _ _ _ { s with act := some s.staging })).2 s.staging rfl hv
    exact ⟨rfl, rfl, ⟨rfl, rfl⟩, fun _ => rfl, status_cfgValid rfl, hs, hl, hecc, hfps, hcrf, hgp, hgc, hgk⟩

end Sys2Proof.Machine
end

section
/-! The field GF(2^8) (41_rs_codec.md R160, R161): multiplication is linear over exclusive or in each factor, so a law that holds
of the eight bytes with one bit holds of all. -/

namespace Sys2Proof.Machine

/-! Linearity of R160's loop. -/

/-- Adding `u` on a condition is linear in the condition and in what it is added to. -/
theorem ite_xor_linear {w : Nat} (x x' : Bool) (r r' u : BitVec w) :
    (if (x ^^ x') = true then (r ^^^ r') ^^^ u else r ^^^ r') =
      (if x = true then r ^^^ u else r) ^^^ (if x' = true then r' ^^^ u else r') := by
  cases x <;> cases x'
  · rfl
  · exact BitVec.xor_assoc ..
  · simp only [Bool.true_xor, Bool.not_false, if_true, if_false, Bool.false_eq_true]
    ac_rfl
  · calc r ^^^ r' = (r ^^^ r') ^^^ (u ^^^ u) := by rw [BitVec.xor_self, BitVec.xor_zero]
      _ = (r ^^^ u) ^^^ (r' ^^^ u) := by ac_rfl

/-- The loop of `gf_mul` is linear in its sum and its multiplicand. -/
theorem gfMulLoop_xor_left (poly : BitVec 9) (b : Byte) (n : Nat) (r r' : Byte) (t t' : BitVec 9) :
    gfMulLoop poly b n (r ^^^ r') (t ^^^ t') = gfMulLoop poly b n r t ^^^ gfMulLoop poly b n r' t' := by
  induction n generalizing r r' t t' with
  | zero => rfl
  | succ n ih =>
    have hsum : (if b.getLsbD (7 - n) then (r ^^^ r') ^^^ (t ^^^ t').extractLsb' 0 8 else r ^^^ r') =
        (if b.getLsbD (7 - n) then r ^^^ t.extractLsb' 0 8 else r) ^^^
          (if b.getLsbD (7 - n) then r' ^^^ t'.extractLsb' 0 8 else r') := by
      split
      · rw [BitVec.extractLsb'_xor]
        ac_rfl
      · rfl
    simp only [gfMulLoop, hsum, BitVec.shiftLeft_xor_distrib, BitVec.getLsbD_xor, ite_xor_linear, ih]

/-- The loop of `gf_mul` is linear in its sum and its multiplier. -/
theorem gfMulLoop_xor_right (poly : BitVec 9) (b b' : Byte) (n : Nat) (r r' : Byte) (t : BitVec 9) :
    gfMulLoop poly (b ^^^ b') n (r ^^^ r') t = gfMulLoop poly b n r t ^^^ gfMulLoop poly b' n r' t := by
  induction n generalizing r r' t with
  | zero => rfl
  | succ n ih => simp only [gfMulLoop, BitVec.getLsbD_xor, ite_xor_linear, ih]

theorem gfMul_xor_left (a a' b : Byte) : gfMul (a ^^^ a') b = gfMul a b ^^^ gfMul a' b := by
  have h : (a ^^^ a').zeroExtend 9 = a.zeroExtend 9 ^^^ a'.zeroExtend 9 := BitVec.setWidth_xor
  rw [gfMul, gfMulMod, h]
  exact gfMulLoop_xor_left _ b 8 0 0 _ _

theorem gfMul_xor_right (a b b' : Byte) : gfMul a (b ^^^ b') = gfMul a b ^^^ gfMul a b' :=
  gfMulLoop_xor_right _ b b' 8 0 0 _

/-! Laws from the eight bytes with one bit. -/

/-- A function of bytes that respects exclusive or. -/
def XorLinear (f : Byte → Byte) : Prop := ∀ a b, f (a ^^^ b) = f a ^^^ f b

/-- The bytes with one bit. -/
def bitBytes : List Byte := [0x01, 0x02, 0x04, 0x08, 0x10, 0x20, 0x40, 0x80]

/-- The sum of some bytes. -/
def xorSum (l : List Byte) : Byte := l.foldr (· ^^^ ·) 0

theorem xorSum_bits : ∀ a : Byte, xorSum (bitBytes.filter fun x => a &&& x != 0) = a := by decide +kernel

theorem XorLinear.map_zero {f : Byte → Byte} (hf : XorLinear f) : f 0 = 0 := by
  have h := hf 0 0
  rwa [BitVec.xor_self, BitVec.xor_self] at h

theorem XorLinear.map_xorSum {f : Byte → Byte} (hf : XorLinear f) (l : List Byte) : f (xorSum l) = xorSum (l.map f) := by
  induction l with
  | nil => exact hf.map_zero
  | cons x l ih => exact (hf x (xorSum l)).trans (congrArg (f x ^^^ ·) ih)

theorem XorLinear.comp {f g : Byte → Byte} (hf : XorLinear f) (hg : XorLinear g) : XorLinear fun a => f (g a) :=
  fun a b => (congrArg f (hg a b)).trans (hf (g a) (g b))

/-- Two linear functions that agree on the bytes with one bit are equal. -/
theorem XorLinear.eq_of_bits {f g : Byte → Byte} (hf : XorLinear f) (hg : XorLinear g) (h : ∀ x ∈ bitBytes, f x = g x)
    (a : Byte) : f a = g a := by
  rw [← xorSum_bits a, hf.map_xorSum, hg.map_xorSum,
    List.map_congr_left fun x hx => h x (List.mem_of_mem_filter hx)]

theorem xorLinear_gfMul_left (b : Byte) : XorLinear fun a => gfMul a b := fun a a' => gfMul_xor_left a a' b

theorem xorLinear_gfMul_right (a : Byte) : XorLinear (gfMul a) := gfMul_xor_right a

theorem gfMul_comm (a b : Byte) : gfMul a b = gfMul b a := by
  have hbits : ∀ x ∈ bitBytes, ∀ y ∈ bitBytes, gfMul x y = gfMul y x := by decide +kernel
  refine (xorLinear_gfMul_left b).eq_of_bits (xorLinear_gfMul_right b) (fun x hx => ?_) a
  exact (xorLinear_gfMul_right x).eq_of_bits (xorLinear_gfMul_left x) (hbits x hx) b

theorem gfMul_assoc (a b c : Byte) : gfMul (gfMul a b) c = gfMul a (gfMul b c) := by
  have hbits : ∀ x ∈ bitBytes, ∀ y ∈ bitBytes, ∀ z ∈ bitBytes, gfMul (gfMul x y) z = gfMul x (gfMul y z) := by
    decide +kernel
  have hleft := xorLinear_gfMul_left
  have hright := xorLinear_gfMul_right
  refine ((hleft c).comp (hleft b)).eq_of_bits (hleft (gfMul b c)) (fun x hx => ?_) a
  refine ((hleft c).comp (hright x)).eq_of_bits ((hright x).comp (hleft c)) (fun y hy => ?_) b
  exact (hright (gfMul x y)).eq_of_bits ((hright x).comp (hright y)) (hbits x hx y hy) c

/-! Powers of `α` (R161). -/

theorem gfPowNat_succ (i : Nat) : gfPowNat (i + 1) = gfMul (gfPowNat i) 0x02 := rfl

theorem gfPowNat_add (i j : Nat) : gfPowNat (i + j) = gfMul (gfPowNat i) (gfPowNat j) := by
  induction j with
  | zero => rw [gfMul_comm]; exact (gfMul_one_left _).symm
  | succ j ih => rw [← Nat.add_assoc, gfPowNat_succ, ih, gfPowNat_succ, gfMul_assoc]

theorem gfPowNat_255 : gfPowNat 255 = 0x01 := by decide +kernel

theorem gfPowNat_ne_one : ∀ k, k < 255 → 0 < k → gfPowNat k ≠ 0x01 := by decide +kernel

end Sys2Proof.Machine
end

section
/-! `α` generates the non-zero bytes, so `log` and the inverse are right (41_rs_codec.md R161), and GF(2^8) is a field of the
library. -/

namespace Sys2Proof.Machine

theorem gfMul_one_right (a : Byte) : gfMul a 0x01 = a := (gfMul_comm a 0x01).trans (gfMul_one_left a)

theorem gfPowNat_add_255 (i : Nat) : gfPowNat (i + 255) = gfPowNat i := by
  rw [gfPowNat_add, gfPowNat_255, gfMul_one_right]

/-- The exponent counts modulo 255 (R8). -/
theorem gfPowNat_mod (i : Nat) : gfPowNat (i % 255) = gfPowNat i := by
  rw [Function.Periodic.map_mod_nat gfPowNat_add_255]

theorem gfAlphaPow_eq (i : Nat) : gfAlphaPow i = gfPowNat i := gfPowNat_mod i

theorem gfPowNat_ne_of_lt {i j : Nat} (hi : i < 255) (hj : j < i) : gfPowNat i ≠ gfPowNat j := by
  intro h
  have hone : gfPowNat (i - j + 255) = 0x01 := by
    rw [show i - j + 255 = i + (255 - j) by omega, gfPowNat_add, h, ← gfPowNat_add, show j + (255 - j) = 255 by omega,
      gfPowNat_255]
  rw [gfPowNat_add_255] at hone
  exact gfPowNat_ne_one (i - j) (by omega) (by omega) hone

theorem gfPowNat_ne_zero {i : Nat} (hi : i < 255) : gfPowNat i ≠ 0 := by
  intro h
  have hinv : gfMul (gfPowNat i) (gfPowNat (255 - i)) = 0x01 := by
    rw [← gfPowNat_add, show i + (255 - i) = 255 by omega, gfPowNat_255]
  rw [h, gfMul_zero_left] at hinv
  cases hinv

/-- Every non-zero byte is one of the 255 powers of `α`, by counting. -/
theorem exists_gfPowNat_eq {a : Byte} (ha : a ≠ 0) : ∃ i, i < 255 ∧ gfPowNat i = a := by
  let powers := (Finset.range 255).image fun i => (gfPowNat i).toNat
  have hinj : Set.InjOn (fun i => (gfPowNat i).toNat) (Finset.range 255 : Set Nat) := by
    intro i hi j hj h
    have hi : i < 255 := by simpa using hi
    have hj : j < 255 := by simpa using hj
    rcases Nat.lt_trichotomy i j with hij | hij | hij
    · exact absurd (BitVec.eq_of_toNat_eq h).symm (gfPowNat_ne_of_lt hj hij)
    · exact hij
    · exact absurd (BitVec.eq_of_toNat_eq h) (gfPowNat_ne_of_lt hi hij)
  have hsub : powers ⊆ (Finset.range 256).erase 0 := by
    intro x hx
    obtain ⟨i, hi, rfl⟩ := Finset.mem_image.1 hx
    refine Finset.mem_erase.2 ⟨fun h0 => ?_, Finset.mem_range.2 (gfPowNat i).isLt⟩
    exact gfPowNat_ne_zero (Finset.mem_range.1 hi) (BitVec.eq_of_toNat_eq h0)
  have hcard : ((Finset.range 256).erase 0).card ≤ powers.card := by
    rw [Finset.card_image_of_injOn hinj, Finset.card_erase_of_mem (Finset.mem_range.2 (by decide)), Finset.card_range,
      Finset.card_range]
  have hmem : a.toNat ∈ powers := by
    rw [Finset.eq_of_subset_of_card_le hsub hcard]
    exact Finset.mem_erase.2 ⟨fun h0 => ha (BitVec.eq_of_toNat_eq h0), Finset.mem_range.2 a.isLt⟩
  obtain ⟨i, hi, h⟩ := Finset.mem_image.1 hmem
  exact ⟨i, Finset.mem_range.1 hi, BitVec.eq_of_toNat_eq h⟩

/-- The search behind `log` finds an exponent at which the power is `a`. -/
theorem gfPowNat_gfLogFrom {a : Byte} {fuel k i : Nat} (ha : gfPowNat i = a) (hki : k ≤ i) (hik : i ≤ k + fuel) :
    gfLogFrom a fuel k (gfPowNat k) ≤ k + fuel ∧ gfPowNat (gfLogFrom a fuel k (gfPowNat k)) = a := by
  induction fuel generalizing k with
  | zero =>
    obtain rfl : i = k := by omega
    exact ⟨Nat.le_refl _, ha⟩
  | succ fuel ih =>
    by_cases hk : gfPowNat k = a
    · rw [gfLogFrom, if_pos hk]
      exact ⟨by omega, hk⟩
    · have hne : i ≠ k := fun h => hk (h ▸ ha)
      obtain ⟨hle, hpow⟩ := ih (k := k + 1) (by omega) (by omega)
      rw [gfLogFrom, if_neg hk]
      exact ⟨hle.trans (by omega), hpow⟩

theorem gfLog_spec {a : Byte} (ha : a ≠ 0) : gfLog a < 255 ∧ gfPowNat (gfLog a) = a := by
  obtain ⟨i, hi, hpow⟩ := exists_gfPowNat_eq ha
  obtain ⟨hle, h⟩ := gfPowNat_gfLogFrom (fuel := 254) hpow (Nat.zero_le i) (by omega)
  exact ⟨Nat.lt_succ_of_le hle, h⟩

theorem gfMul_gfInv {a : Byte} (ha : a ≠ 0) : gfMul a (gfInv a) = 0x01 := by
  obtain ⟨hlt, hlog⟩ := gfLog_spec ha
  calc gfMul a (gfInv a) = gfMul (gfPowNat (gfLog a)) (gfPowNat (255 - gfLog a)) := by rw [hlog, gfInv, gfAlphaPow_eq]
    _ = 0x01 := by rw [← gfPowNat_add, show gfLog a + (255 - gfLog a) = 255 by omega, gfPowNat_255]

theorem gfMul_eq_zero {a b : Byte} (h : gfMul a b = 0) : a = 0 ∨ b = 0 := by
  by_cases ha : a = 0
  · exact .inl ha
  · right
    calc b = gfMul (gfMul a (gfInv a)) b := by rw [gfMul_gfInv ha, gfMul_one_left]
      _ = gfMul (gfInv a) (gfMul a b) := by rw [gfMul_comm a, gfMul_assoc]
      _ = 0 := by rw [h, gfMul_zero_right]

/-- Settles O11: linearity gives the laws from the bytes with one bit, the inverse gives that there are no zero divisors. -/
theorem gfMulObeysFieldLaws : Obligations.GfMulObeysFieldLaws :=
  ⟨gfMul_comm, gfMul_assoc, gfMul_xor_right, gfMul_one_left, fun _ _ => gfMul_eq_zero⟩

/-- Settles O12. -/
theorem alphaIsPrimitive : Obligations.AlphaIsPrimitive := by
  refine ⟨by decide, gfPowNat_255, fun i hi j hj => ?_, fun a ha => ?_⟩
  · rw [gfAlphaPow_eq, gfAlphaPow_eq]
    exact gfPowNat_ne_of_lt hi hj
  · obtain ⟨hlt, hlog⟩ := gfLog_spec ha
    exact ⟨hlt, (gfAlphaPow_eq _).trans hlog, gfMul_gfInv ha⟩

/-! The bytes are a field of characteristic 2. The proofs about the code are written in that field, where the library's polynomials
and sums can be used, and carried over by the map `φ`. -/

/-- `φ` carries the arithmetic of bytes to the field `K`. -/
structure FieldOfBytes {K : Type} [Field K] (φ : Byte → K) : Prop where
  injective : Function.Injective φ
  map_xor   : ∀ a b, φ (a ^^^ b) = φ a + φ b
  map_mul   : ∀ a b, φ (gfMul a b) = φ a * φ b
  map_one   : φ 0x01 = 1

/-- A byte as an element of the field: its sum and product are not those of numbers modulo 256. -/
structure Gf where
  byte : Byte

/-- Inversion with the library's convention for 0, where R161 leaves it open. -/
def invOrZero (a : Byte) : Byte := if a = 0 then 0 else gfInv a

/-- GF(2^8) as a field of the library. -/
abbrev gfField : Field Gf :=
  @Field.ofMinimalAxioms Gf ⟨fun a b => ⟨a.byte ^^^ b.byte⟩⟩ ⟨fun a b => ⟨gfMul a.byte b.byte⟩⟩ ⟨id⟩
    ⟨fun a => ⟨invOrZero a.byte⟩⟩ ⟨⟨0⟩⟩ ⟨⟨0x01⟩⟩
    (fun a b c => congrArg Gf.mk (BitVec.xor_assoc a.byte b.byte c.byte))
    (fun a => congrArg Gf.mk (BitVec.zero_xor (x := a.byte)))
    (fun a => congrArg Gf.mk (BitVec.xor_self (x := a.byte)))
    (fun a b c => congrArg Gf.mk (gfMul_assoc a.byte b.byte c.byte))
    (fun a b => congrArg Gf.mk (gfMul_comm a.byte b.byte))
    (fun a => congrArg Gf.mk (gfMul_one_left a.byte))
    (fun a ha => congrArg Gf.mk (by
      have hb : a.byte ≠ 0 := fun h => ha (congrArg Gf.mk h)
      change gfMul a.byte (invOrZero a.byte) = 0x01
      rw [invOrZero, if_neg hb, gfMul_gfInv hb]))
    (congrArg Gf.mk (if_pos rfl))
    (fun a b c => congrArg Gf.mk (gfMul_xor_right a.byte b.byte c.byte))
    ⟨⟨0⟩, ⟨0x01⟩, fun h => absurd (congrArg Gf.byte h) (by decide)⟩

theorem exists_fieldOfBytes : ∃ (K : Type) (_ : Field K) (φ : Byte → K), FieldOfBytes φ :=
  ⟨Gf, gfField, Gf.mk, @FieldOfBytes.mk Gf gfField Gf.mk (fun _ _ h => congrArg Gf.byte h) (fun _ _ => rfl) (fun _ _ => rfl) rfl⟩

namespace FieldOfBytes

variable {K : Type} [Field K] {φ : Byte → K} (hφ : FieldOfBytes φ)

include hφ

theorem map_zero : φ 0 = 0 := left_eq_add.1 (hφ.map_xor 0 0 : φ 0 = φ 0 + φ 0)

theorem charTwo : CharP K 2 := by
  refine CharTwo.of_one_ne_zero_of_two_eq_zero one_ne_zero ?_
  rw [← one_add_one_eq_two, ← hφ.map_one, ← hφ.map_xor]
  exact (congrArg φ BitVec.xor_self).trans hφ.map_zero

theorem map_eq_zero {a : Byte} : φ a = 0 ↔ a = 0 := by rw [← hφ.map_zero, hφ.injective.eq_iff]

theorem map_gfPowNat (i : Nat) : φ (gfPowNat i) = φ 0x02 ^ i := by
  induction i with
  | zero => exact hφ.map_one.trans (pow_zero _).symm
  | succ i ih => rw [gfPowNat_succ, hφ.map_mul, ih, pow_succ]

theorem map_gfInv {a : Byte} (ha : a ≠ 0) : φ (gfInv a) = (φ a)⁻¹ :=
  eq_inv_of_mul_eq_one_right (by rw [← hφ.map_mul, gfMul_gfInv ha, hφ.map_one])

end FieldOfBytes

end Sys2Proof.Machine
end

section
/-! Lists of bytes as polynomials over the field: evaluation, the linear factors of the generator and locator polynomials
(41_rs_codec.md R163, R165, R174). -/

namespace Sys2Proof.Machine

open Polynomial

variable {K : Type} [Field K]

/-- The polynomial with the coefficients `l`, LOWEST degree first. -/
noncomputable def polyOf (φ : Byte → K) : List Byte → K[X]
  | [] => 0
  | a :: l => C (φ a) + X * polyOf φ l

variable (φ : Byte → K)

theorem polyOf_append (l m : List Byte) : polyOf φ (l ++ m) = polyOf φ l + X ^ l.length * polyOf φ m := by
  induction l with
  | nil => simp [polyOf]
  | cons a l ih =>
    rw [List.cons_append, polyOf, ih, polyOf, List.length_cons]
    ring

section
variable {φ} (hφ : FieldOfBytes φ)
include hφ

theorem coeff_polyOf (l : List Byte) (k : Nat) : (polyOf φ l).coeff k = φ (l.getD k 0) := by
  induction l generalizing k with
  | nil => exact hφ.map_zero.symm
  | cons a l ih =>
    cases k with
    | zero => simp [polyOf]
    | succ k => rw [polyOf, coeff_add, coeff_C_succ, zero_add, coeff_X_mul, ih, List.getD_cons_succ]

theorem natDegree_polyOf_le (l : List Byte) : (polyOf φ l).natDegree ≤ l.length - 1 := by
  rw [natDegree_le_iff_coeff_eq_zero]
  intro k hk
  rw [coeff_polyOf hφ, List.getD_eq_default _ _ (by omega), hφ.map_zero]

theorem polyOf_zipWith_xor {l m : List Byte} (h : l.length = m.length) :
    polyOf φ (List.zipWith (· ^^^ ·) l m) = polyOf φ l + polyOf φ m := by
  induction l generalizing m with
  | nil => cases m with
    | nil => simp [polyOf]
    | cons b m => simp at h
  | cons a l ih => cases m with
    | nil => simp at h
    | cons b m =>
      rw [List.zipWith_cons_cons, polyOf, ih (Nat.succ.inj h), hφ.map_xor, C_add, polyOf, polyOf]
      ring

theorem polyOf_map_gfMul (a : Byte) (l : List Byte) : polyOf φ (l.map (gfMul a)) = C (φ a) * polyOf φ l := by
  induction l with
  | nil => simp [polyOf]
  | cons b l ih =>
    rw [List.map_cons, polyOf, ih, hφ.map_mul, C_mul, polyOf]
    ring

/-- Multiplying by `x ⊕ a`, lowest degree first: the coefficients are those of a product with `1 ⊕ a x`. -/
theorem polyOf_polyMulLinear (a : Byte) (g : List Byte) :
    polyOf φ (polyMulLinear a g) = (1 + C (φ a) * X) * polyOf φ g := by
  rw [polyMulLinear, polyOf_zipWith_xor hφ (by simp), polyOf_append, polyOf, polyOf, polyOf, hφ.map_zero,
    polyOf_map_gfMul hφ, C_0]
  ring

/-- Multiplying by `x ⊕ a`, highest degree first. -/
theorem polyOf_polyMulLinear_reverse (a : Byte) (g : List Byte) :
    polyOf φ (polyMulLinear a g).reverse = (X + C (φ a)) * polyOf φ g.reverse := by
  have hrev : (polyMulLinear a g).reverse =
      List.zipWith (· ^^^ ·) (0 :: g.reverse) (g.reverse.map (gfMul a) ++ [0]) := by
    rw [polyMulLinear, List.reverse_zipWith (by simp)]
    simp
  rw [hrev, polyOf_zipWith_xor hφ (by simp), polyOf_append, polyOf, polyOf, polyOf, hφ.map_zero, polyOf_map_gfMul hφ, C_0]
  ring

theorem map_evalLow (l : List Byte) (x : Byte) : φ (evalLow l x) = (polyOf φ l).eval (φ x) := by
  induction l with
  | nil => simpa [evalLow, polyEval, polyOf] using hφ.map_zero
  | cons a l ih =>
    have hcons : evalLow (a :: l) x = gfMul (evalLow l x) x ^^^ a := by simp [evalLow, polyEval]
    rw [hcons, hφ.map_xor, hφ.map_mul, ih, polyOf]
    simp only [eval_add, eval_mul, eval_C, eval_X]
    ring

/-- `eval` takes the highest degree first (R165). -/
theorem map_polyEval (l : List Byte) (x : Byte) : φ (polyEval l x) = (polyOf φ l.reverse).eval (φ x) := by
  rw [← map_evalLow hφ, evalLow, List.reverse_reverse]

theorem map_polyEval_append (l m : List Byte) (x : Byte) :
    φ (polyEval (l ++ m) x) = φ (polyEval l x) * φ x ^ m.length + φ (polyEval m x) := by
  rw [map_polyEval hφ, List.reverse_append, polyOf_append, List.length_reverse, map_polyEval hφ, map_polyEval hφ, eval_add,
    eval_mul, eval_pow, eval_X]
  ring

theorem map_polyEval_cons (a : Byte) (l : List Byte) (x : Byte) :
    φ (polyEval (a :: l) x) = φ a * φ x ^ l.length + φ (polyEval l x) := by
  have hone : φ (polyEval [a] x) = φ a := by simp [map_polyEval hφ, polyOf]
  rw [← List.singleton_append, map_polyEval_append hφ, hone]

theorem map_polyEval_polyMulLinear (a x : Byte) (g : List Byte) :
    φ (polyEval (polyMulLinear a g) x) = (φ x + φ a) * φ (polyEval g x) := by
  rw [map_polyEval hφ, polyOf_polyMulLinear_reverse hφ, eval_mul, ← map_polyEval hφ, eval_add, eval_X, eval_C]

end

/-! The generator polynomial (R163). -/

@[simp] theorem length_polyMulLinear (a : Byte) (g : List Byte) : (polyMulLinear a g).length = g.length + 1 := by
  simp [polyMulLinear]

@[simp] theorem length_genPoly (p : Nat) : (genPoly p).length = p + 1 := by
  induction p with
  | zero => rfl
  | succ p ih => rw [genPoly, length_polyMulLinear, ih]

theorem genPoly_succ (p : Nat) : genPoly (p + 1) = polyMulLinear (gfAlphaPow p) (genPoly p) := by
  rw [genPoly, show Config.rsFcr + p = p from Nat.zero_add p]

/-- The generator polynomial is monic. -/
theorem genPoly_eq_cons (p : Nat) : genPoly p = 0x01 :: (genPoly p).tail := by
  induction p with
  | zero => rfl
  | succ p ih => rw [genPoly_succ, ih]; rfl

theorem polyEval_genPoly {p j : Nat} (hj : j < p) : polyEval (genPoly p) (gfAlphaPow j) = 0 := by
  obtain ⟨K, _, φ, hφ⟩ := exists_fieldOfBytes
  have := hφ.charTwo
  rw [← hφ.map_eq_zero]
  induction p with
  | zero => cases hj
  | succ p ih =>
    rw [genPoly_succ, map_polyEval_polyMulLinear hφ]
    rcases Nat.lt_succ_iff_lt_or_eq.1 hj with h | rfl
    · rw [ih h, mul_zero]
    · rw [CharTwo.add_self_eq_zero, zero_mul]

/-- Settles O13: by induction on `p`, each step multiplies by one linear factor. -/
theorem generatorPolynomialHasItsRoots : Obligations.GeneratorPolynomialHasItsRoots :=
  fun p _ => ⟨length_genPoly p, by rw [genPoly_eq_cons]; rfl, fun _ => polyEval_genPoly⟩

/-! Encoding (R166). -/

section
variable {φ} (hφ : FieldOfBytes φ)
include hφ

theorem map_polyEval_replicate_zero (n : Nat) (x : Byte) : φ (polyEval (List.replicate n 0) x) = 0 := by
  rw [polyEval_replicate_zero, hφ.map_zero]

theorem map_polyEval_addScaled (t x : Byte) {gs w : List Byte} (h : gs.length ≤ w.length) :
    φ (polyEval (addScaled t gs w) x) =
      φ (polyEval w x) + φ t * φ (polyEval gs x) * φ x ^ (w.length - gs.length) := by
  induction gs generalizing w with
  | nil =>
    have hnil : φ (polyEval [] x) = 0 := hφ.map_zero
    rw [addScaled, hnil, mul_zero, zero_mul, add_zero]
    nofun
  | cons g gs ih => cases w with
    | nil => simp at h
    | cons y w =>
      have h : gs.length ≤ w.length := Nat.le_of_succ_le_succ h
      have hpow : φ x ^ w.length = φ x ^ gs.length * φ x ^ (w.length - gs.length) := by
        rw [← pow_add, Nat.add_sub_of_le h]
      rw [addScaled, map_polyEval_cons hφ, map_polyEval_cons hφ, map_polyEval_cons hφ, ih h, length_addScaled, hφ.map_xor,
        hφ.map_mul, List.length_cons, List.length_cons, Nat.add_sub_add_right, hpow]
      ring

/-- R166's division keeps the value at every root of its divisor. -/
theorem map_polyEval_rsDivide {x : Byte} {gs : List Byte} (hroot : polyEval (0x01 :: gs) x = 0) {m : Nat} {w : List Byte}
    (hw : w.length = m + gs.length) : φ (polyEval (rsDivide gs m w) x) = φ (polyEval w x) := by
  have := hφ.charTwo
  have hgs : φ (polyEval gs x) = φ x ^ gs.length := by
    rw [← hφ.map_eq_zero, map_polyEval_cons hφ, hφ.map_one, one_mul, CharTwo.add_eq_zero] at hroot
    exact hroot.symm
  induction m generalizing w with
  | zero => rfl
  | succ m ih => cases w with
    | nil => simp at hw; omega
    | cons t w =>
      have hw : w.length = m + gs.length := by rw [List.length_cons] at hw; omega
      rw [rsDivide, map_polyEval_cons hφ]
      split
      · next ht => rw [ih hw, ht, hφ.map_zero, zero_mul, zero_add]
      · rw [ih (by rw [length_addScaled, hw]), map_polyEval_addScaled hφ _ _ (by omega), hgs, mul_assoc, ← pow_add, add_comm,
          Nat.add_sub_of_le (by omega)]

end

/-- The parity makes every root of the generator polynomial a root of the codeword. -/
theorem polyEval_rsEnc (d : List Byte) {p j : Nat} (hj : j < p) : polyEval (rsEnc d p) (gfAlphaPow j) = 0 := by
  obtain ⟨K, _, φ, hφ⟩ := exists_fieldOfBytes
  have := hφ.charTwo
  have hroot : polyEval (0x01 :: (genPoly p).tail) (gfAlphaPow j) = 0 := by rw [← genPoly_eq_cons, polyEval_genPoly hj]
  rw [← hφ.map_eq_zero, rsEnc, map_polyEval_append hφ, length_rsParity, rsParity,
    map_polyEval_rsDivide hφ hroot (by simp), map_polyEval_append hφ, map_polyEval_replicate_zero hφ, List.length_replicate,
    add_zero, CharTwo.add_self_eq_zero]

/-- Settles O14. -/
theorem rsEncIsSystematicCodeword : Obligations.RsEncIsSystematicCodeword :=
  fun d p _ => ⟨List.take_left, length_rsEnc d p, fun _ => polyEval_rsEnc d⟩

end Sys2Proof.Machine
end

section
/-! Power sums over positions: a word of few non-zero entries is determined by as many power sums of its locators (a Vandermonde
system; 41_rs_codec.md R162, R171). -/

namespace Sys2Proof.Machine

open Polynomial

variable {K : Type} [Field K]

/-- The values of a polynomial of degree below `p`, weighted, from the first `p` power sums. -/
theorem sum_mul_eval_eq {S : Finset Nat} (u x : Nat → K) {P : K[X]} {p : Nat} (hP : P.natDegree < p) :
    ∑ i ∈ S, u i * P.eval (x i) = ∑ j ∈ Finset.range p, P.coeff j * ∑ i ∈ S, u i * x i ^ j := by
  have heval : ∀ y, P.eval y = ∑ j ∈ Finset.range p, P.coeff j * y ^ j := fun y =>
    eval_eq_sum_range' hP y
  simp only [heval, Finset.mul_sum]
  rw [Finset.sum_comm]
  exact Finset.sum_congr rfl fun j _ => Finset.sum_congr rfl fun i _ => mul_left_comm _ _ _

/-- Weights outside zero on at most `p` points with `p` vanishing power sums are zero: the polynomial that vanishes at all points
but one isolates that one. -/
theorem eq_zero_of_power_sums {S T : Finset Nat} {u x : Nat → K} {p : Nat} (hx : Set.InjOn x S) (hTS : T ⊆ S) (hT : T.card ≤ p)
    (hu : ∀ i ∈ S, i ∉ T → u i = 0) (h : ∀ j, j < p → ∑ i ∈ S, u i * x i ^ j = 0) {i : Nat} (hi : i ∈ S) : u i = 0 := by
  by_cases hiT : i ∈ T
  · let P := Lagrange.nodal (T.erase i) x
    have hdeg : P.natDegree < p := by
      rw [Lagrange.natDegree_nodal]
      exact (Finset.card_erase_lt_of_mem hiT).trans_le hT
    have hne : P.eval (x i) ≠ 0 := Lagrange.eval_nodal_not_at_node fun k hk heq =>
      Finset.ne_of_mem_erase hk (hx (hTS (Finset.mem_of_mem_erase hk)) hi heq.symm)
    have hother : ∀ k ∈ S, k ≠ i → u k * P.eval (x k) = 0 := fun k hk hki => by
      by_cases hkT : k ∈ T
      · rw [Lagrange.eval_nodal_at_node (Finset.mem_erase.2 ⟨hki, hkT⟩), mul_zero]
      · rw [hu k hk hkT, zero_mul]
    have hsum : u i * P.eval (x i) = 0 := by
      rw [← Finset.sum_eq_single_of_mem i hi hother, sum_mul_eval_eq u x hdeg]
      exact Finset.sum_eq_zero fun j hj => by rw [h j (Finset.mem_range.1 hj), mul_zero]
    exact (mul_eq_zero.1 hsum).resolve_right hne
  · exact hu i hi hiT

/-! Locators (R162). -/

theorem locator_eq (n i : Nat) : locator n i = gfPowNat (n - 1 - i) := gfAlphaPow_eq _

theorem locator_ne_zero {n i : Nat} (hn : n ≤ 255) (hi : i < n) : locator n i ≠ 0 := by
  rw [locator_eq]
  exact gfPowNat_ne_zero (by omega)

theorem locator_injOn {n : Nat} (hn : n ≤ 255) : Set.InjOn (locator n) (Finset.range n) := by
  intro i hi j hj h
  have hi : i < n := Finset.mem_range.1 hi
  have hj : j < n := Finset.mem_range.1 hj
  rw [locator_eq, locator_eq] at h
  by_contra hne
  rcases Nat.lt_or_gt_of_ne hne with hij | hij
  · exact gfPowNat_ne_of_lt (by omega) (by omega) h
  · exact gfPowNat_ne_of_lt (by omega) (by omega) h.symm

/-! Syndromes as power sums (R165). -/

/-- What position `i` of `c` is changed by to get `r`. -/
def change (r c : List Byte) (i : Nat) : Byte := r.getD i 0 ^^^ c.getD i 0

theorem change_eq_zero {r c : List Byte} {i : Nat} : change r c i = 0 ↔ r.getD i 0 = c.getD i 0 := BitVec.xor_eq_zero_iff

section
variable {φ : Byte → K} (hφ : FieldOfBytes φ)
include hφ

theorem map_locator_injOn {n : Nat} (hn : n ≤ 255) : Set.InjOn (fun i => φ (locator n i)) (Finset.range n) :=
  hφ.injective.comp_injOn (locator_injOn hn)

theorem map_polyEval_eq_sum (r : List Byte) (j : Nat) :
    φ (polyEval r (gfAlphaPow j)) = ∑ i ∈ Finset.range r.length, φ (r.getD i 0) * φ (locator r.length i) ^ j := by
  induction r with
  | nil => exact hφ.map_zero
  | cons a r ih =>
    have hshift : ∀ i, locator (r.length + 1) (i + 1) = locator r.length i := fun i => by
      rw [locator, locator, Nat.add_sub_cancel, Nat.sub_sub, Nat.add_comm 1]
    have hhead : φ (gfAlphaPow j) ^ r.length = φ (locator (r.length + 1) 0) ^ j := by
      rw [locator_eq, gfAlphaPow_eq, hφ.map_gfPowNat, hφ.map_gfPowNat, ← pow_mul, ← pow_mul, Nat.mul_comm]
      rfl
    rw [map_polyEval_cons hφ, List.length_cons, Finset.sum_range_succ', ih, hhead, add_comm]
    simp only [hshift, List.getD_cons_succ, List.getD_cons_zero]

/-- The syndromes of a word are the power sums of its changes from a member of the code. -/
theorem map_polyEval_eq_sum_change {n p : Nat} {r c : List Byte} (hr : r.length = n) (hc : RsMember n p c) {j : Nat} (hj : j < p) :
    φ (polyEval r (gfAlphaPow j)) = ∑ i ∈ Finset.range n, φ (change r c i) * φ (locator n i) ^ j := by
  obtain ⟨hlen, hroots⟩ := hc
  have hzero := map_polyEval_eq_sum hφ c j
  rw [hroots j hj, hφ.map_zero, hlen] at hzero
  rw [map_polyEval_eq_sum hφ, hr, ← add_zero (∑ i ∈ _, _), hzero, ← Finset.sum_add_distrib]
  exact Finset.sum_congr rfl fun i _ => by rw [change, hφ.map_xor, add_mul]

end

/-! Positions outside the erasures at which two words differ (R169). -/

/-- The positions `differCount` counts. -/
def errorPositions (n : Nat) (c r : List Byte) (era : List Nat) : Finset Nat :=
  (Finset.range n).filter fun i => i ∉ era ∧ c.getD i 0 ≠ r.getD i 0

theorem card_errorPositions (n : Nat) (c r : List Byte) (era : List Nat) :
    (errorPositions n c r era).card = differCount n c r era := by
  simp only [differCount, ← Bool.decide_and]
  rfl

theorem mem_errorPositions {n : Nat} {c r : List Byte} {era : List Nat} {i : Nat} :
    i ∈ errorPositions n c r era ↔ i < n ∧ i ∉ era ∧ c.getD i 0 ≠ r.getD i 0 := by
  rw [errorPositions, Finset.mem_filter, Finset.mem_range]

theorem errorPositions_subset (n : Nat) (c r : List Byte) (era : List Nat) : errorPositions n c r era ⊆ Finset.range n :=
  Finset.filter_subset _ _

/-- A position that is neither an erasure nor an error is not changed. -/
theorem getD_eq_of_notMem {n : Nat} {c r : List Byte} {era : List Nat} {i : Nat} (hi : i < n) (hera : i ∉ era)
    (herr : i ∉ errorPositions n c r era) : c.getD i 0 = r.getD i 0 := by
  by_contra hne
  exact herr (mem_errorPositions.2 ⟨hi, hera, hne⟩)

/-- Settles O15: where two members differ, one of them differs from the received word or an erasure stands; these are at most `p`
positions, and `p` syndromes of the difference are zero. -/
theorem rsMemberInRadiusIsUnique : Obligations.RsMemberInRadiusIsUnique := by
  intro n p era r c c' hn hp hr ⟨_, hlt, _⟩ hc hc' he he'
  obtain ⟨K, _, φ, hφ⟩ := exists_fieldOfBytes
  let T := era.toFinset ∪ (errorPositions n c r era ∪ errorPositions n c' r era)
  have hTS : T ⊆ Finset.range n := Finset.union_subset
    (fun i hi => Finset.mem_range.2 (hlt i (List.mem_toFinset.1 hi)))
    (Finset.union_subset (errorPositions_subset ..) (errorPositions_subset ..))
  have hT : T.card ≤ p := by
    have h1 := Finset.card_union_le era.toFinset (errorPositions n c r era ∪ errorPositions n c' r era)
    have h2 := Finset.card_union_le (errorPositions n c r era) (errorPositions n c' r era)
    have h3 := List.toFinset_card_le era
    rw [card_errorPositions, card_errorPositions] at h2
    change T.card ≤ _ at h1
    omega
  have hoff : ∀ i ∈ Finset.range n, i ∉ T → φ (change c c' i) = 0 := by
    intro i hi hiT
    have hi := Finset.mem_range.1 hi
    simp only [T, Finset.mem_union, List.mem_toFinset, not_or] at hiT
    obtain ⟨hera, herr, herr'⟩ := hiT
    rw [hφ.map_eq_zero, change_eq_zero, getD_eq_of_notMem hi hera herr, getD_eq_of_notMem hi hera herr']
  have hsums : ∀ j, j < p → ∑ i ∈ Finset.range n, φ (change c c' i) * φ (locator n i) ^ j = 0 := fun j hj => by
    rw [← map_polyEval_eq_sum_change hφ hc.1 hc' hj, hc.2 j hj, hφ.map_zero]
  refine List.ext_getElem (hc.1.trans hc'.1.symm) fun i hi hi' => ?_
  have hzero := eq_zero_of_power_sums (map_locator_injOn hφ hn) hTS hT hoff hsums (Finset.mem_range.2 (hc.1 ▸ hi))
  rw [hφ.map_eq_zero, change_eq_zero] at hzero
  rwa [List.getD_eq_getElem _ _ hi, List.getD_eq_getElem _ _ hi'] at hzero

/-! The model's counts and tests in the words of the claims (R169, R170, R172). -/

theorem errorCount_eq {n : Nat} {c r : List Byte} (hc : c.length = n) (hr : r.length = n) (era : List Nat) :
    errorCount c r era = differCount n c r era := by
  have hpairs : (List.zip c r).zipIdx = (List.range n).map fun i => ((c.getD i 0, r.getD i 0), i) := by
    apply List.ext_getElem
    · simp [hc, hr]
    · intro i h1 h2
      have hi : i < n := by simpa using h2
      simp [hc, hr, hi]
  rw [errorCount, hpairs, List.countP_map, List.countP_eq_length_filter, differCount]
  congr 2
  funext i
  simp [Bool.and_comm, bne, beq_eq_decide]

theorem changedCount_eq {n : Nat} {c r : List Byte} (hc : c.length = n) (hr : r.length = n) :
    changedCount c r = differCount n c r [] := by
  have hall : changedCount c r = errorCount c r [] := by
    rw [errorCount, changedCount, ← List.zipIdx_map_fst 0 (List.zip c r), List.countP_map, List.zipIdx_map_fst]
    simp [Function.comp_def]
  rw [hall, errorCount_eq hc hr]

theorem isCodeword_iff {p : Nat} {c : List Byte} : isCodeword p c = true ↔ RsMember c.length p c := by
  have hsyn : ∀ j, syndrome c j = polyEval c (gfAlphaPow j) := fun j => by
    rw [syndrome, show Config.rsFcr + j = j from Nat.zero_add j]
  simp [isCodeword, syndromes, RsMember, hsyn]

theorem withinRadius_iff {p : Nat} {era : List Nat} {r c : List Byte} (h : c.length = r.length) :
    withinRadius p era r c = true ↔ 2 * differCount r.length c r era + era.length ≤ p := by
  rw [withinRadius, decide_eq_true_iff, errorCount_eq h rfl]

theorem rsOk_eq {p : Nat} {era : List Nat} {r c : List Byte} (h : c.length = r.length) : rsOk p era r c =
    { data := c.take (r.length - p), corrected := differCount r.length c r [], errors := differCount r.length c r era } := by
  rw [rsOk, changedCount_eq h rfl, errorCount_eq h rfl]

/-- Settles O16: a result has passed R170's own tests. -/
theorem rsDecResultIsMemberInRadius : Obligations.RsDecResultIsMemberInRadius := by
  intro p era r ok _ _ _ hok
  obtain ⟨c, hcand, hmem, hrad, rfl⟩ := rsDec_cases hok
  have hlen := candidate_length hcand
  exact ⟨c, hlen ▸ isCodeword_iff.1 hmem, (withinRadius_iff hlen).1 hrad, rsOk_eq hlen⟩

end Sys2Proof.Machine
end

section
/-! Gaussian elimination (log 5): `kernelVector` answers a non-zero solution of its system, and answers one whenever there is one. -/

namespace Sys2Proof.Machine

/-- `y` is a non-zero solution of the system `rows` in `n` unknowns. -/
structure IsKernelVector (n : Nat) (rows : List (List Byte)) (y : List Byte) : Prop where
  length  : y.length = n
  nonzero : ∃ b ∈ y, b ≠ 0
  solves  : ∀ row ∈ rows, gfDot row y = 0

/-- The rest of row `r` after `q`'s multiple is added that clears its first entry; `kernelVector` eliminates with it. -/
def reduceRow (q r : List Byte) : List Byte :=
  List.zipWith (fun a b => a ^^^ gfMul (gfMul (r.headD 0) (gfInv (q.headD 0))) b) r.tail q.tail

theorem kernelVector_succ_none {n : Nat} {rows : List (List Byte)} (h : rows.find? (fun r => r.headD 0 != 0) = none) :
    kernelVector (n + 1) rows = some (0x01 :: List.replicate n 0) := by
  rw [kernelVector, h]

theorem kernelVector_succ_some {n : Nat} {rows : List (List Byte)} {q : List Byte}
    (h : rows.find? (fun r => r.headD 0 != 0) = some q) :
    kernelVector (n + 1) rows =
      (kernelVector n (rows.map (reduceRow q))).map fun y => gfMul (gfInv (q.headD 0)) (gfDot q.tail y) :: y := by
  rw [kernelVector, h]
  rfl

theorem length_reduceRow {n : Nat} {q r : List Byte} (hq : q.length = n + 1) (hr : r.length = n + 1) :
    (reduceRow q r).length = n := by
  simp [reduceRow, hq, hr]

theorem gfDot_replicate_zero (l : List Byte) (n : Nat) : gfDot l (List.replicate n 0) = 0 := by
  induction l generalizing n with
  | nil => rfl
  | cons a l ih => cases n with
    | zero => rfl
    | succ n =>
      rw [List.replicate_succ, gfDot, ih, gfMul_zero_right]
      rfl

theorem eq_replicate_zero {n : Nat} {y : List Byte} (hlen : y.length = n) (h : ¬∃ b ∈ y, b ≠ 0) : y = List.replicate n 0 := by
  refine List.eq_replicate_iff.2 ⟨hlen, fun b hb => ?_⟩
  by_contra hne
  exact h ⟨b, hb, hne⟩

section
variable {K : Type} [Field K] {φ : Byte → K} (hφ : FieldOfBytes φ)
include hφ

theorem map_gfDot_cons (a b : Byte) (l m : List Byte) : φ (gfDot (a :: l) (b :: m)) = φ a * φ b + φ (gfDot l m) := by
  rw [gfDot, hφ.map_xor, hφ.map_mul]

theorem map_gfDot_zipWith (t : Byte) {l m : List Byte} (h : l.length = m.length) (y : List Byte) :
    φ (gfDot (List.zipWith (fun a b => a ^^^ gfMul t b) l m) y) = φ (gfDot l y) + φ t * φ (gfDot m y) := by
  have hnil : φ 0 = φ 0 + φ t * φ 0 := by rw [hφ.map_zero, mul_zero, add_zero]
  induction l generalizing m y with
  | nil => cases m with
    | nil => exact hnil
    | cons b m => simp at h
  | cons a l ih => cases m with
    | nil => simp at h
    | cons b m => cases y with
      | nil => exact hnil
      | cons v y =>
        rw [List.zipWith_cons_cons, map_gfDot_cons hφ, map_gfDot_cons hφ, map_gfDot_cons hφ, ih (Nat.succ.inj h), hφ.map_xor,
          hφ.map_mul]
        ring

theorem map_gfDot_reduceRow {n : Nat} {a b : Byte} {q r : List Byte} (hb : b ≠ 0) (hq : q.length = n) (hr : r.length = n)
    (y : List Byte) :
    φ (gfDot (reduceRow (b :: q) (a :: r)) y) = φ (gfDot r y) + φ a * (φ b)⁻¹ * φ (gfDot q y) := by
  rw [reduceRow, List.tail_cons, List.tail_cons, map_gfDot_zipWith hφ _ (hr.trans hq.symm), List.headD_cons, List.headD_cons,
    hφ.map_mul, hφ.map_gfInv hb]

end

/-- A row that has a pivot, and the row it is eliminated with, by their entries. -/
theorem pivot_cons {n : Nat} {rows : List (List Byte)} {q : List Byte} (hrows : ∀ r ∈ rows, r.length = n + 1)
    (hq : rows.find? (fun r => r.headD 0 != 0) = some q) : ∃ b t, q = b :: t ∧ b ≠ 0 ∧ t.length = n := by
  obtain ⟨b, t, rfl⟩ := List.exists_cons_of_length_eq_add_one (hrows q (List.mem_of_find?_eq_some hq))
  have hb := List.find?_some hq
  exact ⟨b, t, rfl, by simpa using hb, Nat.succ.inj (hrows _ (List.mem_of_find?_eq_some hq))⟩

/-- Without a pivot every row starts with 0. -/
theorem headD_eq_zero {rows : List (List Byte)} (h : rows.find? (fun r => r.headD 0 != 0) = none) {r : List Byte}
    (hr : r ∈ rows) : r.headD 0 = 0 := by
  simpa using List.find?_eq_none.1 h r hr

theorem length_of_mem_reduced {n : Nat} {q : List Byte} {rows : List (List Byte)} (hq : q.length = n + 1)
    (hrows : ∀ r ∈ rows, r.length = n + 1) : ∀ r ∈ rows.map (reduceRow q), r.length = n := by
  intro r hr
  obtain ⟨r', hr', rfl⟩ := List.mem_map.1 hr
  exact length_reduceRow hq (hrows r' hr')

/-- Substituting back: a solution of the reduced system extends to one of the system. -/
theorem IsKernelVector.substitute {n : Nat} {rows : List (List Byte)} {b : Byte} {t z : List Byte} (hb : b ≠ 0)
    (ht : t.length = n) (hrows : ∀ r ∈ rows, r.length = n + 1) (hz : IsKernelVector n (rows.map (reduceRow (b :: t))) z) :
    IsKernelVector (n + 1) rows (gfMul (gfInv b) (gfDot t z) :: z) := by
  obtain ⟨K, _, φ, hφ⟩ := exists_fieldOfBytes
  obtain ⟨hlen, ⟨v, hv, hne⟩, hsolves⟩ := hz
  refine ⟨by simp [hlen], ⟨v, List.mem_cons_of_mem _ hv, hne⟩, fun r hr => ?_⟩
  have hred := hsolves _ (List.mem_map_of_mem hr)
  obtain ⟨a, l, rfl⟩ := List.exists_cons_of_length_eq_add_one (hrows r hr)
  rw [← hφ.map_eq_zero, map_gfDot_reduceRow hφ hb ht (Nat.succ.inj (hrows _ hr))] at hred
  rw [← hφ.map_eq_zero, map_gfDot_cons hφ, hφ.map_mul, hφ.map_gfInv hb]
  linear_combination hred

/-- Eliminating: a solution of the system, without its first unknown, is one of the reduced system. -/
theorem IsKernelVector.eliminate {n : Nat} {rows : List (List Byte)} {b w : Byte} {t z : List Byte} (hb : b ≠ 0)
    (hpivot : b :: t ∈ rows) (hrows : ∀ r ∈ rows, r.length = n + 1) (hz : IsKernelVector (n + 1) rows (w :: z)) :
    IsKernelVector n (rows.map (reduceRow (b :: t))) z := by
  obtain ⟨K, _, φ, hφ⟩ := exists_fieldOfBytes
  have := hφ.charTwo
  obtain ⟨hlen, hne, hsolves⟩ := hz
  have hlen : z.length = n := Nat.succ.inj hlen
  have hb' : φ b ≠ 0 := fun h => hb (hφ.map_eq_zero.1 h)
  have hdot : ∀ a l, a :: l ∈ rows → φ a * φ w + φ (gfDot l z) = 0 := fun a l h => by
    rw [← map_gfDot_cons hφ, hsolves _ h, hφ.map_zero]
  refine ⟨hlen, ?_, fun r hr => ?_⟩
  · by_contra hzero
    have hbw := hdot b t hpivot
    rw [eq_replicate_zero hlen hzero, gfDot_replicate_zero, hφ.map_zero, add_zero, ← hφ.map_mul, hφ.map_eq_zero] at hbw
    obtain rfl := (gfMul_eq_zero hbw).resolve_left hb
    obtain ⟨v, hv, hne⟩ := hne
    exact hzero ⟨v, (List.mem_cons.1 hv).resolve_left hne, hne⟩
  · obtain ⟨r', hr', rfl⟩ := List.mem_map.1 hr
    obtain ⟨a, l, rfl⟩ := List.exists_cons_of_length_eq_add_one (hrows r' hr')
    have htwo : φ a * φ w + φ a * φ w = 0 := CharTwo.add_self_eq_zero _
    have hcancel : φ a * (φ b)⁻¹ * (φ b * φ w) = φ a * φ w := by field_simp
    rw [← hφ.map_eq_zero, map_gfDot_reduceRow hφ hb (Nat.succ.inj (hrows _ hpivot)) (Nat.succ.inj (hrows _ hr'))]
    linear_combination φ a * (φ b)⁻¹ * hdot b t hpivot + hdot a l hr' - htwo - hcancel

/-- What the elimination answers is a solution. -/
theorem isKernelVector_of_kernelVector {n : Nat} {rows : List (List Byte)} {y : List Byte}
    (hrows : ∀ r ∈ rows, r.length = n) (h : kernelVector n rows = some y) : IsKernelVector n rows y := by
  induction n generalizing rows y with
  | zero => cases h
  | succ n ih =>
    cases hq : rows.find? (fun r => r.headD 0 != 0) with
    | none =>
      rw [kernelVector_succ_none hq, Option.some.injEq] at h
      subst h
      refine ⟨by simp, ⟨0x01, List.mem_cons_self, by decide⟩, fun r hr => ?_⟩
      obtain ⟨a, t, rfl⟩ := List.exists_cons_of_length_eq_add_one (hrows r hr)
      obtain rfl : a = 0 := headD_eq_zero hq hr
      rw [gfDot, gfDot_replicate_zero, gfMul_zero_left]
      rfl
    | some q =>
      obtain ⟨b, t, rfl, hb, ht⟩ := pivot_cons hrows hq
      rw [kernelVector_succ_some hq, Option.map_eq_some_iff] at h
      obtain ⟨z, hz, rfl⟩ := h
      exact (ih (length_of_mem_reduced (by simp [ht]) hrows) hz).substitute hb ht hrows

/-- The elimination answers whenever the system has a non-zero solution. -/
theorem exists_kernelVector {n : Nat} {rows : List (List Byte)} {z : List Byte} (hrows : ∀ r ∈ rows, r.length = n)
    (hz : IsKernelVector n rows z) : ∃ y, kernelVector n rows = some y := by
  induction n generalizing rows z with
  | zero =>
    obtain ⟨hlen, ⟨b, hb, -⟩, -⟩ := hz
    rw [List.length_eq_zero_iff.1 hlen] at hb
    cases hb
  | succ n ih =>
    cases hq : rows.find? (fun r => r.headD 0 != 0) with
    | none => exact ⟨_, kernelVector_succ_none hq⟩
    | some q =>
      obtain ⟨b, t, rfl, hb, ht⟩ := pivot_cons hrows hq
      obtain ⟨w, z, rfl⟩ := List.exists_cons_of_length_eq_add_one hz.length
      obtain ⟨y, hy⟩ := ih (length_of_mem_reduced (by simp [ht]) hrows) (hz.eliminate hb (List.mem_of_find?_eq_some hq) hrows)
      exact ⟨_, by rw [kernelVector_succ_some hq, hy]; rfl⟩

end Sys2Proof.Machine
end

section
/-! The decoder finds the member within the radius (41_rs_codec.md R170, R174; log 5). With `u_i` the change at position `i`, `X_i`
its locator and `Γ` the erasure locator, the rows of the error locator's system say of `Λ` that the sums of
`u_i Γ(X_i^-1) Λ(X_i^-1) X_i^j` are 0. The weights are 0 off the errors, so any solution vanishes at all of these. -/

namespace Sys2Proof.Machine

open Polynomial

/-! The parts of the decoder by name. -/

/-- `τ`: how many errors can stand outside `f` erasures. -/
def maxErrors (p f : Nat) : Nat := (p - f) / 2

/-- The syndromes times the erasure locator. -/
def modifiedSyndromes (p : Nat) (synd eraX : List Byte) : List Byte := (List.range p).map (convAt (locatorPoly eraX) synd)

/-- A row of the error locator's system. -/
def locatorRow (p : Nat) (synd eraX : List Byte) (d : Nat) : List Byte :=
  (List.range (maxErrors p eraX.length + 1)).map fun k =>
    (modifiedSyndromes p synd eraX).getD (eraX.length + maxErrors p eraX.length + d - k) 0

def locatorRows (p : Nat) (synd eraX : List Byte) : List (List Byte) :=
  (List.range (p - eraX.length - maxErrors p eraX.length)).map (locatorRow p synd eraX)

theorem errorLocator_eq (p : Nat) (synd eraX : List Byte) :
    errorLocator p synd eraX = kernelVector (maxErrors p eraX.length + 1) (locatorRows p synd eraX) := rfl

/-- The positions outside the erasures at which `lam` vanishes. -/
def foundErrors (n : Nat) (era : List Nat) (lam : List Byte) : List Nat :=
  (List.range n).filter fun i => !era.contains i && evalLow lam (gfInv (locator n i)) == 0

theorem candidate_eq (r : List Byte) (p : Nat) (era : List Nat) :
    candidate r p era = (errorLocator p (syndromes r p) (era.map (locator r.length))).map fun lam =>
      fillPositions r (syndromes r p) (era ++ foundErrors r.length era lam) := rfl

theorem length_of_mem_locatorRows {p : Nat} {synd eraX : List Byte} :
    ∀ row ∈ locatorRows p synd eraX, row.length = maxErrors p eraX.length + 1 := by
  intro row hrow
  obtain ⟨d, -, rfl⟩ := List.mem_map.1 hrow
  simp [locatorRow]

@[simp] theorem length_locatorPoly (xs : List Byte) : (locatorPoly xs).length = xs.length + 1 := by
  induction xs with
  | nil => rfl
  | cons x xs ih => exact (length_polyMulLinear x _).trans (congrArg (· + 1) ih)

/-- The constant coefficient of a locator polynomial is 1. -/
theorem locatorPoly_eq_cons (xs : List Byte) : locatorPoly xs = 0x01 :: (locatorPoly xs).tail := by
  induction xs with
  | nil => rfl
  | cons x xs ih =>
    rw [locatorPoly, ih]
    rfl

theorem getD_map_range {α : Type} (f : Nat → α) {n k : Nat} (hk : k < n) (d : α) : ((List.range n).map f).getD k d = f k := by
  simp [hk]

theorem getD_syndromes (r : List Byte) {p j : Nat} (hj : j < p) : (syndromes r p).getD j 0 = polyEval r (gfAlphaPow j) := by
  rw [syndromes, getD_map_range _ hj, syndrome, show Config.rsFcr + j = j from Nat.zero_add j]

variable {K : Type} [Field K]

/-- Convolving power sums with the coefficients of `P` weights each point `x` with `P(x^-1)`. -/
theorem sum_coeff_mul_power_sum {S : Finset Nat} (u : Nat → K) {x : Nat → K} (hx : ∀ i ∈ S, x i ≠ 0) {P : K[X]} {m j : Nat}
    (hP : P.natDegree < m) (hm : m ≤ j + 1) :
    ∑ k ∈ Finset.range m, P.coeff k * ∑ i ∈ S, u i * x i ^ (j - k) = ∑ i ∈ S, u i * P.eval (x i)⁻¹ * x i ^ j := by
  have hpow : ∀ k ∈ Finset.range m, ∀ i ∈ S, u i * x i ^ (j - k) = u i * x i ^ j * (x i)⁻¹ ^ k := fun k hk i hi => by
    have hk := Finset.mem_range.1 hk
    rw [pow_sub₀ _ (hx i hi) (by omega), inv_pow, mul_assoc]
  calc _ = ∑ k ∈ Finset.range m, P.coeff k * ∑ i ∈ S, u i * x i ^ j * (x i)⁻¹ ^ k :=
        Finset.sum_congr rfl fun k hk => by rw [Finset.sum_congr rfl (hpow k hk)]
    _ = ∑ i ∈ S, u i * x i ^ j * P.eval (x i)⁻¹ := (sum_mul_eval_eq _ (fun i => (x i)⁻¹) hP).symm
    _ = _ := Finset.sum_congr rfl fun i _ => mul_right_comm _ _ _

section
variable {φ : Byte → K} (hφ : FieldOfBytes φ)
include hφ

theorem map_gfDot (l m : List Byte) :
    φ (gfDot l m) = ∑ k ∈ Finset.range l.length, φ (l.getD k 0) * φ (m.getD k 0) := by
  induction l generalizing m with
  | nil => exact hφ.map_zero
  | cons a l ih => cases m with
    | nil =>
      exact hφ.map_zero.trans (Finset.sum_eq_zero fun k _ => by rw [List.getD_nil, hφ.map_zero, mul_zero]).symm
    | cons b m =>
      rw [map_gfDot_cons hφ, ih, List.length_cons, Finset.sum_range_succ', add_comm]
      simp only [List.getD_cons_succ, List.getD_cons_zero]

theorem map_convAt {q : List Byte} {j : Nat} (hq : q.length ≤ j + 1) (s : List Byte) :
    φ (convAt q s j) = ∑ k ∈ Finset.range q.length, (polyOf φ q).coeff k * φ (s.getD (j - k) 0) := by
  rw [convAt, map_gfDot hφ]
  refine Finset.sum_congr rfl fun k hk => ?_
  rw [getD_map_range _ ((Finset.mem_range.1 hk).trans_le hq), coeff_polyOf hφ]

theorem natDegree_polyOf_lt {l : List Byte} {n : Nat} (h : l.length = n + 1) : (polyOf φ l).natDegree < n + 1 :=
  Nat.lt_succ_of_le ((natDegree_polyOf_le hφ l).trans (by omega))

theorem polyOf_replicate_zero (n : Nat) : polyOf φ (List.replicate n 0) = 0 := by
  ext k
  rw [coeff_polyOf hφ, getD_replicate_zero, hφ.map_zero, coeff_zero]

theorem polyOf_one : polyOf φ [0x01] = 1 := by rw [polyOf, polyOf, hφ.map_one, mul_zero, add_zero, C_1]

/-- The inverses of the locators are the roots of a locator polynomial. -/
theorem eval_locatorPoly_eq_zero_iff (xs : List Byte) (y : K) :
    (polyOf φ (locatorPoly xs)).eval y = 0 ↔ ∃ x ∈ xs, φ x * y = 1 := by
  have := hφ.charTwo
  induction xs with
  | nil =>
    rw [locatorPoly, polyOf_one hφ]
    simp
  | cons x xs ih =>
    have hcons : locatorPoly (x :: xs) = polyMulLinear x (locatorPoly xs) := rfl
    have hfactor : (1 + C (φ x) * X : K[X]).eval y = 0 ↔ φ x * y = 1 := by
      simp only [eval_add, eval_one, eval_mul, eval_C, eval_X, CharTwo.add_eq_zero]
      exact eq_comm
    rw [hcons, polyOf_polyMulLinear hφ, eval_mul, mul_eq_zero, hfactor]
    simp [ih]

/-- The locators are the roots of a root polynomial. -/
theorem eval_rootPoly_eq_zero_iff (xs : List Byte) (y : K) : (polyOf φ (rootPoly xs)).eval y = 0 ↔ ∃ x ∈ xs, φ x = y := by
  have := hφ.charTwo
  induction xs with
  | nil =>
    rw [rootPoly, locatorPoly, List.reverse_singleton, polyOf_one hφ]
    simp
  | cons x xs ih =>
    have hcons : rootPoly (x :: xs) = (polyMulLinear x (rootPoly xs).reverse).reverse := by
      rw [rootPoly, rootPoly, List.reverse_reverse]
      rfl
    have hfactor : (X + C (φ x)).eval y = 0 ↔ φ x = y := by
      rw [eval_add, eval_X, eval_C, CharTwo.add_eq_zero]
      exact eq_comm
    rw [hcons, polyOf_polyMulLinear_reverse hφ, List.reverse_reverse, eval_mul, mul_eq_zero, hfactor]
    simp [ih]

/-- A row of the system, applied to `lam`. -/
theorem map_gfDot_locatorRow {p : Nat} {synd eraX lam : List Byte} {S : Finset Nat} {u x : Nat → K} (hx : ∀ i ∈ S, x i ≠ 0)
    (hsynd : ∀ j, j < p → φ (synd.getD j 0) = ∑ i ∈ S, u i * x i ^ j) (hlam : lam.length = maxErrors p eraX.length + 1) {d : Nat}
    (hd : d < p - eraX.length - maxErrors p eraX.length) :
    φ (gfDot (locatorRow p synd eraX d) lam) =
      ∑ i ∈ S, u i * (polyOf φ (locatorPoly eraX)).eval (x i)⁻¹ * (polyOf φ lam).eval (x i)⁻¹ *
        x i ^ (eraX.length + maxErrors p eraX.length + d) := by
  have hmod : ∀ j, eraX.length ≤ j → j < p → φ ((modifiedSyndromes p synd eraX).getD j 0) =
      ∑ i ∈ S, u i * (polyOf φ (locatorPoly eraX)).eval (x i)⁻¹ * x i ^ j := fun j hf hj => by
    have hlen := length_locatorPoly eraX
    rw [modifiedSyndromes, getD_map_range _ hj, map_convAt hφ (by omega), hlen,
      ← sum_coeff_mul_power_sum u hx (natDegree_polyOf_lt hφ hlen) (by omega)]
    exact Finset.sum_congr rfl fun k _ => by rw [hsynd _ (by omega)]
  rw [← sum_coeff_mul_power_sum _ hx (natDegree_polyOf_lt hφ hlam) (by omega), map_gfDot hφ, locatorRow, List.length_map,
    List.length_range]
  refine Finset.sum_congr rfl fun k hk => ?_
  have hk' := Finset.mem_range.1 hk
  rw [getD_map_range _ hk', hmod _ (by omega) (by omega), coeff_polyOf hφ, mul_comm]

end

/-! The member within the radius. -/

/-- `c` is a member of the code within the radius of `r` (R169, R170). -/
structure MemberInRadius (r : List Byte) (p : Nat) (era : List Nat) (c : List Byte) : Prop where
  length_le : r.length ≤ 255
  legal     : ErasuresLegal r.length p era
  member    : RsMember r.length p c
  radius    : 2 * differCount r.length c r era + era.length ≤ p

theorem MemberInRadius.erasures_lt {r c : List Byte} {p : Nat} {era : List Nat} (h : MemberInRadius r p era c) :
    ∀ e ∈ era, e < r.length := by
  obtain ⟨-, hlt, -⟩ := h.legal
  exact hlt

section
variable {φ : Byte → K} (hφ : FieldOfBytes φ) {r c : List Byte} {p : Nat} {era : List Nat} (h : MemberInRadius r p era c)
include hφ h

theorem map_locator_ne_zero : ∀ i ∈ Finset.range r.length, φ (locator r.length i) ≠ 0 := fun _ hi hzero =>
  locator_ne_zero h.length_le (Finset.mem_range.1 hi) (hφ.map_eq_zero.1 hzero)

theorem map_syndromes : ∀ j, j < p → φ ((syndromes r p).getD j 0) =
    ∑ i ∈ Finset.range r.length, φ (change r c i) * φ (locator r.length i) ^ j := fun j hj => by
  rw [getD_syndromes r hj, map_polyEval_eq_sum_change hφ rfl h.member hj]

/-- A locator polynomial of positions vanishes at the inverse locators of these positions only. -/
theorem eval_locatorPoly_positions {pos : List Nat} (hpos : ∀ k ∈ pos, k < r.length) {i : Nat} (hi : i < r.length) :
    (polyOf φ (locatorPoly (pos.map (locator r.length)))).eval (φ (locator r.length i))⁻¹ = 0 ↔ i ∈ pos := by
  have hinj := map_locator_injOn hφ h.length_le
  have hne := map_locator_ne_zero hφ h i (Finset.mem_range.2 hi)
  rw [eval_locatorPoly_eq_zero_iff hφ]
  constructor
  · rintro ⟨x, hx, hone⟩
    obtain ⟨k, hk, rfl⟩ := List.mem_map.1 hx
    have heq := (mul_inv_eq_one₀ hne).1 hone
    rwa [← hinj (Finset.mem_coe.2 (Finset.mem_range.2 (hpos k hk))) (Finset.mem_coe.2 (Finset.mem_range.2 hi)) heq]
  · exact fun hpos => ⟨_, List.mem_map_of_mem hpos, mul_inv_cancel₀ hne⟩

/-- What position `i` weighs in the system of the error locator: its change times `Γ(X_i^-1)`. -/
noncomputable def weight (φ : Byte → K) (r c : List Byte) (era : List Nat) (i : Nat) : K :=
  φ (change r c i) * (polyOf φ (locatorPoly (era.map (locator r.length)))).eval (φ (locator r.length i))⁻¹

/-- The weights are 0 off the errors: for an erasure because of `Γ`, elsewhere because nothing changed there. -/
theorem weight_eq_zero_iff {i : Nat} (hi : i < r.length) :
    weight φ r c era i = 0 ↔ i ∉ errorPositions r.length c r era := by
  rw [weight, mul_eq_zero, eval_locatorPoly_positions hφ h h.erasures_lt hi, hφ.map_eq_zero, change_eq_zero, mem_errorPositions,
    eq_comm]
  tauto

/-- A row of the system, applied to `lam`, in the weights of the positions. -/
theorem map_gfDot_row_eq_sum_weight {lam : List Byte} (hlam : lam.length = maxErrors p era.length + 1) {d : Nat}
    (hd : d < p - era.length - maxErrors p era.length) :
    φ (gfDot (locatorRow p (syndromes r p) (era.map (locator r.length)) d) lam) =
      ∑ i ∈ Finset.range r.length, weight φ r c era i * (polyOf φ lam).eval (φ (locator r.length i))⁻¹ *
        φ (locator r.length i) ^ (era.length + maxErrors p era.length + d) := by
  have hf : (era.map (locator r.length)).length = era.length := List.length_map _
  rw [map_gfDot_locatorRow hφ (map_locator_ne_zero hφ h) (map_syndromes hφ h) (by rw [hlam, hf]) (hf.symm ▸ hd), hf]
  rfl

end

section
variable {r c : List Byte} {p : Nat} {era : List Nat} (h : MemberInRadius r p era c)
include h

theorem MemberInRadius.card_errorPositions_le : (errorPositions r.length c r era).card ≤ maxErrors p era.length := by
  have := h.radius
  rw [card_errorPositions, maxErrors]
  omega

/-- The locator polynomial of the errors, padded with zeros, solves the system. -/
theorem MemberInRadius.exists_isKernelVector : ∃ lam,
    IsKernelVector (maxErrors p era.length + 1) (locatorRows p (syndromes r p) (era.map (locator r.length))) lam := by
  obtain ⟨K, _, φ, hφ⟩ := exists_fieldOfBytes
  let errs := (errorPositions r.length c r era).toList
  let xs := errs.map (locator r.length)
  let lam := locatorPoly xs ++ List.replicate (maxErrors p era.length - xs.length) 0
  have hcard : xs.length ≤ maxErrors p era.length := by simpa [xs, errs] using h.card_errorPositions_le
  have hlen : lam.length = maxErrors p era.length + 1 := by
    simp only [lam, List.length_append, length_locatorPoly, List.length_replicate]
    omega
  have hmem : (0x01 : Byte) ∈ lam := List.mem_append_left _ (by rw [locatorPoly_eq_cons]; exact List.mem_cons_self)
  have hpad : polyOf φ lam = polyOf φ (locatorPoly xs) := by
    rw [polyOf_append, polyOf_replicate_zero hφ, mul_zero, add_zero]
  refine ⟨lam, hlen, ⟨_, hmem, by decide⟩, fun row hrow => ?_⟩
  obtain ⟨d, hd, rfl⟩ := List.mem_map.1 hrow
  rw [List.length_map] at hd
  rw [← hφ.map_eq_zero, map_gfDot_row_eq_sum_weight hφ h hlen (List.mem_range.1 hd), hpad]
  refine Finset.sum_eq_zero fun i hi => ?_
  have hlt := Finset.mem_range.1 hi
  by_cases herr : i ∈ errorPositions r.length c r era
  · have herrs : ∀ k ∈ errs, k < r.length := fun k hk => (mem_errorPositions.1 (Finset.mem_toList.1 hk)).1
    rw [(eval_locatorPoly_positions hφ h herrs hlt).2 (Finset.mem_toList.2 herr), mul_zero, zero_mul]
  · rw [(weight_eq_zero_iff hφ h hlt).2 herr, zero_mul, zero_mul]

/-- A solution of the system vanishes at the inverse locator of every error: the rows are power sums of no more points than rows. -/
theorem MemberInRadius.evalLow_eq_zero {lam : List Byte}
    (hlam : IsKernelVector (maxErrors p era.length + 1) (locatorRows p (syndromes r p) (era.map (locator r.length))) lam)
    {i : Nat} (hi : i ∈ errorPositions r.length c r era) : evalLow lam (gfInv (locator r.length i)) = 0 := by
  obtain ⟨K, _, φ, hφ⟩ := exists_fieldOfBytes
  obtain ⟨hlen, -, hsolves⟩ := hlam
  have hlt := (mem_errorPositions.1 hi).1
  let s := era.length + maxErrors p era.length
  have hcard : (errorPositions r.length c r era).card ≤ p - era.length - maxErrors p era.length := by
    have := h.card_errorPositions_le
    have := h.radius
    simp only [maxErrors] at *
    omega
  have hsums : ∀ d, d < p - era.length - maxErrors p era.length →
      ∑ i ∈ Finset.range r.length, weight φ r c era i * (polyOf φ lam).eval (φ (locator r.length i))⁻¹ *
        φ (locator r.length i) ^ s * φ (locator r.length i) ^ d = 0 := by
    intro d hd
    have hrow : d ∈ List.range (p - (era.map (locator r.length)).length - maxErrors p (era.map (locator r.length)).length) := by
      rwa [List.length_map, List.mem_range]
    rw [← hφ.map_zero, ← hsolves _ (List.mem_map_of_mem hrow), map_gfDot_row_eq_sum_weight hφ h hlen hd]
    exact Finset.sum_congr rfl fun i _ => (mul_assoc _ _ _).trans (congrArg _ (pow_add _ _ _).symm)
  have hoff : ∀ i ∈ Finset.range r.length, i ∉ errorPositions r.length c r era →
      weight φ r c era i * (polyOf φ lam).eval (φ (locator r.length i))⁻¹ * φ (locator r.length i) ^ s = 0 := fun i hi herr => by
    rw [(weight_eq_zero_iff hφ h (Finset.mem_range.1 hi)).2 herr, zero_mul, zero_mul]
  have hzero := eq_zero_of_power_sums (map_locator_injOn hφ h.length_le) (errorPositions_subset ..) hcard hoff hsums
    (Finset.mem_range.2 hlt)
  have hweight : weight φ r c era i ≠ 0 := fun hw => (weight_eq_zero_iff hφ h hlt).1 hw hi
  have hpow := pow_ne_zero s (map_locator_ne_zero hφ h i (Finset.mem_range.2 hlt))
  rw [← hφ.map_eq_zero, map_evalLow hφ, hφ.map_gfInv (locator_ne_zero h.length_le hlt)]
  exact (mul_eq_zero.1 ((mul_eq_zero.1 hzero).resolve_right hpow)).resolve_left hweight

end

theorem mem_foundErrors {n : Nat} {era : List Nat} {lam : List Byte} {i : Nat} :
    i ∈ foundErrors n era lam ↔ i < n ∧ i ∉ era ∧ evalLow lam (gfInv (locator n i)) = 0 := by
  simp [foundErrors]

theorem nodup_foundErrors (n : Nat) (era : List Nat) (lam : List Byte) : (foundErrors n era lam).Nodup :=
  List.nodup_range.filter _

/-- A non-zero polynomial of degree at most `m` finds at most `m` errors. -/
theorem length_foundErrors_le {n m : Nat} (hn : n ≤ 255) (era : List Nat) {lam : List Byte} (hlen : lam.length = m + 1)
    (hne : ∃ b ∈ lam, b ≠ 0) : (foundErrors n era lam).length ≤ m := by
  classical
  obtain ⟨K, _, φ, hφ⟩ := exists_fieldOfBytes
  let roots := (foundErrors n era lam).toFinset.image fun i => (φ (locator n i))⁻¹
  have hΛ : polyOf φ lam ≠ 0 := by
    obtain ⟨b, hb, hne⟩ := hne
    obtain ⟨k, hk, rfl⟩ := List.mem_iff_getElem.1 hb
    intro hzero
    have hcoeff := coeff_polyOf hφ lam k
    rw [hzero, coeff_zero, List.getD_eq_getElem _ _ hk] at hcoeff
    exact hne (hφ.map_eq_zero.1 hcoeff.symm)
  have hinj : Set.InjOn (fun i => (φ (locator n i))⁻¹) (foundErrors n era lam).toFinset := by
    intro i hi j hj hij
    have hi := (mem_foundErrors.1 (List.mem_toFinset.1 hi)).1
    have hj := (mem_foundErrors.1 (List.mem_toFinset.1 hj)).1
    exact map_locator_injOn hφ hn (by simpa using hi) (by simpa using hj) (inv_injective hij)
  have hroots : roots.val ⊆ (polyOf φ lam).roots := by
    intro y hy
    obtain ⟨i, hi, rfl⟩ := Finset.mem_image.1 (Finset.mem_def.2 hy)
    obtain ⟨hlt, -, heval⟩ := mem_foundErrors.1 (List.mem_toFinset.1 hi)
    rw [mem_roots hΛ, IsRoot.def, ← hφ.map_gfInv (locator_ne_zero hn hlt), ← map_evalLow hφ, heval, hφ.map_zero]
  calc (foundErrors n era lam).length = roots.card := by
        rw [Finset.card_image_of_injOn hinj, List.toFinset_card_of_nodup (nodup_foundErrors ..)]
    _ ≤ (polyOf φ lam).natDegree := card_le_degree_of_subset_roots hroots
    _ ≤ m := (natDegree_polyOf_le hφ lam).trans (by omega)

/-! Filling in the values. -/

@[simp] theorem length_rootPoly (xs : List Byte) : (rootPoly xs).length = xs.length + 1 := by simp [rootPoly]

section
variable {r c : List Byte} {p : Nat} {era : List Nat} (h : MemberInRadius r p era c)
include h

/-- The magnitude at a position is its change, if all changes stand at `pos`, at most `p` positions: `W` isolates it. -/
theorem MemberInRadius.magnitude_eq {pos : List Nat} (hnodup : pos.Nodup) (hpos : ∀ k ∈ pos, k < r.length) (hlen : pos.length ≤ p)
    (hoff : ∀ k, k < r.length → k ∉ pos → change r c k = 0) {i : Nat} (hi : i ∈ pos) :
    magnitude r.length (syndromes r p) pos i = change r c i := by
  obtain ⟨K, _, φ, hφ⟩ := exists_fieldOfBytes
  let w := rootPoly ((pos.filter (· != i)).map (locator r.length))
  have hwlen : w.length = pos.length - 1 + 1 := by
    rw [length_rootPoly, List.length_map, ← hnodup.erase_eq_filter, List.length_erase_of_mem hi]
  have hposne : 0 < pos.length := List.length_pos_of_mem hi
  have hinj := map_locator_injOn hφ h.length_le
  have hother : ∀ k ∈ Finset.range r.length, k ≠ i → φ (change r c k) * (polyOf φ w).eval (φ (locator r.length k)) = 0 := by
    intro k hk hki
    by_cases hkpos : k ∈ pos
    · have hmem : k ∈ pos.filter (· != i) := List.mem_filter.2 ⟨hkpos, by simpa using hki⟩
      rw [(eval_rootPoly_eq_zero_iff hφ _ _).2 ⟨_, List.mem_map_of_mem hmem, rfl⟩, mul_zero]
    · rw [hoff k (Finset.mem_range.1 hk) hkpos, hφ.map_zero, zero_mul]
  have hW : (polyOf φ w).eval (φ (locator r.length i)) ≠ 0 := by
    intro hzero
    obtain ⟨x, hx, heq⟩ := (eval_rootPoly_eq_zero_iff hφ _ _).1 hzero
    obtain ⟨k, hk, rfl⟩ := List.mem_map.1 hx
    obtain ⟨hkpos, hki⟩ := List.mem_filter.1 hk
    have hki' : k = i := hinj (by simpa using hpos k hkpos) (by simpa using hpos i hi) heq
    simp [hki'] at hki
  have hdot : φ (gfDot w (syndromes r p)) = φ (change r c i) * (polyOf φ w).eval (φ (locator r.length i)) := by
    rw [← Finset.sum_eq_single_of_mem i (Finset.mem_range.2 (hpos i hi)) hother,
      sum_mul_eval_eq _ _ (natDegree_polyOf_lt hφ hwlen), map_gfDot hφ, hwlen]
    refine Finset.sum_congr rfl fun j hj => ?_
    have hj := Finset.mem_range.1 hj
    rw [map_syndromes hφ h j (by omega), coeff_polyOf hφ]
  have hscale : gfMul (gfAlphaPow (Config.rsFcr * (r.length - 1 - i))) (evalLow w (locator r.length i)) =
      evalLow w (locator r.length i) := by
    rw [show Config.rsFcr * (r.length - 1 - i) = 0 from Nat.zero_mul _]
    exact gfMul_one_left _
  have hWbyte : evalLow w (locator r.length i) ≠ 0 := fun hzero => hW (by rw [← map_evalLow hφ, hzero, hφ.map_zero])
  apply hφ.injective
  change φ (gfMul (gfDot w (syndromes r p)) (gfInv (gfMul _ (evalLow w _)))) = _
  rw [hscale, hφ.map_mul, hφ.map_gfInv hWbyte, map_evalLow hφ, hdot, mul_inv_cancel_right₀ hW]

/-- With the changes filled in, the received word is the member. -/
theorem MemberInRadius.fillPositions_eq {pos : List Nat} (hnodup : pos.Nodup) (hpos : ∀ k ∈ pos, k < r.length)
    (hlen : pos.length ≤ p) (hoff : ∀ k, k < r.length → k ∉ pos → change r c k = 0) :
    fillPositions r (syndromes r p) pos = c := by
  have hclen := h.member.1
  refine List.ext_getElem (by rw [length_fillPositions, hclen]) fun i hi hi' => ?_
  have hlt : i < r.length := by rwa [length_fillPositions] at hi
  have hchange : change r c i = r[i] ^^^ (c)[i] := by
    rw [change, List.getD_eq_getElem _ _ hlt, List.getD_eq_getElem _ _ hi']
  have hget : (fillPositions r (syndromes r p) pos)[i] =
      if pos.contains i then r[i] ^^^ magnitude r.length (syndromes r p) pos i else r[i] := by
    simp [fillPositions]
  rw [hget]
  by_cases hmem : i ∈ pos
  · rw [if_pos (List.contains_iff_mem.2 hmem), h.magnitude_eq hnodup hpos hlen hoff hmem, hchange, ← BitVec.xor_assoc,
      BitVec.xor_self, BitVec.zero_xor]
  · rw [if_neg (by simpa using hmem)]
    exact BitVec.xor_eq_zero_iff.1 (hchange ▸ hoff i hlt hmem)

/-- The decoder proposes the member within the radius. -/
theorem MemberInRadius.candidate_eq_some : candidate r p era = some c := by
  have hf : (era.map (locator r.length)).length = era.length := List.length_map _
  have hrows : ∀ row ∈ locatorRows p (syndromes r p) (era.map (locator r.length)), row.length = maxErrors p era.length + 1 :=
    fun row hrow => hf ▸ length_of_mem_locatorRows row hrow
  obtain ⟨z, hz⟩ := h.exists_isKernelVector
  obtain ⟨lam, hlam⟩ := exists_kernelVector hrows hz
  have hkernel := isKernelVector_of_kernelVector hrows hlam
  obtain ⟨hf_le, hera, hnodup⟩ := h.legal
  have hfound := length_foundErrors_le h.length_le era hkernel.length hkernel.nonzero
  rw [candidate_eq, errorLocator_eq, hf, hlam, Option.map_some, Option.some.injEq]
  refine h.fillPositions_eq (hnodup.append (nodup_foundErrors ..) ?_) ?_ ?_ ?_
  · exact fun i hi hi' => (mem_foundErrors.1 hi').2.1 hi
  · intro k hk
    exact (List.mem_append.1 hk).elim (hera k) fun hk => (mem_foundErrors.1 hk).1
  · rw [List.length_append]
    simp only [maxErrors] at hfound
    omega
  · intro k hk hkpos
    rw [List.mem_append, not_or] at hkpos
    obtain ⟨hkera, hkfound⟩ := hkpos
    have hkerr : k ∉ errorPositions r.length c r era := fun hkerr =>
      hkfound (mem_foundErrors.2 ⟨hk, hkera, h.evalLow_eq_zero hkernel hkerr⟩)
    exact change_eq_zero.2 (getD_eq_of_notMem hk hkera hkerr).symm

end

/-- Settles O17: the member within the radius is what the decoder proposes, and it passes R170's tests. -/
theorem rsDecFindsMemberInRadius : Obligations.RsDecFindsMemberInRadius := by
  intro p era r c hn _ hlegal hmember hradius
  have hcand := MemberInRadius.candidate_eq_some ⟨hn, hlegal, hmember, hradius⟩
  have hcode : isCodeword p c = true := isCodeword_iff.2 (hmember.1.symm ▸ hmember)
  have hwithin : withinRadius p era r c = true := (withinRadius_iff hmember.1).2 hradius
  simp [rsDec, hcand, hcode, hwithin, rsOk_eq hmember.1]

end Sys2Proof.Machine
end

section
/-! RS_ENCODE and RS_DECODE (41_rs_codec.md R176, R177): the chain of preconditions in the words of the claims, then each outcome. -/

namespace Sys2Proof.Machine

/-- The parity operand is legal up to 254 (R113). -/
theorem auxParityBad_eq (s : State) : auxParityBad s = decide (254 < s.args.aux.toNat) := by
  by_cases h : s.args.aux.toNat ≤ 254
  · rw [auxParityBad_eq_false.2 h, decide_eq_false (by omega)]
  · have hbad : auxParityBad s ≠ false := fun hf => h (auxParityBad_eq_false.1 hf)
    rw [Bool.eq_true_of_not_eq_false hbad, decide_eq_true (by omega)]

/-! RS_ENCODE (R176). -/

/-- R176's tests in order. -/
theorem rsEncodePre_eq (s : State) : rsEncodePre s =
    if 254 < s.args.aux.toNat then some .operand
    else if 255 < s.args.len.toNat + s.args.aux.toNat then some .operand
    else if ¬(checkRange (argSrc s) s.args.len.toNat = true ∧
      checkRange (argDst s) (s.args.len.toNat + s.args.aux.toNat) = true) then some .bus
    else none := by
  rw [rsEncodePre, auxParityBad_eq, firstError_cons]
  by_cases hp : 254 < s.args.aux.toNat
  · simp [hp]
  · have haux := auxParity_of_le (Nat.le_of_not_lt hp)
    simp [hp, haux, firstError_cons, argLen, imp_iff_not_or]

theorem exec_rsEncode (s : State) : exec .rsEncode s =
    .next (orRaise (rsEncodePre s) s fun s => complete (argLen s + auxParity s) 0 0
      { s with mem := Memory.write s.mem (argDst s) (rsEnc (Memory.read s.mem (argSrc s) (argLen s)) (auxParity s)) }) := rfl

theorem exec_rsEncode_passes {s : State} (hpre : rsEncodePre s = none) : exec .rsEncode s =
    .next (complete (argLen s + auxParity s) 0 0
      { s with mem := Memory.write s.mem (argDst s) (rsEnc (Memory.read s.mem (argSrc s) (argLen s)) (auxParity s)) }) := by
  rw [exec_rsEncode, hpre, orRaise_none]

theorem rsEncode_endsInError {s : State} {e : ErrCode} (h : rsEncodePre s = some e) : EndsInError (exec .rsEncode s) s e :=
  endsInError_of_raise (by rw [exec_rsEncode, h, orRaise_some])

/-- Settles O18: by the chain of tests. -/
theorem rsEncodeRule : Obligations.RsEncodeRule := by
  refine ⟨decode_encode .rsEncode, fun s => ⟨fun h => ?_, fun h1 h => ?_, fun h1 h2 h => ?_, fun h1 h2 hsrc hdst => ?_⟩⟩
  · exact rsEncode_endsInError (by rw [rsEncodePre_eq, if_pos h])
  · exact rsEncode_endsInError (by rw [rsEncodePre_eq, if_neg h1.not_gt, if_pos h])
  · exact rsEncode_endsInError (by
      rw [rsEncodePre_eq, if_neg h1.not_gt, if_neg h2.not_gt, if_pos (by simpa only [checkRange_iff] using h)])
  · have hpre : rsEncodePre s = none := rsEncodePre_eq_none.2 ⟨h1, h2, hsrc, hdst⟩
    have hexec := exec_rsEncode_passes hpre
    rw [auxParity_of_le h1] at hexec
    exact endsOk_of_complete hexec rfl ⟨⟨rfl, rfl⟩, ⟨rfl, rfl⟩, write_storesAt rfl⟩

/-! RS_DECODE (R177). -/

/-- R177's tests on operand registers, in order. -/
theorem rsDecodePre_eq (s : State) : rsDecodePre s =
    if 254 < s.args.aux.toNat then some .operand
    else if 255 < s.args.len.toNat ∨ s.args.len.toNat < s.args.aux.toNat then some .operand
    else if s.args.aux.toNat < s.args.eraCount.toNat then some .operand
    else if ¬(checkRange (argSrc s) s.args.len.toNat = true ∧ checkRange (argEraAddr s) s.args.eraCount.toNat = true ∧
      checkRange (argDst s) (s.args.len.toNat - s.args.aux.toNat) = true) then some .bus
    else none := by
  rw [rsDecodePre, auxParityBad_eq, firstError_cons]
  by_cases hp : 254 < s.args.aux.toNat
  · simp [hp]
  · have haux := auxParity_of_le (Nat.le_of_not_lt hp)
    unfold argLen argEraCount
    simp [hp, haux, firstError_cons, imp_iff_not_or, or_assoc]

/-- The list test is R168's; the count was tested before. -/
theorem erasuresLegal_iff {n p : Nat} {era : List Nat} (hf : era.length ≤ p) :
    erasuresLegal n era = true ↔ ErasuresLegal n p era := by
  simp [erasuresLegal, ErasuresLegal, hf]

theorem rsDecodeListPre_eq (s : State) : rsDecodeListPre s =
    if erasuresLegal (argLen s) (erasureList s) = true then none else some .operand := by
  rw [rsDecodeListPre]
  cases erasuresLegal (argLen s) (erasureList s) <;> rfl

theorem exec_rsDecode (s : State) : exec .rsDecode s =
    .next (orRaise (rsDecodePre s) s fun s => orRaise (rsDecodeListPre s) s fun s =>
      match rsDec (Memory.read s.mem (argSrc s) (argLen s)) (auxParity s) (erasureList s) with
      | none => raise .eccUncorrectable s
      | some ok => complete ok.corrected ok.errors (argLen s - auxParity s)
          { s with mem := Memory.write s.mem (argDst s) ok.data }) := rfl

theorem rsDecode_endsInError {s : State} {e : ErrCode} (h : rsDecodePre s = some e) : EndsInError (exec .rsDecode s) s e :=
  endsInError_of_raise (by rw [exec_rsDecode, h, orRaise_some])

theorem rsDecode_endsInError_list {s : State} {e : ErrCode} (hpre : rsDecodePre s = none) (h : rsDecodeListPre s = some e) :
    EndsInError (exec .rsDecode s) s e :=
  endsInError_of_raise (by rw [exec_rsDecode, hpre, orRaise_none, h, orRaise_some])

theorem rsDecode_endsInError_uncorrectable {s : State} (hpre : rsDecodePre s = none) (hlist : rsDecodeListPre s = none)
    (h : rsDec (Memory.read s.mem (argSrc s) (argLen s)) (auxParity s) (erasureList s) = none) :
    EndsInError (exec .rsDecode s) s .eccUncorrectable :=
  endsInError_of_raise (by rw [exec_rsDecode, hpre, orRaise_none, hlist, orRaise_none, h])

theorem exec_rsDecode_some {s : State} {ok : RsResult} (hpre : rsDecodePre s = none) (hlist : rsDecodeListPre s = none)
    (h : rsDec (Memory.read s.mem (argSrc s) (argLen s)) (auxParity s) (erasureList s) = some ok) :
    exec .rsDecode s = .next (complete ok.corrected ok.errors (argLen s - auxParity s)
      { s with mem := Memory.write s.mem (argDst s) ok.data }) := by
  rw [exec_rsDecode, hpre, orRaise_none, hlist, orRaise_none, h]

/-- Settles O19: by the two chains of tests, then by what the decoder answers. -/
theorem rsDecodeRule : Obligations.RsDecodeRule := by
  refine ⟨decode_encode .rsDecode, fun s => ?_⟩
  have hlen : (erasureList s).length = s.args.eraCount.toNat := by simp [erasureList, argEraCount]
  have hlegal : s.args.eraCount.toNat ≤ s.args.aux.toNat → (erasuresLegal (argLen s) (erasureList s) = true ↔
      ErasuresLegal s.args.len.toNat s.args.aux.toNat (erasureList s)) := fun hf => erasuresLegal_iff (hlen ▸ hf)
  have hpre : s.args.aux.toNat ≤ 254 → s.args.len.toNat ≤ 255 → s.args.aux.toNat ≤ s.args.len.toNat →
      s.args.eraCount.toNat ≤ s.args.aux.toNat →
      InMemory (argSrc s) s.args.len.toNat ∧ InMemory (argEraAddr s) s.args.eraCount.toNat ∧
        InMemory (argDst s) (s.args.len.toNat - s.args.aux.toNat) →
      rsDecodePre s = none := fun h1 h2 h3 h4 h5 => rsDecodePre_eq_none.2 ⟨h1, h2, h3, h4, h5⟩
  refine ⟨fun h => ?_, fun h1 h => ?_, fun h1 h2 h3 h => ?_, fun h1 h2 h3 h4 h => ?_, fun h1 h2 h3 h4 h5 h => ?_,
    fun h1 h2 h3 h4 h5 h6 h => ?_, fun h1 h2 h3 h4 h5 h6 ok h => ?_⟩
  · exact rsDecode_endsInError (by rw [rsDecodePre_eq, if_pos h])
  · exact rsDecode_endsInError (by rw [rsDecodePre_eq, if_neg h1.not_gt, if_pos h])
  · exact rsDecode_endsInError (by rw [rsDecodePre_eq, if_neg h1.not_gt, if_neg (by omega), if_pos h])
  · exact rsDecode_endsInError (by
      rw [rsDecodePre_eq, if_neg h1.not_gt, if_neg (by omega), if_neg h4.not_gt, if_pos (by simpa only [checkRange_iff] using h)])
  · exact rsDecode_endsInError_list (hpre h1 h2 h3 h4 h5) (by rw [rsDecodeListPre_eq, if_neg ((hlegal h4).not.2 h)])
  · exact rsDecode_endsInError_uncorrectable (hpre h1 h2 h3 h4 h5) (by rw [rsDecodeListPre_eq, if_pos ((hlegal h4).2 h6)])
      (by rw [auxParity_of_le h1]; exact h)
  · have hexec := exec_rsDecode_some (ok := ok) (hpre h1 h2 h3 h4 h5)
      (by rw [rsDecodeListPre_eq, if_pos ((hlegal h4).2 h6)]) (by rw [auxParity_of_le h1]; exact h)
    rw [auxParity_of_le h1] at hexec
    exact endsOk_of_complete hexec rfl ⟨⟨rfl, rfl⟩, ⟨rfl, rfl⟩, write_storesAt rfl⟩

end Sys2Proof.Machine
end

section
/-! The quantizer's arithmetic (42_quantizer.md R200 to R207): the MEAN index is the nearest level, the MAJORITY index the
smallest winner, and the margins of the guard band. -/

namespace Sys2Proof.Machine

theorem legalLevels_ge_two : ∀ l ∈ legalLevels, 2 ≤ l := by decide

/-- A validated configuration has a level index 0 (R142). -/
theorem levels_pos_of_validate {c : ConfigRecord} (h : validate c = none) : 0 < c.levels.toNat := by
  have hl : c.levels.toNat ∈ legalLevels := (validate_eq_none.1 h).1
  exact Nat.zero_lt_of_lt (legalLevels_ge_two _ hl)

/-! The MEAN index (R205). -/

theorem sampleSum_le (vs : List Byte) : sampleSum vs ≤ 255 * vs.length := by
  induction vs with
  | nil => simp [sampleSum]
  | cons v vs ih =>
    have hv := v.isLt
    simp only [sampleSum, List.map_cons, List.sum_cons, List.length_cons] at ih ⊢
    omega

/-- The exact mean is at most 255, the value of the highest level. -/
theorem meanIndex_lt {l : Nat} (hl : 0 < l) {vs : List Byte} (hvs : vs ≠ []) : meanIndex l vs < l := by
  have hn : 0 < vs.length := List.length_pos_iff.2 hvs
  obtain ⟨k, rfl⟩ : ∃ k, l = k + 1 := ⟨l - 1, by omega⟩
  have hsum : sampleSum vs * k ≤ 255 * vs.length * k := Nat.mul_le_mul_right k (sampleSum_le vs)
  refine (Nat.div_lt_iff_lt_mul (by omega)).2 ?_
  rw [Nat.add_sub_cancel]
  linarith

/-- Settles O24: the bounds of a rounded-down quotient, with 255 added for each value before the division. -/
theorem meanIndexIsNearestLevel : Obligations.MeanIndexIsNearestLevel := by
  intro l hl vs hvs
  have hn : 0 < vs.length := List.length_pos_iff.2 hvs
  exact ⟨meanIndex_lt (by have := legalLevels_ge_two l hl; omega) hvs, Nat.mul_div_le _ _, Nat.lt_mul_div_succ _ (by omega)⟩

/-! The MAJORITY index (R206). -/

/-- `b` is the smallest argument below `m` at which `f` is largest. -/
structure IsFirstMax (f : Nat → Nat) (m b : Nat) : Prop where
  lt    : b < m
  max   : ∀ k, k < m → f k ≤ f b
  first : ∀ k, k < b → f k < f b

/-- Keeping the best argument until a strictly better one comes finds the smallest best one. -/
theorem isFirstMax_foldl (f : Nat → Nat) (m : Nat) :
    IsFirstMax f (m + 1) ((List.range (m + 1)).foldl (fun best k => if f best < f k then k else best) 0) := by
  induction m with
  | zero => exact ⟨by simp, by simp, by simp⟩
  | succ m ih =>
    rw [List.range_succ, List.foldl_append]
    generalize (List.range (m + 1)).foldl _ 0 = b at ih ⊢
    obtain ⟨hlt, hmax, hfirst⟩ := ih
    simp only [List.foldl_cons, List.foldl_nil]
    split_ifs with hbetter
    · refine ⟨by omega, fun k hk => ?_, fun k hk => (hmax k hk).trans_lt hbetter⟩
      rcases Nat.lt_succ_iff_lt_or_eq.1 hk with hlow | rfl
      · exact (hmax k hlow).trans hbetter.le
      · exact le_rfl
    · refine ⟨by omega, fun k hk => ?_, hfirst⟩
      rcases Nat.lt_succ_iff_lt_or_eq.1 hk with hlow | rfl
      · exact hmax k hlow
      · exact Nat.le_of_not_lt hbetter

theorem majorityIndex_isFirstMax {l : Nat} (hl : 0 < l) (vs : List Byte) :
    IsFirstMax (voteCount l vs) l (majorityIndex l vs) := by
  obtain ⟨m, rfl⟩ : ∃ m, l = m + 1 := ⟨l - 1, by omega⟩
  exact isFirstMax_foldl _ m

/-- The votes as the claims count them. -/
theorem voteCount_eq (l : Nat) (vs : List Byte) :
    voteCount l vs = fun k => (vs.filter fun v => (2 * v.toNat * (l - 1) + 255) / 510 == k).length :=
  funext fun _ => List.countP_eq_length_filter

/-- The model's block index is the one that the claims describe (R207). -/
theorem isBlockIndex_blockIndex {l : Nat} (hl : 0 < l) (vote : VoteMode) (vs : List Byte) :
    IsBlockIndex l vote vs (blockIndex l vote vs) := by
  cases vote with
  | mean => rfl
  | majority =>
    obtain ⟨hlt, hmax, hfirst⟩ := majorityIndex_isFirstMax hl vs
    rw [voteCount_eq] at hmax hfirst
    exact ⟨hlt, hmax, hfirst⟩

/-! The guard band (R204). -/

/-- The dequantizer never falls as the channel value rises (R203). -/
theorem dequantLevel_mono (l : Nat) : Monotone (dequantLevel l) := fun _ _ h =>
  Nat.div_le_div_right (Nat.add_le_add_right (Nat.mul_le_mul_right _ (Nat.mul_le_mul_left 2 h)) 255)

/-- Both ends of the guard band of every level value decode to the level's index. -/
theorem dequantLevel_guardEnds : ∀ lm ∈ guardMargins, ∀ i, i < lm.1 →
    dequantLevel lm.1 (quantLevel lm.1 i - lm.2) = i ∧ dequantLevel lm.1 (quantLevel lm.1 i + lm.2) = i := by
  decide +kernel

/-- For each row of the table, a level `i` and a value one step beyond its margin that does not decode to `i`. -/
theorem exists_escape_of_guardBand : ∀ lm ∈ guardMargins, ∃ i v, i < lm.1 ∧ v ≤ 255 ∧
    (v = quantLevel lm.1 i + lm.2 + 1 ∨ quantLevel lm.1 i = v + lm.2 + 1) ∧ dequantLevel lm.1 v ≠ i := by
  simp only [guardMargins, List.forall_mem_cons]
  refine ⟨⟨0, 128, ?_⟩, ⟨0, 43, ?_⟩, ⟨1, 18, ?_⟩, ⟨0, 9, ?_⟩, ⟨1, 4, ?_⟩, ⟨1, 2, ?_⟩, ⟨1, 1, ?_⟩, ⟨0, 1, ?_⟩, by simp⟩
  all_goals decide

/-- Settles O23: the index of a value between two values of the same index is that index. -/
theorem guardBandMargins : Obligations.GuardBandMargins := by
  refine fun l m hlm => ⟨fun i hi v _ hhigh hlow => ?_, exists_escape_of_guardBand (l, m) hlm⟩
  obtain ⟨hdown, hup⟩ := dequantLevel_guardEnds (l, m) hlm i hi
  apply le_antisymm
  · exact (dequantLevel_mono l hhigh).trans_eq hup
  · exact hdown.symm.trans_le (dequantLevel_mono l (Nat.sub_le_iff_le_add.2 hlow))

end Sys2Proof.Machine
end

section
/-! QUANT, DEQUANT and DEQUANT_BLOCK (42_quantizer.md R210 to R212): the chain of preconditions, then each outcome. -/

namespace Sys2Proof.Machine

/-! How a command that tests and then completes ends. -/

/-- A precondition that names an error ends the command in it (R323, R326). -/
theorem endsInError_of_pre {i : Instr} {s : State} {pre : Option ErrCode} {go : State → State} {e : ErrCode}
    (hexec : exec i s = .next (orRaise pre s go)) (hpre : pre = some e) : EndsInError (exec i s) s e :=
  endsInError_of_raise (by rw [hexec, hpre, orRaise_some])

/-- When no precondition fails and the command only completes, results and status are all that changes (R325). -/
theorem endsOk_of_pre {i : Instr} {s : State} {pre : Option ErrCode} {go : State → State} {r0 r1 r2 : Nat}
    (hexec : exec i s = .next (orRaise pre s go)) (hpre : pre = none) (hgo : go s = complete r0 r1 r2 s) :
    EndsOk (exec i s) s r0 r1 r2 fun t => KeepsConfig s t ∧ KeepsStream s t ∧ StoresNothing s t :=
  endsOk_of_complete (by rw [hexec, hpre, orRaise_none, hgo]) rfl ⟨⟨rfl, rfl⟩, ⟨rfl, rfl⟩, fun _ => rfl⟩

theorem firstError_cfgValid_none {s : State} (h : s.act = none) (l : List (Bool × ErrCode)) :
    firstError ((!cfgValid s, .notConfigured) :: l) = some .notConfigured := by
  simp [cfgValid, h]

theorem firstError_cfgValid_some {s : State} {c : ConfigRecord} (h : s.act = some c) (l : List (Bool × ErrCode)) :
    firstError ((!cfgValid s, .notConfigured) :: l) = firstError l := by
  simp [cfgValid, h]

/-- A test that decides a proposition (R10). -/
theorem firstError_decide (p : Prop) [Decidable p] (e : ErrCode) (l : List (Bool × ErrCode)) :
    firstError ((decide p, e) :: l) = if p then some e else firstError l := by
  simp only [firstError_cons, decide_eq_true_eq]

/-- `L` of the active configuration (R6). -/
theorem activeGeometry_l {s : State} {c : ConfigRecord} (h : s.act = some c) : (activeGeometry s).l = c.levels.toNat := by
  rw [activeGeometry_of_act h]; rfl

/-! QUANT (R210). -/

theorem exec_quant (s : State) : exec .quant s =
    .next (orRaise (quantPre s) s fun s => complete (quantLevel (activeGeometry s).l (argAux s)) 0 0 s) := rfl

/-- R210's tests after the first. -/
theorem quantPre_of_act {s : State} {c : ConfigRecord} (h : s.act = some c) :
    quantPre s = if c.levels.toNat ≤ s.args.aux.toNat then some .operand else none := by
  rw [quantPre, firstError_cfgValid_some h, activeGeometry_l h, firstError_decide]
  rfl

/-- Settles O20: by the chain of tests. -/
theorem quantRule : Obligations.QuantRule := by
  refine ⟨decode_encode .quant, fun s => ⟨fun h => ?_, fun c hc => ⟨fun h => ?_, fun h => ?_⟩⟩⟩
  · exact endsInError_of_pre (exec_quant s) (firstError_cfgValid_none h _)
  · exact endsInError_of_pre (exec_quant s) (by rw [quantPre_of_act hc, if_pos h])
  · exact endsOk_of_pre (exec_quant s) (by rw [quantPre_of_act hc, if_neg h.not_ge]) (by rw [activeGeometry_l hc]; rfl)

/-! DEQUANT (R211). -/

theorem exec_dequant (s : State) : exec .dequant s =
    .next (orRaise (dequantPre s) s fun s => complete (dequantLevel (activeGeometry s).l (argAux s)) 0 0 s) := rfl

/-- R211's tests after the first. -/
theorem dequantPre_of_act {s : State} {c : ConfigRecord} (h : s.act = some c) :
    dequantPre s = if 255 < s.args.aux.toNat then some .operand else none := by
  rw [dequantPre, firstError_cfgValid_some h, firstError_decide]
  rfl

/-- Settles O21: by the chain of tests. -/
theorem dequantRule : Obligations.DequantRule := by
  refine ⟨decode_encode .dequant, fun s => ⟨fun h => ?_, fun c hc => ⟨fun h => ?_, fun h => ?_⟩⟩⟩
  · exact endsInError_of_pre (exec_dequant s) (firstError_cfgValid_none h _)
  · exact endsInError_of_pre (exec_dequant s) (by rw [dequantPre_of_act hc, if_pos h])
  · exact endsOk_of_pre (exec_dequant s) (by rw [dequantPre_of_act hc, if_neg h.not_gt]) (by rw [activeGeometry_l hc]; rfl)

/-! DEQUANT_BLOCK (R212). -/

theorem exec_dequantBlock (s : State) : exec .dequantBlock s =
    .next (orRaise (dequantBlockPre s) s fun s =>
      complete (blockIndex (activeGeometry s).l s.vote (Memory.read s.mem (argSrc s) (argLen s)))
        (blockAux (activeGeometry s).l s.vote (Memory.read s.mem (argSrc s) (argLen s))) (argLen s) s) := rfl

/-- R212's tests after the first, in order. -/
theorem dequantBlockPre_of_act {s : State} {c : ConfigRecord} (h : s.act = some c) : dequantBlockPre s =
    if s.args.len.toNat = 0 ∨ 65535 < s.args.len.toNat then some .operand
    else if ¬checkRange (argSrc s) s.args.len.toNat = true then some .bus else none := by
  rw [dequantBlockPre, firstError_cfgValid_some h]
  unfold argLen
  simp only [firstError_cons, firstError_nil, Bool.or_eq_true, beq_iff_eq, decide_eq_true_eq, Bool.not_eq_true',
    Bool.not_eq_true]

/-- With every test passed, the command answers the block's index, its sum or votes, and `n`. -/
theorem dequantBlock_endsOk {s : State} {c : ConfigRecord} (hc : s.act = some c)
    (hn : s.args.len.toNat ≠ 0) (hmax : s.args.len.toNat ≤ 65535) (hmem : InMemory (argSrc s) s.args.len.toNat) :
    EndsOk (exec .dequantBlock s) s (blockIndex c.levels.toNat s.vote (Memory.read s.mem (argSrc s) s.args.len.toNat))
      (blockAux c.levels.toNat s.vote (Memory.read s.mem (argSrc s) s.args.len.toNat)) s.args.len.toNat
      fun t => KeepsConfig s t ∧ KeepsStream s t ∧ StoresNothing s t := by
  have hpre : dequantBlockPre s = none := by
    rw [dequantBlockPre_of_act hc, if_neg (not_or.2 ⟨hn, hmax.not_gt⟩), if_neg (not_not.2 ((checkRange_iff _ _).2 hmem))]
  exact endsOk_of_pre (exec_dequantBlock s) hpre (by rw [activeGeometry_l hc]; rfl)

/-- Settles O22: by the chain of tests; under MAJORITY the index is the smallest winner. -/
theorem dequantBlockRule : Obligations.DequantBlockRule := by
  refine ⟨decode_encode .dequantBlock, fun s => ⟨fun h => ?_, fun c hc => ⟨fun h => ?_, fun hn hmax h => ?_,
    fun hn hmax hmem hvote => ?_, fun hn hmax hmem hvote hvalid => ?_⟩⟩⟩
  · exact endsInError_of_pre (exec_dequantBlock s) (firstError_cfgValid_none h _)
  · exact endsInError_of_pre (exec_dequantBlock s) (by rw [dequantBlockPre_of_act hc, if_pos h])
  · exact endsInError_of_pre (exec_dequantBlock s) (by
      rw [dequantBlockPre_of_act hc, if_neg (not_or.2 ⟨hn, hmax.not_gt⟩), if_pos (by rwa [checkRange_iff])])
  · have hok := dequantBlock_endsOk hc hn hmax hmem
    rwa [hvote, blockIndex, meanIndex, Memory.length_read] at hok
  · have hok := dequantBlock_endsOk hc hn hmax hmem
    obtain ⟨hlt, hbest, hfirst⟩ := isBlockIndex_blockIndex (levels_pos_of_validate hvalid) .majority
      (Memory.read s.mem (argSrc s) s.args.len.toNat)
    rw [hvote, blockAux, voteCount_eq] at hok
    exact ⟨_, hlt, hbest, hfirst, hok⟩

end Sys2Proof.Machine
end

section
/-! The frame codec pixel by pixel and bit by bit (43_frame_codec.md R230 to R240): the geometry of a validated configuration tiles
the canvas, what a packed frame holds at each pixel of a block, and what an unpacked buffer holds at each stream position. -/

namespace Sys2Proof.Machine

/-! The geometry of a validated configuration (R6, R142). -/

theorem legalLevels_powers : ∀ l ∈ legalLevels, l = 2 ^ Nat.log2 l ∧ 1 ≤ Nat.log2 l := by decide +kernel

/-- The geometry of a validated configuration tiles the canvas (R231). -/
theorem configGeometry_tiles {c : ConfigRecord} (h : validate c = none) : GeometryTiles (configGeometry c) := by
  obtain ⟨hl, ⟨hw, hh⟩, -⟩ := validate_eq_none.1 h
  obtain ⟨hpow, hone⟩ := legalLevels_powers _ hl
  exact {
    s_pos := Nat.pos_of_dvd_of_pos (Nat.dvd_of_mod_eq_zero hw) (by decide)
    cw := Nat.div_mul_cancel (Nat.dvd_of_mod_eq_zero hw)
    ch := Nat.div_mul_cancel (Nat.dvd_of_mod_eq_zero hh)
    nb := rfl
    bpb := rfl
    l := hpow
    bpc1 := hone
    bpc8 := mem_legalLevels_log2 _ hl
    pay := rfl }

theorem eight_dvd_blocks : ∀ s ∈ [1, 2, 3, 4, 5, 6, 8, 10, 12, 15, 16, 20, 24, 30, 40, 48, 60, 80, 120, 240],
    8 ∣ 3840 / s * (2160 / s) := by decide

/-- The blocks of a validated configuration fill whole bytes: no bit of the last block is past the payload (R238). -/
theorem eight_mul_payloadBytes {c : ConfigRecord} (h : validate c = none) :
    8 * payloadBytes c = blocksPerFrame c * (3 * Nat.log2 c.levels.toNat) :=
  Nat.mul_div_cancel' (Dvd.dvd.mul_right (eight_dvd_blocks _ ((canvas_tiles_iff _).1 (validate_eq_none.1 h).2.1)) _)

theorem frameLen_configGeometry (c : ConfigRecord) : frameLen (configGeometry c) = 24883200 :=
  Eq.trans (b := Config.frameBytes) rfl frameBytes_eq

/-! Bits as numbers, and pixels as lists. -/

/-- Bits, the first one most significant, as the sum of their powers of two (R237). -/
theorem bitsValue_eq_sum (f : Nat → Bool) (n : Nat) :
    bitsValue f n = ((List.range n).map fun j => (f j).toNat * 2 ^ (n - 1 - j)).sum := by
  induction n with
  | zero => rfl
  | succ n ih =>
    have hshift : ∀ j ∈ List.range n, (f j).toNat * 2 ^ (n + 1 - 1 - j) = 2 * ((f j).toNat * 2 ^ (n - 1 - j)) := by
      intro j hj
      rw [List.mem_range] at hj
      rw [show n + 1 - 1 - j = n - 1 - j + 1 by omega, Nat.pow_succ]
      ring
    rw [bitsValue, ih, List.range_succ, List.map_append, List.sum_append, List.map_congr_left hshift, List.sum_map_mul_left]
    simp

/-- Counting through `m` rows of `n` is counting to `m * n`, by quotient and remainder. -/
theorem map_range_mul {α : Type} (f : Nat → Nat → α) (m n : Nat) :
    (List.range (m * n)).map (fun k => f (k / n) (k % n)) =
      (List.range m).flatMap fun w => (List.range n).map fun u => f w u := by
  induction m with
  | zero => simp
  | succ m ih =>
    have hrow : ∀ u ∈ List.range n, f ((m * n + u) / n) ((m * n + u) % n) = f m u := by
      intro u hu
      rw [List.mem_range] at hu
      rw [Nat.mul_comm, Nat.mul_add_div (by omega), Nat.mul_add_mod, Nat.div_eq_of_lt hu, Nat.mod_eq_of_lt hu, Nat.add_zero]
    rw [Nat.succ_mul, List.range_add, List.map_append, ih, List.map_map, List.range_succ, List.flatMap_append,
      List.flatMap_singleton]
    exact congrArg _ (List.map_congr_left hrow)

/-- The samples of a block are its pixels row by row, in the words of the claims. -/
theorem blockSamples_eq_blockPixels (c : ConfigRecord) (frame : Nat → Byte) (b ch : Nat) :
    blockSamples (configGeometry c) frame b ch = blockPixels c frame b ch :=
  map_range_mul (fun w u => frame (pixelOffset (configGeometry c)
    (b % (3840 / c.blockSize.toNat) * c.blockSize.toNat + u) (b / (3840 / c.blockSize.toNat) * c.blockSize.toNat + w) ch)) _ _

/-! A packed frame by offset and by pixel (R239). -/

theorem getD_packFrame {g : Geometry} (buf : List Byte) {o : Nat} (h : o < frameLen g) :
    (packFrame g buf).getD o 0 = packByte g buf o := by
  simp [packFrame, h]

section
variable {g : Geometry} (hg : GeometryTiles g)
include hg

/-- Pixel `(u, w)` of block `b` carries the level value of the block's index. -/
theorem getD_packFrame_pixel (buf : List Byte) {b c u w : Nat} (hb : b < g.nb) (hc : c < 3) (hu : u < g.s) (hw : w < g.s) :
    (packFrame g buf).getD (pixelOffset g (b % g.bx * g.s + u) (b / g.bx * g.s + w) c) 0 =
      BitVec.ofNat 8 (quantLevel g.l (packIndex g buf b c)) := by
  have hk : g.s * w + u < g.s * g.s := by
    have := Nat.mul_le_mul_left g.s (Nat.succ_le_of_lt hw)
    rw [Nat.mul_succ] at this
    omega
  have hrow : (g.s * w + u) / g.s = w := by rw [Nat.mul_add_div hg.s_pos, Nat.div_eq_of_lt hu, Nat.add_zero]
  have hcol : (g.s * w + u) % g.s = u := by rw [Nat.mul_add_mod, Nat.mod_eq_of_lt hu]
  have hbounds := block_pixel_bounds hg hb hk
  have hbyte := packByte_block hg buf hb hc hk
  rw [hrow, hcol] at hbounds hbyte
  rw [getD_packFrame buf (pixelOffset_lt hbounds.1 hbounds.2 hc), hbyte]

omit hg in
/-- A stream bit as the claims write it (R236, R238). -/
theorem toNat_streamBit (buf : List Byte) (t : Nat) : (streamBit g buf t).toNat =
    if t < 8 * g.pay then ((buf.getD (t / 8) 0).getLsbD (7 - t % 8)).toNat else 0 := by
  unfold streamBit
  split_ifs with h <;> simp [h]

/-! Stream positions (R237, R240). -/

/-- Bit `j` of channel `c` of block `b` is where its position says. -/
theorem position_parts {b c j : Nat} (hc : c < 3) (hj : j < g.bpc) :
    (b * g.bpb + c * g.bpc + j) / g.bpb = b ∧ (b * g.bpb + c * g.bpc + j) % g.bpb / g.bpc = c ∧
      (b * g.bpb + c * g.bpc + j) % g.bpc = j := by
  have hinner : g.bpc * c + j < g.bpb := by
    have := Nat.mul_le_mul_left g.bpc (Nat.succ_le_of_lt hc)
    rw [hg.bpb]
    rw [Nat.mul_succ] at this
    omega
  have hpos : b * g.bpb + c * g.bpc + j = g.bpb * b + (g.bpc * c + j) := by ring
  have hpos' : b * g.bpb + c * g.bpc + j = g.bpc * (3 * b + c) + j := by rw [hg.bpb]; ring
  refine ⟨?_, ?_, ?_⟩
  · rw [hpos, Nat.mul_add_div (by omega), Nat.div_eq_of_lt hinner, Nat.add_zero]
  · rw [hpos, Nat.mul_add_mod, Nat.mod_eq_of_lt hinner, Nat.mul_add_div (by omega), Nat.div_eq_of_lt hj, Nat.add_zero]
  · rw [hpos', Nat.mul_add_mod, Nat.mod_eq_of_lt hj]

/-- Every position of the blocks' bits belongs to a block and a channel. -/
theorem position_bounds {t : Nat} (ht : t < g.nb * g.bpb) : t / g.bpb < g.nb ∧ t % g.bpb / g.bpc < 3 := by
  have hbpb : 0 < g.bpb := by have := hg.bpc1; rw [hg.bpb]; omega
  refine ⟨Nat.div_lt_of_lt_mul (Nat.mul_comm _ _ ▸ ht), Nat.div_lt_of_lt_mul ?_⟩
  exact (Nat.mod_lt t hbpb).trans_eq (hg.bpb.trans (Nat.mul_comm _ _))

theorem unpackBit_position (vote : VoteMode) (frame : Nat → Byte) {b c j : Nat} (hc : c < 3) (hj : j < g.bpc) :
    unpackBit g vote frame (b * g.bpb + c * g.bpc + j) = (unpackIndex g vote frame b c).testBit (g.bpc - 1 - j) := by
  obtain ⟨hblock, hchannel, hbit⟩ := position_parts hg (b := b) hc hj
  rw [unpackBit, hblock, hchannel, hbit]

omit hg in
/-- The bits of an unpacked buffer, most significant bit of each byte first. -/
theorem getLsbD_unpackFrame (vote : VoteMode) (frame : Nat → Byte) {t : Nat} (ht : t < 8 * g.pay) :
    ((unpackFrame g vote frame).getD (t / 8) 0).getLsbD (7 - t % 8) = unpackBit g vote frame t := by
  have hbyte : (unpackFrame g vote frame).getD (t / 8) 0 = unpackByte g vote frame (t / 8) := by
    simp [unpackFrame, show t / 8 < g.pay by omega]
  have hmod : t % 8 < 8 := Nat.mod_lt _ (by decide)
  have hbit := testBit_bitsValue (fun i => unpackBit g vote frame (8 * (t / 8) + i)) 8 (t % 8) hmod
  rw [Nat.div_add_mod] at hbit
  rw [hbyte, unpackByte, BitVec.getLsbD_ofNat, hbit, decide_eq_true (by omega), Bool.true_and]

/-- An unpacked buffer depends on the frame through its block indices only. -/
theorem unpackFrame_congr (vote : VoteMode) {frame frame' : Nat → Byte}
    (h : ∀ b, b < g.nb → ∀ c, c < 3 → unpackIndex g vote frame b c = unpackIndex g vote frame' b c) :
    unpackFrame g vote frame = unpackFrame g vote frame' := by
  refine List.map_congr_left fun j hj => ?_
  have hpay : 8 * g.pay ≤ g.nb * g.bpb := by rw [hg.pay]; exact Nat.mul_div_le _ _
  rw [List.mem_range] at hj
  rw [unpackByte, unpackByte, bitsValue_congr fun i hi => ?_]
  obtain ⟨hb, hc⟩ := position_bounds hg (t := 8 * j + i) (by omega)
  rw [unpackBit, unpackBit, h _ hb _ hc]

end

/-- Settles O25: pixel `(u, w)` is sample `S * w + u` of its block; the index's bits are summed by their powers of two. -/
theorem packFramePixels : Obligations.PackFramePixels := by
  refine fun c hvalid buf _ => ⟨(length_packFrame _ _).trans (frameLen_configGeometry c), fun b hb ch hch u hu w hw => ?_⟩
  have hpixel := getD_packFrame_pixel (configGeometry_tiles hvalid) buf hb hch hu hw
  rw [packIndex, bitsValue_eq_sum] at hpixel
  simp only [toNat_streamBit] at hpixel
  exact hpixel

end Sys2Proof.Machine
end

section
/-! Noise within the guard band (42_quantizer.md R204; 43_frame_codec.md R241, R242): a block whose samples all decode to one index
has that index in both vote modes. -/

namespace Sys2Proof.Machine

/-! A block of samples that agree. -/

/-- The rounded sum of R205 lies within the sum of the bounds that R202 gives each sample. -/
theorem meanIndex_numerator_bounds {l i : Nat} {vs : List Byte} (h : ∀ v ∈ vs, dequantLevel l v.toNat = i) :
    510 * vs.length * i ≤ 2 * sampleSum vs * (l - 1) + 255 * vs.length ∧
      2 * sampleSum vs * (l - 1) + 255 * vs.length + vs.length ≤ 510 * vs.length * (i + 1) := by
  induction vs with
  | nil => simp [sampleSum]
  | cons v vs ih =>
    obtain ⟨hv, hvs⟩ := List.forall_mem_cons.1 h
    obtain ⟨hlow, hhigh⟩ := ih hvs
    have hvlow : 510 * i ≤ 2 * v.toNat * (l - 1) + 255 := hv ▸ Nat.mul_div_le _ _
    have hvhigh : 2 * v.toNat * (l - 1) + 255 < 510 * (i + 1) := hv ▸ Nat.lt_mul_div_succ _ (by decide)
    have hsum : sampleSum (v :: vs) = v.toNat + sampleSum vs := by simp [sampleSum]
    rw [hsum, List.length_cons]
    constructor <;> linarith

theorem meanIndex_of_agree {l i : Nat} {vs : List Byte} (hne : vs ≠ []) (h : ∀ v ∈ vs, dequantLevel l v.toNat = i) :
    meanIndex l vs = i := by
  have hlen : 0 < vs.length := List.length_pos_iff.2 hne
  obtain ⟨hlow, hhigh⟩ := meanIndex_numerator_bounds h
  refine Nat.div_eq_of_lt_le ?_ ?_ <;> linarith

theorem voteCount_of_agree {l i : Nat} {vs : List Byte} (h : ∀ v ∈ vs, dequantLevel l v.toNat = i) (k : Nat) :
    voteCount l vs k = if i = k then vs.length else 0 := by
  split_ifs with hk
  · exact List.countP_eq_length.2 fun v hv => by simp [h v hv, hk]
  · exact List.countP_eq_zero.2 fun v hv => by simp [h v hv, hk]

/-- Any other index would win with no votes at all. -/
theorem majorityIndex_of_agree {l i : Nat} {vs : List Byte} (hne : vs ≠ []) (hi : i < l)
    (h : ∀ v ∈ vs, dequantLevel l v.toNat = i) : majorityIndex l vs = i := by
  have hmax := (majorityIndex_isFirstMax (Nat.zero_lt_of_lt hi) vs).max i hi
  rw [voteCount_of_agree h, voteCount_of_agree h, if_pos rfl] at hmax
  by_contra hother
  rw [if_neg (Ne.symm hother), Nat.le_zero, List.length_eq_zero_iff] at hmax
  exact hne hmax

theorem blockIndex_of_agree {l i : Nat} (vote : VoteMode) {vs : List Byte} (hne : vs ≠ []) (hi : i < l)
    (h : ∀ v ∈ vs, dequantLevel l v.toNat = i) : blockIndex l vote vs = i := by
  cases vote with
  | mean => exact meanIndex_of_agree hne h
  | majority => exact majorityIndex_of_agree hne hi h

/-! A packed frame with noise. -/

section
variable {g : Geometry} (hg : GeometryTiles g)
include hg

theorem packIndex_lt (buf : List Byte) (b c : Nat) : packIndex g buf b c < g.l := hg.l ▸ bitsValue_lt _ _

/-- A level value fits in a byte (R200). -/
theorem toNat_levelByte (buf : List Byte) (b c : Nat) :
    (BitVec.ofNat 8 (quantLevel g.l (packIndex g buf b c))).toNat = quantLevel g.l (packIndex g buf b c) := by
  have hi := packIndex_lt hg buf b c
  rw [hg.l] at hi ⊢
  rw [BitVec.toNat_ofNat]
  exact Nat.mod_eq_of_lt (level_bounds g.bpc (Nat.lt_succ_of_le hg.bpc8) _ hi hg.bpc1).1

/-- Noise within the margin leaves every block's index as packed, in both vote modes. -/
theorem unpackIndex_of_guardBand (vote : VoteMode) (buf : List Byte) {frame : Nat → Byte} {m : Nat}
    (hm : (g.l, m) ∈ guardMargins)
    (hf : ∀ o, o < frameLen g →
      (frame o).toNat ≤ (packByte g buf o).toNat + m ∧ (packByte g buf o).toNat ≤ (frame o).toNat + m)
    {b c : Nat} (hb : b < g.nb) (hc : c < 3) : unpackIndex g vote frame b c = packIndex g buf b c := by
  have hi := packIndex_lt hg buf b c
  refine blockIndex_of_agree vote ?_ hi fun v hv => ?_
  · simpa [blockSamples] using hg.s_pos.ne'
  · simp only [blockSamples, List.mem_map, List.mem_range] at hv
    obtain ⟨k, hk, rfl⟩ := hv
    obtain ⟨hx, hy⟩ := block_pixel_bounds hg hb hk
    have hnoise := hf _ (pixelOffset_lt hx hy hc)
    rw [packByte_block hg buf hb hc hk, toNat_levelByte hg] at hnoise
    exact (guardBandMargins g.l m hm).1 _ hi _ (Nat.le_of_lt_succ (BitVec.isLt _)) hnoise.1 hnoise.2

end

/-- Settles O26: the noisy frame has the block indices of the packed one, which unpacks to the buffer. -/
theorem unpackToleratesGuardBandNoise : Obligations.UnpackToleratesGuardBandNoise := by
  intro c m buf vote frame hvalid hm hlen hnoise
  have hg := configGeometry_tiles hvalid
  have hf : ∀ o, o < frameLen (configGeometry c) → (frame o).toNat ≤ (packByte (configGeometry c) buf o).toNat + m ∧
      (packByte (configGeometry c) buf o).toNat ≤ (frame o).toNat + m := fun o ho => by
    have := hnoise o (frameLen_configGeometry c ▸ ho)
    rwa [getD_packFrame buf ho] at this
  calc unpackFrame (configGeometry c) vote frame
      = unpackFrame (configGeometry c) vote (packByte (configGeometry c) buf) := unpackFrame_congr hg vote fun b hb ch hch => by
        rw [unpackIndex_of_guardBand hg vote buf hm hf hb hch, unpackIndex_packed hg vote buf (fun _ _ => rfl) hb hch]
    _ = buf := unpackFrame_packed hg vote buf (fun _ _ => rfl) hlen

end Sys2Proof.Machine
end

section
/-! PACK_FRAME and UNPACK_FRAME (43_frame_codec.md R245, R246): the chain of preconditions, then each outcome. -/

namespace Sys2Proof.Machine

/-- When no precondition fails and the command stores and completes, the stored range is all that changes besides results and
status (R325). -/
theorem endsOk_of_store {i : Instr} {s : State} {pre : Option ErrCode} {go : State → State} {r0 r1 r2 dst : Nat}
    {bs : List Byte} (hexec : exec i s = .next (orRaise pre s go)) (hpre : pre = none)
    (hgo : go s = complete r0 r1 r2 { s with mem := Memory.write s.mem dst bs }) :
    EndsOk (exec i s) s r0 r1 r2 fun t => KeepsConfig s t ∧ KeepsStream s t ∧ StoresAt s t dst bs :=
  endsOk_of_complete (u := { s with mem := Memory.write s.mem dst bs }) (by rw [hexec, hpre, orRaise_none, hgo]) rfl
    ⟨⟨rfl, rfl⟩, ⟨rfl, rfl⟩, write_storesAt rfl⟩

/-- The last test of both commands: two ranges of system memory (R84). -/
theorem firstError_ranges (a n a' n' : Nat) (e : ErrCode) :
    firstError [(!checkRange a n || !checkRange a' n', e)] =
      if checkRange a n = true ∧ checkRange a' n' = true then none else some e := by
  cases checkRange a n <;> cases checkRange a' n' <;> rfl

/-! PACK_FRAME (R245). -/

theorem exec_packFrame (s : State) : exec .packFrame s =
    .next (orRaise (packFramePre s) s fun s => complete (activeGeometry s).pay (argLen s) (activeGeometry s).nb
      { s with mem := Memory.write s.mem (argDst s) (packFrame (activeGeometry s)
          (Memory.read s.mem (argSrc s) (argLen s) ++ pad ((activeGeometry s).pay - argLen s))) }) := rfl

/-- R245's tests after the first, in order. -/
theorem packFramePre_of_act {s : State} {c : ConfigRecord} (h : s.act = some c) : packFramePre s =
    if payloadBytes c < s.args.len.toNat then some .operand
    else if checkRange (argSrc s) s.args.len.toNat = true ∧ checkRange (argDst s) 24883200 = true then none
    else some .bus := by
  rw [packFramePre, firstError_cfgValid_some h, activeGeometry_of_act h, firstError_decide, firstError_ranges]
  rfl

/-- Settles O27: by the chain of tests. -/
theorem packFrameRule : Obligations.PackFrameRule := by
  refine ⟨decode_encode .packFrame, fun s => ⟨fun h => ?_, fun c hc => ⟨fun h => ?_, fun hlen h => ?_,
    fun hlen hsrc hdst => ?_⟩⟩⟩
  · exact endsInError_of_pre (exec_packFrame s) (firstError_cfgValid_none h _)
  · exact endsInError_of_pre (exec_packFrame s) (by rw [packFramePre_of_act hc, if_pos h])
  · exact endsInError_of_pre (exec_packFrame s) (by
      rw [packFramePre_of_act hc, if_neg hlen.not_gt, if_neg (by simpa only [checkRange_iff] using h)])
  · refine endsOk_of_store (exec_packFrame s) ?_ (by rw [activeGeometry_of_act hc]; rfl)
    rw [packFramePre_of_act hc, if_neg hlen.not_gt, if_pos ⟨(checkRange_iff _ _).2 hsrc, (checkRange_iff _ _).2 hdst⟩]

/-! UNPACK_FRAME (R246). -/

theorem exec_unpackFrame (s : State) : exec .unpackFrame s =
    .next (orRaise (unpackFramePre s) s fun s => complete (activeGeometry s).pay 0 (activeGeometry s).nb
      { s with mem := Memory.write s.mem (argDst s) (unpackFrame (activeGeometry s) s.vote (frameAt s.mem (argSrc s))) }) := rfl

/-- R246's test after the first. -/
theorem unpackFramePre_of_act {s : State} {c : ConfigRecord} (h : s.act = some c) : unpackFramePre s =
    if checkRange (argSrc s) 24883200 = true ∧ checkRange (argDst s) (payloadBytes c) = true then none else some .bus := by
  rw [unpackFramePre, firstError_cfgValid_some h, activeGeometry_of_act h, firstError_ranges]
  rfl

/-- The bits of the unpacked buffer are those of the block indices (R240). -/
theorem unpackFrame_blockIndexBits {c : ConfigRecord} (hvalid : validate c = none) (vote : VoteMode) (frame : Nat → Byte)
    {b ch j : Nat} (hb : b < blocksPerFrame c) (hch : ch < 3) (hj : j < Nat.log2 c.levels.toNat) :
    let pos := b * (3 * Nat.log2 c.levels.toNat) + ch * Nat.log2 c.levels.toNat + j
    ((unpackFrame (configGeometry c) vote frame).getD (pos / 8) 0).getLsbD (7 - pos % 8) =
      (unpackIndex (configGeometry c) vote frame b ch).testBit (Nat.log2 c.levels.toNat - 1 - j) := by
  intro pos
  have hpos : pos < 8 * payloadBytes c := by
    have hblock := Nat.mul_le_mul_right (3 * Nat.log2 c.levels.toNat) (Nat.succ_le_of_lt hb)
    have hchannel := Nat.mul_le_mul_right (Nat.log2 c.levels.toNat) (Nat.succ_le_of_lt hch)
    rw [Nat.succ_mul] at hblock hchannel
    rw [eight_mul_payloadBytes hvalid]
    omega
  exact (getLsbD_unpackFrame vote frame hpos).trans (unpackBit_position (configGeometry_tiles hvalid) vote frame hch hj)

/-- Settles O28: the command by the chain of tests; each block's index is that of its pixels, and its bits are the buffer's. -/
theorem unpackFrameRule : Obligations.UnpackFrameRule := by
  refine ⟨⟨decode_encode .unpackFrame, fun s => ⟨fun h => ?_, fun c hc => ⟨fun h => ?_, fun hsrc hdst => ?_⟩⟩⟩,
    fun c vote frame hvalid => ⟨length_unpackFrame _ _ _, fun b hb ch hch => ?_⟩⟩
  · exact endsInError_of_pre (exec_unpackFrame s) (firstError_cfgValid_none h _)
  · exact endsInError_of_pre (exec_unpackFrame s) (by
      rw [unpackFramePre_of_act hc, if_neg (by simpa only [checkRange_iff] using h)])
  · refine endsOk_of_store (exec_unpackFrame s) ?_ (by rw [activeGeometry_of_act hc]; rfl)
    rw [unpackFramePre_of_act hc, if_pos ⟨(checkRange_iff _ _).2 hsrc, (checkRange_iff _ _).2 hdst⟩]
  · refine ⟨unpackIndex (configGeometry c) vote frame b ch, ?_,
      fun j hj => unpackFrame_blockIndexBits hvalid vote frame hb hch hj⟩
    rw [← blockSamples_eq_blockPixels]
    exact isBlockIndex_blockIndex (levels_pos_of_validate hvalid) vote _

end Sys2Proof.Machine
end

section
/-! Lists of bytes cut and joined, and the fields of a built header record (00_scope.md R7; 44_stream.md R271). -/

namespace Sys2Proof.Machine

/-! Slices (R7). -/

theorem slice_append_left {a b : List Byte} {i j : Nat} (h : j ≤ a.length) : slice (a ++ b) i j = slice a i j := by
  have hb : j - i - (a.drop i).length = 0 := by rw [List.length_drop]; omega
  rw [slice, List.drop_append, List.take_append, hb, List.take_zero, List.append_nil, slice]

theorem slice_append_right {a b : List Byte} {i j : Nat} (h : a.length ≤ i) :
    slice (a ++ b) i j = slice b (i - a.length) (j - a.length) := by
  rw [slice, List.drop_append, List.drop_eq_nil_of_le h, List.nil_append, slice, Nat.sub_sub_sub_cancel_right h]

theorem slice_append_head {a b : List Byte} {n : Nat} (h : a.length = n) : slice (a ++ b) 0 n = a := by
  rw [slice, List.drop_zero, Nat.sub_zero, List.take_left' h]

theorem slice_all {b : List Byte} {n : Nat} (h : b.length ≤ n) : slice b 0 n = b := by
  rw [slice, List.drop_zero, Nat.sub_zero, List.take_of_length_le h]

/-- A slice of a slice. -/
theorem slice_slice {b : List Byte} {i j k l : Nat} (h : i + l ≤ j) : slice (slice b i j) k l = slice b (i + k) (i + l) := by
  rw [slice, slice, slice, List.drop_take, List.drop_drop, List.take_take]
  congr 1
  omega

theorem slice_succ {b : List Byte} {i : Nat} (h : i < b.length) : slice b i (i + 1) = [b.getD i 0] := by
  rw [slice, Nat.add_sub_cancel_left, List.drop_eq_getElem_cons h, List.getD_eq_getElem _ _ h, List.take_succ_cons,
    List.take_zero]

/-! Numbers in words and bytes (R7). -/

/-- A number that fits its register reads back. -/
theorem toNat_ofNat_of_lt {w n : Nat} (h : n < 2 ^ w) : (BitVec.ofNat w n).toNat = n :=
  (BitVec.toNat_ofNat n w).trans (Nat.mod_eq_of_lt h)

theorem leNat_leBytes {n v : Nat} (h : v < 256 ^ n) : leNat (leBytes n v) = v := by
  induction n generalizing v with
  | zero => rw [pow_zero] at h; rw [leBytes, leNat]; omega
  | succ n ih =>
    rw [leBytes, leNat, ih (by rw [pow_succ] at h; omega), BitVec.toNat_ofNat]
    omega

/-! The built record (R271). -/

/-- `r` is the record of R271 for the host record `h`, the configuration `c` and `PF`. -/
structure IsRecord (h : List Byte) (c : ConfigRecord) (pf : Nat) (r : List Byte) : Prop where
  length    : r.length = 112
  magic     : slice r 0 4 = [0x56, 0x53, 0x54, 0x47]
  version   : slice r 4 5 = [1]
  flags     : slice r 5 6 = slice h 5 6
  eccParity : leNat (slice r 6 7) = c.eccParity.toNat
  crf       : leNat (slice r 7 8) = c.crf.toNat
  blockSize : leNat (slice r 8 10) = c.blockSize.toNat
  levels    : leNat (slice r 10 12) = c.levels.toNat
  fps       : leNat (slice r 12 16) = c.fps.toNat
  lengths   : slice r 16 32 = slice h 16 32
  frames    : leNat (slice r 32 36) = pf
  hostBytes : slice r 36 108 = slice h 36 108
  reserved  : slice r 108 112 = [0, 0, 0, 0]

/-- The numbers of a validated configuration fit their fields of the record (R142, R271). -/
theorem validate_fits {c : ConfigRecord} (h : validate c = none) :
    c.eccParity.toNat < 256 ^ 1 ∧ c.crf.toNat < 256 ^ 1 ∧ c.blockSize.toNat < 256 ^ 2 ∧ c.levels.toNat < 256 ^ 2 := by
  obtain ⟨hl, hs, -, hcrf, hecc, -⟩ := validate_eq_none.1 h
  have hsize : ∀ s ∈ [1, 2, 3, 4, 5, 6, 8, 10, 12, 15, 16, 20, 24, 30, 40, 48, 60, 80, 120, 240], s < 256 ^ 2 := by decide
  have hlevels : ∀ l ∈ [2, 4, 8, 16, 32, 64, 128, 256], l < 256 ^ 2 := by decide
  exact ⟨by omega, by omega, hsize _ ((canvas_tiles_iff _).1 hs), hlevels _ hl⟩

theorem isRecord_buildRecord {h : List Byte} {c : ConfigRecord} {pf : Nat} (hl : h.length = 112) (hv : validate c = none)
    (hpf : pf ≤ 2 ^ 32 - 2) : IsRecord h c pf (buildRecord h c pf) := by
  obtain ⟨hecc, hcrf, hs, hlev⟩ := validate_fits hv
  have hfps : c.fps.toNat < 256 ^ 4 := c.fps.isLt
  have hframes : pf < 256 ^ 4 := by omega
  have hlen : ∀ i j, j ≤ 112 → (slice h i j).length = j - i := fun i j hj => length_slice (hl ▸ hj)
  have hmagic : Config.hdrMagic.length = 4 := rfl
  constructor
  case length => exact length_buildRecord hl c pf
  all_goals
    simp only [buildRecord, List.append_assoc, slice_append_right, slice_append_head, slice_all, hlen, hmagic, length_leBytes,
      List.length_cons, List.length_nil, Nat.reduceLeDiff, Nat.reduceSub, Nat.reduceAdd, leNat_leBytes, hecc, hcrf, hs, hlev,
      hfps, hframes, le_refl]
  case magic | version => rfl

end Sys2Proof.Machine
end

section
/-! Payload buffers (43_frame_codec.md R243; 44_stream.md R273, R274): codewords placed in slots, and the header frame's buffer. -/

namespace Sys2Proof.Machine

/-! Codewords in slots (R243). -/

section
variable {n : Nat} {ws : List (List Byte)} (hws : ∀ w ∈ ws, w.length = n)
include hws

theorem length_flatten_of_lengths : ws.flatten.length = n * ws.length := by
  rw [List.length_flatten, List.map_congr_left hws, List.map_const', List.sum_replicate, smul_eq_mul, Nat.mul_comm]

/-- List `j` of lists of one length is where its position says. -/
theorem slice_flatten (tail : List Byte) {j : Nat} (hj : j < ws.length) :
    slice (ws.flatten ++ tail) (n * j) (n * j + n) = ws[j] := by
  induction ws generalizing j with
  | nil => cases hj
  | cons w ws ih =>
    obtain ⟨hw, hws⟩ := List.forall_mem_cons.1 hws
    rw [List.flatten_cons, List.append_assoc]
    cases j with
    | zero => simpa using slice_append_head hw
    | succ j =>
      rw [Nat.mul_succ, slice_append_right (by omega), hw, Nat.add_sub_cancel, Nat.add_sub_cancel]
      exact ih hws (Nat.lt_of_succ_lt_succ hj)

end

section
variable {g : Geometry} {ws : List (List Byte)} (hws : ∀ w ∈ ws, w.length = 255)
include hws

theorem length_placeSlots (hfit : 255 * ws.length ≤ g.pay) : (placeSlots g ws).length = g.pay := by
  have hlen := length_flatten_of_lengths hws
  rw [placeSlots, List.length_append, hlen, pad, List.length_replicate, Config.cwLen]
  omega

theorem slot_placeSlots {j : Nat} (hj : j < ws.length) : slot (placeSlots g ws) j = ws[j] :=
  slice_flatten hws _ hj

/-- Every byte after the slots in use is 0. -/
theorem getD_placeSlots_rest {x : Nat} (hx : 255 * ws.length ≤ x) : (placeSlots g ws).getD x 0 = 0 := by
  rw [placeSlots, List.getD_append_right _ _ _ _ (by rwa [length_flatten_of_lengths hws])]
  exact getD_replicate_zero _ _

end

/-- An encoding is a member of the code (R166). -/
theorem rsMember_rsEnc (d : List Byte) (p : Nat) : RsMember (d.length + p) p (rsEnc d p) :=
  ⟨length_rsEnc d p, fun _ hj => polyEval_rsEnc d hj⟩

/-- An encoding decodes to its data with nothing corrected (R173). -/
theorem rsDec_rsEnc (d : List Byte) (p : Nat) : rsDec (rsEnc d p) p [] = some { data := d, corrected := 0, errors := 0 } := by
  have hmember : isCodeword p (rsEnc d p) = true := isCodeword_iff.2 ((length_rsEnc d p).symm ▸ rsMember_rsEnc d p)
  rw [rsDec_codeword hmember, length_rsEnc, Nat.add_sub_cancel, rsEnc, List.take_left]

/-! The header frame's buffer (R273). -/

theorem headerGeometry_eq : headerGeometry =
    configGeometry { blockSize := 8, levels := 2, eccParity := 64, fps := 30, crf := 18 } := rfl

theorem headerGeometry_pay : headerGeometry.pay = 48600 := by decide +kernel

/-- The data of the header codeword: the record's length, the record, the pad. -/
def headerData (hb : List Byte) : List Byte := [0x70, 0x00] ++ hb ++ List.replicate 77 0x00

section
variable {hb : List Byte} (hl : hb.length = 112)
include hl

theorem length_headerData : (headerData hb).length = 191 := by simp [headerData, hl]

theorem slice_headerData_record : slice (headerData hb) 2 114 = hb := by
  rw [headerData, List.append_assoc, slice_append_right (by decide)]
  exact slice_append_head hl

theorem headerCodeword_eq : headerCodeword hb = rsEnc (headerData hb) 64 := by
  have hstream : headerStream hb = [0x70, 0x00] ++ hb := rfl
  have hpad : headerGeometry.k - (headerStream hb).length = 77 := by
    rw [hstream, List.length_append, hl]
    rfl
  rw [headerCodeword, hpad]
  rfl

theorem length_headerCodeword : (headerCodeword hb).length = 255 := by
  rw [headerCodeword_eq hl, length_rsEnc, length_headerData hl]

theorem forall_mem_headerCodeword : ∀ w ∈ [headerCodeword hb], w.length = 255 :=
  List.forall_mem_singleton.2 (length_headerCodeword hl)

theorem length_headerPayload : (headerPayload hb).length = 48600 := by
  have hfit : 255 * [headerCodeword hb].length ≤ headerGeometry.pay := by
    rw [headerGeometry_pay, List.length_singleton]
    decide
  rw [headerPayload, length_placeSlots (forall_mem_headerCodeword hl) hfit, headerGeometry_pay]

theorem slice_headerPayload_codeword : slice (headerPayload hb) 0 255 = rsEnc (headerData hb) 64 :=
  (slot_placeSlots (forall_mem_headerCodeword hl) Nat.zero_lt_one).trans (headerCodeword_eq hl)

/-- The bytes before the parity are those of the codeword's data. -/
theorem slice_headerPayload_data {i j : Nat} (hj : j ≤ 191) : slice (headerPayload hb) i j = slice (headerData hb) i j := by
  have hwhole : slice (slice (headerPayload hb) 0 255) i j = slice (headerPayload hb) (0 + i) (0 + j) :=
    slice_slice (by omega)
  rw [Nat.zero_add, Nat.zero_add, slice_headerPayload_codeword hl, rsEnc,
    slice_append_left (by rw [length_headerData hl]; exact hj)] at hwhole
  exact hwhole.symm

end

/-- Settles O31: the buffer is one codeword in slot 0, and the codeword starts with its data. -/
theorem headerPayloadLayout : Obligations.HeaderPayloadLayout := by
  intro hb hl
  refine ⟨length_headerPayload hl, ?_, ?_, ?_, ?_, fun j hj => ?_, congrArg (packFrame · _) headerGeometry_eq⟩
  · exact slice_headerPayload_data hl (by decide)
  · rw [slice_headerPayload_data hl (by decide), slice_headerData_record hl]
  · rw [slice_headerPayload_data hl (by decide), headerData, slice_append_right (by simp [hl])]
    simp [hl, slice_all]
  · rw [slice_headerPayload_codeword hl]
    have h := rsMember_rsEnc (headerData hb) 64
    rwa [length_headerData hl] at h
  · exact getD_placeSlots_rest (forall_mem_headerCodeword hl) hj

end Sys2Proof.Machine
end

section
/-! ParseHeader (44_stream.md R276): its tests in the words of the claims, and the round trip of a built record through the header
frame. -/

namespace Sys2Proof.Machine

/-- The reserved bits of the flags byte (R271). -/
theorem flagsReservedSet_iff (hdr : List Byte) : flagsReservedSet hdr = true ↔ 2 ≤ (hdr.getD 5 0).toNat := by
  have h0 : (0 : BitVec 7).toNat = 0 := rfl
  rw [flagsReservedSet, bne_iff_ne, Ne, ← BitVec.toNat_inj, BitVec.extractLsb'_toNat, Nat.shiftRight_eq_div_pow, h0]
  omega

/-- R276's step 7 and item 18 of 93_implementation_defined.md. -/
theorem reservedSet_iff (hdr : List Byte) :
    reservedSet hdr = true ↔ 2 ≤ (hdr.getD 5 0).toNat ∨ slice hdr 108 112 ≠ [0, 0, 0, 0] := by
  rw [reservedSet, Bool.or_eq_true, flagsReservedSet_iff, bne_iff_ne]

theorem frameCountTooLarge_iff (pf : Nat) : frameCountTooLarge pf = true ↔ 2 ^ 32 - 2 < pf := decide_eq_true_iff

/-- The tests of ParseHeader behind the decoder, in order (R276). -/
theorem headerError_eq {d hdr : List Byte} (hhdr : slice d 2 114 = hdr) : headerError d =
    if slice hdr 0 4 ≠ [0x56, 0x53, 0x54, 0x47] then some .formatBadMagic
    else if hdr.getD 4 0 ≠ 1 then some .formatBadVersion
    else if leNat (slice d 0 2) ≠ 112 ∨ 2 ≤ (hdr.getD 5 0).toNat ∨ slice hdr 108 112 ≠ [0, 0, 0, 0] ∨
      validate (recordConfig hdr) ≠ none ∨
      recordFrames hdr ≠ ceilDiv (recordPayloadLen hdr)
        (codewordsPerFrame (recordConfig hdr) * dataBytes (recordConfig hdr)) ∨
      2 ^ 32 - 2 < recordFrames hdr then some .formatMalformed
    else none := by
  subst hhdr
  simp only [headerError, firstError_cons, firstError_nil, bne_iff_ne, reservedSet_iff, Option.isSome_iff_ne_none,
    frameCountTooLarge_iff, ite_or]
  rfl

/-! A built record (R271) read back. -/

section
variable {h r : List Byte} {c : ConfigRecord} {pf : Nat} (hr : IsRecord h c pf r)
include hr

theorem recordConfig_of_isRecord : recordConfig r = c := by
  rw [recordConfig, hr.blockSize, hr.levels, hr.eccParity, hr.fps, hr.crf]
  simp only [BitVec.ofNat_toNat, BitVec.setWidth_eq]

theorem recordFrames_of_isRecord : recordFrames r = pf := hr.frames

theorem recordPayloadLen_of_isRecord : recordPayloadLen r = leNat (slice h 24 32) := by
  have hcut : ∀ b, slice b 24 32 = slice (slice b 16 32) 8 16 := fun b => by rw [slice_slice (by decide)]
  rw [recordPayloadLen, hcut, hr.lengths, ← hcut]

theorem version_of_isRecord : r.getD 4 0 = 1 := by
  have hv := hr.version
  rwa [slice_succ (by rw [hr.length]; decide), List.singleton_inj] at hv

theorem flags_of_isRecord (hl : h.length = 112) : r.getD 5 0 = h.getD 5 0 := by
  have hf := hr.flags
  rwa [slice_succ (by rw [hr.length]; decide), slice_succ (by rw [hl]; decide), List.singleton_inj] at hf

/-- A built record passes every test of ParseHeader. -/
theorem headerError_of_isRecord (hl : h.length = 112) (hflags : (h.getD 5 0).toNat < 2) (hv : validate c = none)
    (hpf : pf = ceilDiv (leNat (slice h 24 32)) (codewordsPerFrame c * dataBytes c)) (hle : pf ≤ 2 ^ 32 - 2) :
    headerError (headerData r) = none := by
  have hlength : leNat (slice (headerData r) 0 2) = 112 := rfl
  rw [headerError_eq (slice_headerData_record hr.length), recordConfig_of_isRecord hr, recordFrames_of_isRecord hr,
    recordPayloadLen_of_isRecord hr, flags_of_isRecord hr hl, ← hpf]
  simp only [hr.magic, version_of_isRecord hr, hlength, hr.reserved, hv, ne_eq, not_true_eq_false, false_or, if_false]
  exact if_neg (by omega)

end

/-- The buffer of the header frame, unpacked from memory where the frame lies (R241). -/
theorem unpackFrame_headerFrame {hb : List Byte} (hl : hb.length = 112) (vote : VoteMode) (m : Memory) (a : Nat) :
    unpackFrame headerGeometry vote (frameAt (Memory.write m a (headerFrame hb)) a) = headerPayload hb :=
  unpackFrame_packed headerGeometry_tiles vote _ (fun o ho => frameAt_write m a _ _ o ho)
    ((length_headerPayload hl).trans headerGeometry_pay.symm)

/-- Settles O40: the header codeword decodes to its data, whose record passes every test. -/
theorem headerFrameRoundTrip : Obligations.HeaderFrameRoundTrip := by
  intro h c vote m a pf hdr hl hflags hv hle
  have hrecord : IsRecord h c pf hdr := isRecord_buildRecord hl hv hle
  have hword : rsDec (slice (unpackFrame headerGeometry vote (frameAt (Memory.write m a (headerFrame hdr)) a)) 0 255) 64 [] =
      some { data := headerData hdr, corrected := 0, errors := 0 } := by
    rw [unpackFrame_headerFrame hrecord.length, slice_headerPayload_codeword hrecord.length, rsDec_rsEnc]
  rw [parseHeader_ok hword (headerError_of_isRecord hrecord hl hflags hv rfl hle),
    slice_headerData_record hrecord.length]

end Sys2Proof.Machine
end

section
/-! STREAM_ENC_BEGIN (44_stream.md R280): the chain of preconditions, then each outcome. -/

namespace Sys2Proof.Machine

theorem not_mayBegin_iff {p : Phase} : (!mayBegin p) = true ↔ p ∉ [Phase.idle, .done, .failed] := by
  rw [← not_mayBegin_eq_false, Bool.not_eq_false]

/-- R280's tests on registers, after the first. -/
theorem streamEncBeginPre_of_act {s : State} {c : ConfigRecord} (h : s.act = some c) : streamEncBeginPre s =
    if s.seq.phase ∉ [.idle, .done, .failed] then some .sequence
    else if checkRange (argSrc s) 112 = true ∧ checkRange (argDst s) 112 = true then none else some .bus := by
  rw [streamEncBeginPre, firstError_cfgValid_some h, firstError_cons, firstError_ranges]
  simp only [not_mayBegin_iff]
  rfl

theorem streamEncBeginPre_passes {s : State} {c : ConfigRecord} (h : s.act = some c)
    (hp : s.seq.phase ∈ [Phase.idle, .done, .failed]) (hsrc : InMemory (argSrc s) 112) (hdst : InMemory (argDst s) 112) :
    streamEncBeginPre s = none := by
  rw [streamEncBeginPre_of_act h, if_neg (not_not_intro hp),
    if_pos ⟨(checkRange_iff _ _).2 hsrc, (checkRange_iff _ _).2 hdst⟩]

theorem hostFrameCount_of_act {s : State} {c : ConfigRecord} (h : s.act = some c) : hostFrameCount s =
    ceilDiv (ceilDiv (leNat (slice (Memory.read s.mem (argSrc s) 112) 24 32)) (dataBytes c)) (codewordsPerFrame c) := by
  rw [hostFrameCount, activeGeometry_of_act h]
  rfl

/-- R280's tests on the host record. -/
theorem streamEncBeginRecordPre_eq {s : State} {h : List Byte} (hh : hostRecord s = h) : streamEncBeginRecordPre s =
    if 2 ≤ (h.getD 5 0).toNat ∨ slice h 108 112 ≠ [0, 0, 0, 0] ∨ 2 ^ 32 - 2 < hostFrameCount s then some .operand
    else none := by
  subst hh
  rw [streamEncBeginRecordPre, firstError_cons, firstError_cons, firstError_nil]
  simp only [reservedSet_iff, frameCountTooLarge_iff, ite_or]

/-- What STREAM_ENC_BEGIN does with every test passed: the record, the sequencer, the results (R280). -/
def beginEncoding (s : State) : State :=
  complete (1 + hostFrameCount s) (hostFrameCount s) (activeGeometry s).k
    { s with
      hb := emittedRecord s
      mem := Memory.write s.mem (argDst s) (emittedRecord s)
      seq := { phase := .encHeader, frameIdx := 0, totalFrames := BitVec.ofNat 32 (1 + hostFrameCount s)
               bytesRem := BitVec.ofNat 64 (recordPayloadLen (hostRecord s)), correctedTotal := 0, cwDone := 0 } }

theorem exec_streamEncBegin (s : State) : exec .streamEncBegin s =
    .next (orRaise (streamEncBeginPre s) s fun s => orRaise (streamEncBeginRecordPre s) s beginEncoding) := rfl

theorem exec_streamEncBegin_passes {s : State} (hpre : streamEncBeginPre s = none) (hrec : streamEncBeginRecordPre s = none) :
    exec .streamEncBegin s = .next (beginEncoding s) := by
  rw [exec_streamEncBegin, hpre, orRaise_none, hrec, orRaise_none]

theorem streamEncBegin_endsInError_record {s : State} {e : ErrCode} (hpre : streamEncBeginPre s = none)
    (h : streamEncBeginRecordPre s = some e) : EndsInError (exec .streamEncBegin s) s e :=
  endsInError_of_raise (by rw [exec_streamEncBegin, hpre, orRaise_none, h, orRaise_some])

/-- Settles O29: by the two chains of tests. -/
theorem streamEncBeginPreconditions : Obligations.StreamEncBeginPreconditions := by
  refine fun s => ⟨fun h => ?_, fun c hc => ⟨fun h => ?_, fun hp h => ?_, fun hp hsrc hdst h => ?_⟩⟩
  · exact endsInError_of_pre (exec_streamEncBegin s) (firstError_cfgValid_none h _)
  · exact endsInError_of_pre (exec_streamEncBegin s) (by rw [streamEncBeginPre_of_act hc, if_pos h])
  · exact endsInError_of_pre (exec_streamEncBegin s) (by
      rw [streamEncBeginPre_of_act hc, if_neg (not_not_intro hp), if_neg (by simpa only [checkRange_iff] using h)])
  · exact streamEncBegin_endsInError_record (streamEncBeginPre_passes hc hp hsrc hdst) (by
      rw [streamEncBeginRecordPre_eq (h := Memory.read s.mem (argSrc s) 112) rfl, hostFrameCount_of_act hc, if_pos h])

/-- Settles O30: with every test passed; the fields of the built record are those of R271. -/
theorem streamEncBeginResult : Obligations.StreamEncBeginResult := by
  intro s c h pf hc hv hp hsrc hdst hflags hres hle
  have hcount : hostFrameCount s = pf := hostFrameCount_of_act hc
  have hrec : streamEncBeginRecordPre s = none := by
    rw [streamEncBeginRecordPre_eq (h := h) rfl, hcount]
    exact if_neg (by simp only [hres, ne_eq, not_true_eq_false, false_or]; omega)
  have hexec := exec_streamEncBegin_passes (streamEncBeginPre_passes hc hp hsrc hdst) hrec
  have hrecord : IsRecord h c pf (emittedRecord s) := by
    rw [emittedRecord, hc, hcount]
    exact isRecord_buildRecord (Memory.length_read ..) hv hle
  rw [beginEncoding, hcount, activeGeometry_of_act hc] at hexec
  refine endsOk_of_complete hexec rfl ⟨⟨rfl, rfl⟩, write_storesAt rfl, hrecord.length, hrecord.magic, hrecord.version,
    hrecord.flags, hrecord.eccParity, hrecord.crf, hrecord.blockSize, hrecord.levels, hrecord.fps, hrecord.lengths,
    hrecord.frames, hrecord.hostBytes, hrecord.reserved, rfl, rfl, ?_, ?_, rfl, rfl⟩
  · exact toNat_ofNat_of_lt (by omega)
  · exact toNat_ofNat_of_lt (recordPayloadLen_lt _)

end Sys2Proof.Machine
end

section
/-! Payload frames (44_stream.md R274, R285): the data of a frame cut into codewords, their buffer, and the buffer read back. -/

namespace Sys2Proof.Machine

theorem take_append_slice {b : List Byte} {i j : Nat} (h : i ≤ j) : b.take i ++ slice b i j = b.take j := by
  rw [slice, ← List.take_add, Nat.add_sub_cancel' h]

/-- What codeword `j` of a payload frame carries: its part of `d`, padded to `K` bytes (R274). -/
def payloadData (g : Geometry) (d : List Byte) (j : Nat) : List Byte :=
  slice d (j * g.k) (min ((j + 1) * g.k) d.length) ++ pad ((j + 1) * g.k - d.length)

theorem payloadCodewords_eq (g : Geometry) (d : List Byte) :
    payloadCodewords g d = (List.range (ceilDiv d.length g.k)).map fun j => rsEnc (payloadData g d j) g.p := rfl

@[simp] theorem length_payloadCodewords (g : Geometry) (d : List Byte) :
    (payloadCodewords g d).length = ceilDiv d.length g.k := by simp [payloadCodewords_eq]

section
variable {g : Geometry} {d : List Byte} (hk : 0 < g.k)
include hk

/-- Each of the `u` codewords carries at least one byte. -/
theorem mul_lt_of_lt_ceilDiv {n j : Nat} (hj : j < ceilDiv n g.k) : j * g.k < n :=
  Nat.lt_of_not_le fun h => hj.not_ge ((ceilDiv_le_iff hk).2 h)

theorem length_payloadData {j : Nat} (hj : j < ceilDiv d.length g.k) : (payloadData g d j).length = g.k := by
  have hstart := mul_lt_of_lt_ceilDiv hk hj
  rw [payloadData, List.length_append, length_slice (Nat.min_le_right ..), pad, List.length_replicate, Nat.succ_mul]
  omega

/-- The first `v` codewords carry the first `v * K` bytes, padded. -/
theorem flatten_payloadData {v : Nat} (hv : v ≤ ceilDiv d.length g.k) :
    ((List.range v).map (payloadData g d)).flatten = d.take (v * g.k) ++ pad (v * g.k - d.length) := by
  induction v with
  | zero => simp [pad]
  | succ v ih =>
    have hstart := mul_lt_of_lt_ceilDiv hk hv
    have hnopad : pad (v * g.k - d.length) = [] := by rw [Nat.sub_eq_zero_of_le hstart.le]; rfl
    have hmin : d.take (min ((v + 1) * g.k) d.length) = d.take ((v + 1) * g.k) := List.take_eq_take_min.symm
    rw [List.range_succ, List.map_append, List.flatten_append, ih (by omega), hnopad, List.append_nil, List.map_singleton,
      List.flatten_singleton, payloadData, ← List.append_assoc, take_append_slice (by rw [Nat.succ_mul]; omega), hmin]

/-- The data of all codewords, cut to the length of `d`, is `d`. -/
theorem take_flatten_payloadData :
    (((List.range (ceilDiv d.length g.k)).map (payloadData g d)).flatten).take d.length = d := by
  have hfit : d.length ≤ ceilDiv d.length g.k * g.k := (ceilDiv_le_iff hk).1 le_rfl
  rw [flatten_payloadData hk le_rfl, List.take_of_length_le hfit, List.take_left]

variable (hp : g.k + g.p = 255)
include hp

theorem forall_mem_payloadCodewords : ∀ w ∈ payloadCodewords g d, w.length = 255 := by
  simp only [payloadCodewords_eq, List.forall_mem_map, List.mem_range]
  exact fun j hj => by rw [length_rsEnc, length_payloadData hk hj, hp]

/-- Slot `j` of the buffer holds codeword `j`. -/
theorem slot_payloadCodewords {j : Nat} (hj : j < ceilDiv d.length g.k) :
    slot (placeSlots g (payloadCodewords g d)) j = rsEnc (payloadData g d j) g.p := by
  rw [slot_placeSlots (forall_mem_payloadCodewords hk hp) (by rwa [length_payloadCodewords])]
  simp [payloadCodewords_eq]

end

/-- The data bytes and the parity bytes of a validated configuration make up a codeword. -/
theorem configGeometry_k_add_p {c : ConfigRecord} (hv : validate c = none) :
    (configGeometry c).k + (configGeometry c).p = 255 := by
  obtain ⟨-, hp, -⟩ := validate_numbers hv
  exact Nat.sub_add_cancel (hp.trans (by decide))

section
variable {c : ConfigRecord} (hv : validate c = none) {d : List Byte}
  (hfit : ceilDiv d.length (dataBytes c) ≤ codewordsPerFrame c)
include hv hfit

theorem length_placeSlots_payloadCodewords :
    (placeSlots (configGeometry c) (payloadCodewords (configGeometry c) d)).length = payloadBytes c := by
  have hslots : 255 * ceilDiv d.length (dataBytes c) ≤ payloadBytes c :=
    (Nat.mul_le_mul_left 255 hfit).trans (Nat.mul_div_le ..)
  exact length_placeSlots (forall_mem_payloadCodewords (configGeometry_k_pos hv) (configGeometry_k_add_p hv))
    (by rwa [length_payloadCodewords])

/-- The buffer of a payload frame is the one that the claims describe. -/
theorem isPayloadBuffer_placeSlots :
    IsPayloadBuffer c d (placeSlots (configGeometry c) (payloadCodewords (configGeometry c) d)) := by
  have hk := configGeometry_k_pos hv
  have hkp := configGeometry_k_add_p hv
  have hslot : ∀ j, j < ceilDiv d.length (dataBytes c) →
      slice (placeSlots (configGeometry c) (payloadCodewords (configGeometry c) d)) (255 * j) (255 * j + 255) =
        rsEnc (payloadData (configGeometry c) d j) c.eccParity.toNat := fun j hj => slot_payloadCodewords hk hkp hj
  have hlen : ∀ j, j < ceilDiv d.length (dataBytes c) → (payloadData (configGeometry c) d j).length = dataBytes c :=
    fun j hj => length_payloadData hk hj
  refine ⟨length_placeSlots_payloadCodewords hv hfit, fun j hj => ?_, fun j hj => ?_, fun x hx => ?_⟩
  · have hmember := rsMember_rsEnc (payloadData (configGeometry c) d j) c.eccParity.toNat
    rw [hlen j hj] at hmember
    rw [hslot j hj]
    exact hkp ▸ hmember
  · have hcut := slice_slice (b := placeSlots (configGeometry c) (payloadCodewords (configGeometry c) d)) (i := 255 * j)
      (j := 255 * j + 255) (k := 0) (l := dataBytes c) (Nat.add_le_add_left (Nat.sub_le ..) _)
    rw [hslot j hj, rsEnc, slice_append_head (hlen j hj)] at hcut
    exact hcut.symm
  · exact getD_placeSlots_rest (forall_mem_payloadCodewords hk hkp) (by rwa [length_payloadCodewords])

end

end Sys2Proof.Machine
end

section
/-! STREAM_ENC_FRAME (44_stream.md R285): the chain of preconditions, the sequencer after a payload frame, then each outcome. -/

namespace Sys2Proof.Machine

/-- The last test of both phases of a frame command. -/
theorem firstError_range (a n : Nat) (e : ErrCode) :
    firstError [(!checkRange a n, e)] = if checkRange a n = true then none else some e := by
  cases checkRange a n <;> rfl

theorem streamEncFramePre_outside {s : State} (hp : s.seq.phase ∉ [Phase.encHeader, .encPayload]) :
    streamEncFramePre s = some .sequence := by
  unfold streamEncFramePre
  cases h : s.seq.phase
  case encHeader | encPayload => simp [h] at hp
  all_goals rfl

theorem streamEncFramePre_header {s : State} (hp : s.seq.phase = .encHeader) :
    streamEncFramePre s = if checkRange (argDst s) 24883200 = true then none else some .bus := by
  rw [streamEncFramePre, hp]
  exact firstError_range ..

theorem streamEncFramePre_payload {s : State} (hp : s.seq.phase = .encPayload) : streamEncFramePre s =
    if checkRange (argSrc s) (payloadChunk s) = true ∧ checkRange (argDst s) 24883200 = true then none else some .bus := by
  rw [streamEncFramePre, hp]
  exact firstError_ranges ..

theorem exec_streamEncFrame (s : State) : exec .streamEncFrame s =
    .next (orRaise (streamEncFramePre s) s fun s =>
      if s.seq.phase = .encHeader then encodeHeaderFrame s else encodePayloadFrame s) := rfl

theorem exec_streamEncFrame_header {s : State} (hp : s.seq.phase = .encHeader) (hpre : streamEncFramePre s = none) :
    exec .streamEncFrame s = .next (encodeHeaderFrame s) := by
  rw [exec_streamEncFrame, hpre, orRaise_none, if_pos hp]

theorem exec_streamEncFrame_payload {s : State} (hp : s.seq.phase = .encPayload) (hpre : streamEncFramePre s = none) :
    exec .streamEncFrame s = .next (encodePayloadFrame s) := by
  rw [exec_streamEncFrame, hpre, orRaise_none, if_neg (by simp [hp])]

/-- Settles O32: by the chain of tests of the phase. -/
theorem streamEncFrameHeaderAndErrors : Obligations.StreamEncFrameHeaderAndErrors := by
  refine fun s => ⟨fun hp => ?_, fun hp h => ?_, fun hp h => ?_, fun hp hdst => ?_⟩
  · exact endsInError_of_pre (exec_streamEncFrame s) (streamEncFramePre_outside hp)
  · exact endsInError_of_pre (exec_streamEncFrame s) (by
      rw [streamEncFramePre_header hp, if_neg (by simpa only [checkRange_iff] using h)])
  · exact endsInError_of_pre (exec_streamEncFrame s) (by
      rw [streamEncFramePre_payload hp, if_neg (by simpa only [checkRange_iff] using h)])
  · have hpre : streamEncFramePre s = none := by rw [streamEncFramePre_header hp, if_pos ((checkRange_iff _ _).2 hdst)]
    exact endsOk_of_complete (exec_streamEncFrame_header hp hpre) rfl ⟨⟨rfl, rfl⟩, rfl, write_storesAt rfl, rfl⟩

/-! A payload frame's bytes and codewords, and the sequencer after it (R285, R292). -/

theorem payloadChunk_of_act {s : State} {c : ConfigRecord} (h : s.act = some c) :
    payloadChunk s = min s.seq.bytesRem.toNat (codewordsPerFrame c * dataBytes c) := by
  rw [payloadChunk, activeGeometry_of_act h]
  rfl

theorem ceilDiv_chunk_le {c : ConfigRecord} (hv : validate c = none) (n : Nat) :
    ceilDiv (min n (codewordsPerFrame c * dataBytes c)) (dataBytes c) ≤ codewordsPerFrame c :=
  (ceilDiv_le_iff (configGeometry_k_pos hv)).2 (Nat.min_le_right ..)

/-- A payload phase has a byte left (R285). -/
theorem payloadChunk_pos {s : State} {c : ConfigRecord} (hinv : s.Inv) (hc : s.act = some c)
    (hp : s.seq.phase = .encPayload ∨ s.seq.phase = .decPayload) : 1 ≤ payloadChunk s := by
  have hv := hinv.act c hc
  obtain ⟨-, -, hleft, -⟩ := (sequencerAgrees_payload hp).1 hinv.seq
  have hrem : s.seq.bytesRem.toNat ≠ 0 := fun h0 => by
    have := (framesLeft_eq_zero hc hv).2 (BitVec.eq_of_toNat_eq h0)
    omega
  rw [payloadChunk_of_act hc]
  exact Nat.le_min.2 ⟨Nat.pos_of_ne_zero hrem, frameCapacity_pos hv⟩

/-- A payload phase has a frame left, so the frame index does not overflow. -/
theorem toNat_frameIdx_succ {s : State} (hinv : s.Inv) (hp : s.seq.phase = .encPayload ∨ s.seq.phase = .decPayload) :
    (BitVec.ofNat 32 (s.seq.frameIdx.toNat + 1)).toNat = s.seq.frameIdx.toNat + 1 := by
  obtain ⟨-, -, hleft, htotal⟩ := (sequencerAgrees_payload hp).1 hinv.seq
  have hlt := s.seq.totalFrames.isLt
  exact toNat_ofNat_of_lt (by omega)

theorem toNat_bytesRem_sub (q : Sequencer) (cnt : Nat) :
    (BitVec.ofNat 64 (q.bytesRem.toNat - cnt)).toNat = q.bytesRem.toNat - cnt := by
  have hlt := q.bytesRem.isLt
  exact toNat_ofNat_of_lt (by omega)

theorem toNat_sat32 (n : Nat) : (BitVec.ofNat 32 (sat32 n)).toNat = min n 0xFFFFFFFF :=
  toNat_ofNat_of_lt (by rw [sat32]; omega)

theorem ofNat_sat32_toNat (x : Word) : BitVec.ofNat 32 (sat32 (x.toNat + 0)) = x :=
  BitVec.eq_of_toNat_eq (by rw [toNat_sat32]; omega)

/-- Settles O33: the buffer is that of the codewords in slots; the counters stay in their registers' range. -/
theorem streamEncFramePayload : Obligations.StreamEncFramePayload := by
  intro s c hinv hp hc cnt u hsrc hdst
  have hv := hinv.act c hc
  have hchunk : payloadChunk s = cnt := payloadChunk_of_act hc
  have hu : u ≤ codewordsPerFrame c := ceilDiv_chunk_le hv _
  have hlen : (Memory.read s.mem (argSrc s) cnt).length = cnt := Memory.length_read ..
  have hpre : streamEncFramePre s = none := by
    rw [streamEncFramePre_payload hp, hchunk, if_pos ⟨(checkRange_iff _ _).2 hsrc, (checkRange_iff _ _).2 hdst⟩]
  have hexec := exec_streamEncFrame_payload hp hpre
  rw [encodePayloadFrame, hchunk, activeGeometry_of_act hc] at hexec
  refine ⟨hchunk ▸ payloadChunk_pos hinv hc (.inl hp), hu, ⟨_, rfl, isPayloadBuffer_placeSlots hv (by rwa [hlen])⟩,
    endsOk_of_complete hexec rfl ⟨⟨rfl, rfl⟩, rfl, write_storesAt rfl, toNat_bytesRem_sub _ _, toNat_sat32 _,
      toNat_frameIdx_succ hinv (.inl hp), rfl, ofNat_sat32_toNat _, ?_⟩⟩
  rw [← hp]
  rfl

end Sys2Proof.Machine
end

section
/-! STREAM_DEC_BEGIN and STREAM_DEC_FRAME (44_stream.md R290, R292): the chain of preconditions, then each outcome; the round trip
of a payload frame. -/

namespace Sys2Proof.Machine

/-! STREAM_DEC_BEGIN (R290). -/

theorem streamDecBeginPre_eq (s : State) :
    streamDecBeginPre s = if s.seq.phase ∉ [.idle, .done, .failed] then some .sequence else none := by
  rw [streamDecBeginPre, firstError_cons, firstError_nil]
  simp only [not_mayBegin_iff]

theorem exec_streamDecBegin (s : State) : exec .streamDecBegin s =
    .next (orRaise (streamDecBeginPre s) s fun s => complete 0 0 0 { s with
      seq := { phase := .decHeader, frameIdx := 0, totalFrames := 0, bytesRem := 0, correctedTotal := 0, cwDone := 0 } }) := rfl

/-- Settles O34: by the one test. -/
theorem streamDecBeginRule : Obligations.StreamDecBeginRule := by
  refine ⟨decode_encode .streamDecBegin, fun s => ⟨fun hp => ?_, fun hp => ?_⟩⟩
  · exact endsInError_of_pre (exec_streamDecBegin s) (by rw [streamDecBeginPre_eq, if_pos hp])
  · have hexec := exec_streamDecBegin s
    rw [streamDecBeginPre_eq, if_neg (not_not_intro hp), orRaise_none] at hexec
    exact endsOk_of_complete hexec rfl ⟨⟨rfl, rfl⟩, rfl, fun _ => rfl, rfl⟩

/-! STREAM_DEC_FRAME: the preconditions (R292). -/

theorem streamDecFramePre_outside {s : State} (hp : s.seq.phase ∉ [Phase.decHeader, .decPayload]) :
    streamDecFramePre s = some .sequence := by
  unfold streamDecFramePre
  cases h : s.seq.phase
  case decHeader | decPayload => simp [h] at hp
  all_goals rfl

/-- Two ranges tested one after the other. -/
theorem firstError_range_range (a n a' n' : Nat) (e : ErrCode) :
    firstError [(!checkRange a n, e), (!checkRange a' n', e)] =
      if checkRange a n = true ∧ checkRange a' n' = true then none else some e := by
  cases checkRange a n <;> cases checkRange a' n' <;> rfl

theorem streamDecFramePre_header {s : State} (hp : s.seq.phase = .decHeader) : streamDecFramePre s =
    if checkRange (argSrc s) 24883200 = true ∧ checkRange (argDst s) 112 = true then none else some .bus := by
  rw [streamDecFramePre, hp]
  exact firstError_range_range ..

theorem streamDecFramePre_payload {s : State} (hp : s.seq.phase = .decPayload) : streamDecFramePre s =
    if checkRange (argSrc s) 24883200 = true ∧ checkRange (argDst s) (payloadChunk s) = true then none else some .bus := by
  rw [streamDecFramePre, hp]
  exact firstError_range_range ..

theorem exec_streamDecFrame (s : State) : exec .streamDecFrame s =
    .next (orRaise (streamDecFramePre s) s fun s =>
      if s.seq.phase = .decHeader then decodeHeaderFrame s else decodePayloadFrame s) := rfl

theorem exec_streamDecFrame_header {s : State} (hp : s.seq.phase = .decHeader) (hpre : streamDecFramePre s = none) :
    exec .streamDecFrame s = .next (decodeHeaderFrame s) := by
  rw [exec_streamDecFrame, hpre, orRaise_none, if_pos hp]

theorem exec_streamDecFrame_payload {s : State} (hp : s.seq.phase = .decPayload) (hpre : streamDecFramePre s = none) :
    exec .streamDecFrame s = .next (decodePayloadFrame s) := by
  rw [exec_streamDecFrame, hpre, orRaise_none, if_neg (by simp [hp])]

/-- Settles O35: by the chain of tests of the phase. -/
theorem streamDecFramePreconditions : Obligations.StreamDecFramePreconditions := by
  refine fun s => ⟨fun hp => ?_, fun hp h => ?_, fun hp h => ?_⟩
  · exact endsInError_of_pre (exec_streamDecFrame s) (streamDecFramePre_outside hp)
  · exact endsInError_of_pre (exec_streamDecFrame s) (by
      rw [streamDecFramePre_header hp, if_neg (by simpa only [checkRange_iff] using h)])
  · exact endsInError_of_pre (exec_streamDecFrame s) (by
      rw [streamDecFramePre_payload hp, if_neg (by simpa only [checkRange_iff] using h)])

/-! A header frame (R276, R292). -/

/-- An error of ParseHeader fails the stream. -/
theorem endsFailingStream_of_parseHeader {s : State} {e : ErrCode}
    (hexec : exec .streamDecFrame s = .next (decodeHeaderFrame s))
    (h : parseHeader s.vote (frameAt s.mem (argSrc s)) = .error e) : EndsFailingStream (exec .streamDecFrame s) s e := by
  rw [hexec, decodeHeaderFrame, h]
  exact failStream_endsFailingStream e s

/-- No more symbols are corrected than the word has. -/
theorem rsDec_corrected_le {r : List Byte} {p : Nat} {era : List Nat} {ok : RsResult} (h : rsDec r p era = some ok) :
    ok.corrected ≤ r.length := by
  obtain ⟨c, -, -, -, rfl⟩ := rsDec_cases h
  exact List.countP_le_length.trans (List.length_zip.trans_le (Nat.min_le_right ..))

/-- Settles O36: by ParseHeader's tests, in order. -/
theorem streamDecFrameHeader : Obligations.StreamDecFrameHeader := by
  intro s hp hsrc hdst buf word
  have hexec := exec_streamDecFrame_header hp (by
    rw [streamDecFramePre_header hp, if_pos ⟨(checkRange_iff _ _).2 hsrc, (checkRange_iff _ _).2 hdst⟩])
  have hword : slice (unpackFrame headerGeometry s.vote (frameAt s.mem (argSrc s))) 0 Config.cwLen = word := by
    rw [headerGeometry_eq]
    rfl
  refine ⟨fun h => endsFailingStream_of_parseHeader hexec (parseHeader_fail (hword.symm ▸ h)), fun ok hok => ?_⟩
  intro hdr cfg pf plen badMagic badVersion malformed
  have hdec := hok
  rw [← hword] at hdec
  have hchain := headerError_eq (d := ok.data) (hdr := hdr) rfl
  refine ⟨fun hm => ?_, fun hm hv => ?_, fun hm hv hbad => ?_, fun hm hv hbad => ?_⟩
  · exact endsFailingStream_of_parseHeader hexec (parseHeader_error hdec (hchain.trans (if_pos hm)))
  · exact endsFailingStream_of_parseHeader hexec (parseHeader_error hdec (by rw [hchain, if_neg hm, if_pos hv]))
  · exact endsFailingStream_of_parseHeader hexec (parseHeader_error hdec (by
      rw [hchain, if_neg hm, if_neg hv]; exact if_pos hbad))
  · have hparse := parseHeader_ok hdec (by rw [hchain, if_neg hm, if_neg hv]; exact if_neg hbad)
    rw [decodeHeaderFrame, hparse] at hexec
    have hcorr : ok.corrected < 2 ^ 32 := by
      have hle := rsDec_corrected_le hok
      have hlen : word.length ≤ 255 := List.length_take_le ..
      omega
    have hpf : pf ≤ 2 ^ 32 - 2 := Nat.le_of_not_lt fun h => hbad (.inr (.inr (.inr (.inr (.inr h)))))
    refine endsOk_of_complete hexec rfl ⟨rfl, write_storesAt rfl, rfl, rfl, ?_, ?_, rfl, ?_, rfl, rfl⟩
    · exact toNat_ofNat_of_lt (show 1 + pf < 2 ^ 32 by omega)
    · exact toNat_ofNat_of_lt (recordPayloadLen_lt hdr)
    · exact toNat_ofNat_of_lt hcorr

/-! A payload frame (R292). -/

/-- The slots decode when each of them does. -/
theorem decodeSlots_eq_some {p : Nat} {buf : List Byte} {js : List Nat} {oks : List RsResult}
    (h : js.map (fun j => rsDec (slot buf j) p []) = oks.map some) : decodeSlots p buf js = some oks := by
  induction js generalizing oks with
  | nil =>
    obtain rfl := List.map_eq_nil_iff.1 h.symm
    rfl
  | cons j js ih =>
    obtain _ | ⟨ok, oks⟩ := oks
    · cases h
    · rw [List.map_cons, List.map_cons, List.cons.injEq] at h
      obtain ⟨hj, hjs⟩ := h
      rw [decodeSlots, hj]
      simp only [ih hjs, Option.map_some]

/-- One slot that fails fails them all. -/
theorem decodeSlots_eq_none {p : Nat} {buf : List Byte} {js : List Nat} {j : Nat} (hj : j ∈ js)
    (h : rsDec (slot buf j) p [] = none) : decodeSlots p buf js = none := by
  induction js with
  | nil => cases hj
  | cons i js ih =>
    rw [decodeSlots]
    rcases List.mem_cons.1 hj with rfl | hj
    · rw [h]
    · rw [ih hj]
      cases rsDec (slot buf i) p [] <;> rfl

section
variable {s : State} {c : ConfigRecord} {cnt : Nat} (hc : s.act = some c) (hcnt : payloadChunk s = cnt)
include hc hcnt

theorem decodePayloadFrame_of_none
    (h : decodeSlots (configGeometry c).p (unpackFrame (configGeometry c) s.vote (frameAt s.mem (argSrc s)))
      (List.range (ceilDiv cnt (configGeometry c).k)) = none) :
    decodePayloadFrame s = failStream .eccUncorrectable s := by
  simp only [decodePayloadFrame, activeGeometry_of_act hc, hcnt, h]

theorem decodePayloadFrame_of_some {oks : List RsResult}
    (h : decodeSlots (configGeometry c).p (unpackFrame (configGeometry c) s.vote (frameAt s.mem (argSrc s)))
      (List.range (ceilDiv cnt (configGeometry c).k)) = some oks) :
    decodePayloadFrame s = complete s.seq.frameIdx.toNat cnt (correctedSum oks)
      { s with
        mem := Memory.write s.mem (argDst s) ((decodedBytes oks).take cnt)
        seq := advanceSeq s.seq cnt (ceilDiv cnt (configGeometry c).k) (correctedSum oks) } := by
  simp only [decodePayloadFrame, activeGeometry_of_act hc, hcnt, h]

end

/-- Settles O37: by what the slots decode to; the counters stay in their registers' range. -/
theorem streamDecFramePayload : Obligations.StreamDecFramePayload := by
  intro s c hinv hp hc cnt u buf hsrc hdst
  have hchunk : payloadChunk s = cnt := payloadChunk_of_act hc
  have hexec := exec_streamDecFrame_payload hp (by
    rw [streamDecFramePre_payload hp, hchunk, if_pos ⟨(checkRange_iff _ _).2 hsrc, (checkRange_iff _ _).2 hdst⟩])
  refine ⟨fun ⟨j, hj, hfail⟩ => ?_, fun oks hlen hoks => ?_⟩
  · rw [hexec, decodePayloadFrame_of_none hc hchunk (decodeSlots_eq_none (List.mem_range.2 hj) hfail)]
    exact failStream_endsFailingStream _ s
  · have hslots : (List.range u).map (fun j => rsDec (slot buf j) c.eccParity.toNat []) = oks.map some := by
      refine List.ext_getElem (by simp [hlen]) fun j hj hj' => ?_
      rw [List.length_map] at hj'
      rw [List.getElem_map, List.getElem_range, List.getElem_map]
      exact (hoks j (hlen ▸ hj')).trans (List.getElem?_eq_getElem hj')
    rw [decodePayloadFrame_of_some hc hchunk (decodeSlots_eq_some hslots)] at hexec
    refine endsOk_of_complete hexec rfl ⟨⟨rfl, rfl⟩, rfl, write_storesAt rfl, toNat_bytesRem_sub _ _, toNat_sat32 _,
      toNat_sat32 _, toNat_frameIdx_succ hinv (.inr hp), rfl, ?_⟩
    rw [← hp]
    rfl

/-! The round trip of a payload frame. -/

theorem EndsOk.mono {o : Host.Outcome State Fault Refusal} {s : State} {r0 r1 r2 : Nat} {P Q : State → Prop}
    (h : EndsOk o s r0 r1 r2 P) (hPQ : ∀ t, P t → Q t) : EndsOk o s r0 r1 r2 Q := by
  obtain ⟨t, ho, hok, hkeeps, hP⟩ := h
  exact ⟨t, ho, hok, hkeeps, hPQ t hP⟩

/-- What the slots of an undisturbed payload frame decode to. -/
def payloadResults (g : Geometry) (d : List Byte) : List RsResult :=
  (List.range (ceilDiv d.length g.k)).map fun j => { data := payloadData g d j, corrected := 0, errors := 0 }

@[simp] theorem length_payloadResults (g : Geometry) (d : List Byte) :
    (payloadResults g d).length = ceilDiv d.length g.k := by simp [payloadResults]

theorem sum_corrected_payloadResults (g : Geometry) (d : List Byte) :
    ((payloadResults g d).map (·.corrected)).sum = 0 := by simp [payloadResults, Function.comp_def]

theorem take_flatten_payloadResults {g : Geometry} (hk : 0 < g.k) (d : List Byte) :
    (((payloadResults g d).map (·.data)).flatten).take d.length = d := by
  rw [payloadResults, List.map_map]
  exact take_flatten_payloadData hk

theorem rsDec_slot_payloadCodewords {g : Geometry} (hk : 0 < g.k) (hp : g.k + g.p = 255) {d : List Byte} {j : Nat}
    (hj : j < ceilDiv d.length g.k) :
    rsDec (slot (placeSlots g (payloadCodewords g d)) j) g.p [] = (payloadResults g d)[j]? := by
  rw [slot_payloadCodewords hk hp hj, rsDec_rsEnc]
  simp [payloadResults, hj]

/-- The buffer of an encoder's payload frame, unpacked (R241). -/
theorem unpackFrame_payloadFrame {c : ConfigRecord} {d : List Byte} (hv : validate c = none)
    (hfit : ceilDiv d.length (dataBytes c) ≤ codewordsPerFrame c) (vote : VoteMode) {frame : Nat → Byte}
    (hframe : ∀ o, o < 24883200 → frame o = (payloadFrame (configGeometry c) d).getD o 0) :
    unpackFrame (configGeometry c) vote frame = placeSlots (configGeometry c) (payloadCodewords (configGeometry c) d) := by
  refine unpackFrame_packed (configGeometry_tiles hv) vote _ (fun o ho => ?_) (length_placeSlots_payloadCodewords hv hfit)
  rw [hframe o (frameLen_configGeometry c ▸ ho), payloadFrame, getD_packFrame _ ho]

/-- Settles O41: every slot decodes to its codeword's data, with nothing corrected. -/
theorem payloadFrameRoundTrip : Obligations.PayloadFrameRoundTrip := by
  intro s c d hinv hp hc hlen hsrc hdst hframe
  have hv := hinv.act c hc
  have hk := configGeometry_k_pos hv
  have hfit : ceilDiv d.length (dataBytes c) ≤ codewordsPerFrame c := by
    rw [hlen]
    exact ceilDiv_chunk_le hv _
  obtain ⟨-, hok⟩ := streamDecFramePayload s c hinv hp hc hsrc (hlen ▸ hdst)
  simp only [← hlen] at hok
  have hend := hok (payloadResults (configGeometry c) d) (length_payloadResults ..) fun j hj => by
    rw [unpackFrame_payloadFrame hv hfit s.vote hframe]
    exact rsDec_slot_payloadCodewords hk (configGeometry_k_add_p hv) hj
  rw [sum_corrected_payloadResults, take_flatten_payloadResults hk] at hend
  exact hend.mono fun t ⟨hconfig, hhb, hstore, _⟩ => ⟨hconfig, hhb, hstore⟩

end Sys2Proof.Machine
end

section
/-! STREAM_END and STREAM_ABORT (44_stream.md R296, R297), and the phase table over all commands (R270). -/

namespace Sys2Proof.Machine

/-! STREAM_END (R296). -/

theorem exec_streamEnd_resting {s : State} (hp : s.seq.phase ∈ [Phase.idle, .failed]) :
    exec .streamEnd s = .next (raise .sequence s) := by
  simp only [List.mem_cons, List.not_mem_nil, or_false] at hp
  rcases hp with hp | hp <;> simp only [exec, execStreamEnd, streamEndPre, hp, orRaise_some]

theorem exec_streamEnd_done {s : State} (hp : s.seq.phase = .done) : exec .streamEnd s =
    .next (complete s.seq.totalFrames.toNat 0 0 { s with seq := { s.seq with phase := .idle } }) := by
  simp only [exec, execStreamEnd, streamEndPre, hp, orRaise_none]

theorem exec_streamEnd_decoding {s : State} (hp : s.seq.phase ∈ [Phase.decHeader, .decPayload]) :
    exec .streamEnd s = .next (failStream .formatTruncated s) := by
  simp only [List.mem_cons, List.not_mem_nil, or_false] at hp
  rcases hp with hp | hp <;> simp only [exec, execStreamEnd, streamEndPre, hp, orRaise_none]

theorem exec_streamEnd_encoding {s : State} (hp : s.seq.phase ∈ [Phase.encHeader, .encPayload]) :
    exec .streamEnd s = .next (failStream .streamIncomplete s) := by
  simp only [List.mem_cons, List.not_mem_nil, or_false] at hp
  rcases hp with hp | hp <;> simp only [exec, execStreamEnd, streamEndPre, hp, orRaise_none]

/-- Settles O38: one rule per class of phases. -/
theorem streamEndRule : Obligations.StreamEndRule := by
  refine ⟨decode_encode .streamEnd, fun s => ⟨fun hp => ?_, fun hp => ?_, fun hp => ?_, fun hp => ?_⟩⟩
  · exact endsInError_of_raise (exec_streamEnd_resting hp)
  · exact endsOk_of_complete (exec_streamEnd_done hp) rfl ⟨⟨rfl, rfl⟩, rfl, fun _ => rfl, rfl⟩
  · exact exec_streamEnd_decoding hp ▸ failStream_endsFailingStream .formatTruncated s
  · exact exec_streamEnd_encoding hp ▸ failStream_endsFailingStream .streamIncomplete s

/-! STREAM_ABORT (R297). -/

theorem exec_streamAbort (s : State) :
    exec .streamAbort s = .next (complete 0 0 0 { s with seq := { s.seq with phase := .idle } }) := rfl

/-- Settles O39. -/
theorem streamAbortRule : Obligations.StreamAbortRule :=
  ⟨decode_encode .streamAbort, fun s => endsOk_of_complete (exec_streamAbort s) rfl ⟨⟨rfl, rfl⟩, rfl, fun _ => rfl, rfl⟩⟩

/-! The phase table (R270). -/

/-- A precondition that names an error is how the command ends (R323, R326). -/
theorem exec_of_commandPre_some {i : Instr} {s : State} {e : ErrCode} (h : commandPre i s = some e) :
    exec i s = .next (raise e s) := by
  cases i
  case nop | streamAbort => cases h
  all_goals exact congrArg (fun pre => Host.Outcome.next (orRaise pre s _)) h

theorem firstError_ne_none {l : List (Bool × ErrCode)} (h : ∀ x ∈ l, x.2 ≠ .none) : firstError l ≠ some .none := by
  induction l with
  | nil => nofun
  | cons x l ih =>
    obtain ⟨b, e⟩ := x
    obtain ⟨he, hl⟩ := List.forall_mem_cons.1 h
    cases b
    · exact ih hl
    · exact fun hn => he (Option.some.inj hn)

/-- No precondition names the code of success. -/
theorem commandPre_ne_none (i : Instr) (s : State) : commandPre i s ≠ some .none := by
  cases i
  case nop | streamAbort => nofun
  case streamEncFrame =>
    rw [commandPre, streamEncFramePre]
    cases s.seq.phase
    case encHeader | encPayload => exact firstError_ne_none (by simp)
    all_goals nofun
  case streamDecFrame =>
    rw [commandPre, streamDecFramePre]
    cases s.seq.phase
    case decHeader | decPayload => exact firstError_ne_none (by simp)
    all_goals nofun
  case streamEnd =>
    rw [commandPre, streamEndPre]
    cases s.seq.phase <;> nofun
  all_goals exact firstError_ne_none (by simp)

/-- Where the table has "-" the command's precondition names SEQUENCE, or NOT_CONFIGURED before it (R323). -/
theorem commandPre_of_no_phase {i : Instr} {s : State} (h : phaseTable i s.seq.phase = []) :
    commandPre i s = some .sequence ∨
      (i = .streamEncBegin ∧ s.act = none ∧ commandPre i s = some .notConfigured) := by
  cases i
  case cfgCommit =>
    have hactive : ∀ q, phaseTable .cfgCommit q = [] → streamActive q = true := by intro q; cases q <;> decide
    exact .inl (by rw [commandPre, cfgCommitPre, hactive _ h, firstError_true])
  case streamEncBegin =>
    have hphase : ∀ q, phaseTable .streamEncBegin q = [] → q ∉ [Phase.idle, .done, .failed] := by
      intro q; cases q <;> decide
    cases hc : s.act with
    | none => exact .inr ⟨rfl, rfl, firstError_cfgValid_none hc _⟩
    | some c => exact .inl ((streamEncBeginPre_of_act hc).trans (if_pos (hphase _ h)))
  case streamEncFrame =>
    have hphase : ∀ q, phaseTable .streamEncFrame q = [] → q ∉ [Phase.encHeader, .encPayload] := by
      intro q; cases q <;> decide
    exact .inl (streamEncFramePre_outside (hphase _ h))
  case streamDecBegin =>
    have hphase : ∀ q, phaseTable .streamDecBegin q = [] → q ∉ [Phase.idle, .done, .failed] := by
      intro q; cases q <;> decide
    exact .inl ((streamDecBeginPre_eq s).trans (if_pos (hphase _ h)))
  case streamDecFrame =>
    have hphase : ∀ q, phaseTable .streamDecFrame q = [] → q ∉ [Phase.decHeader, .decPayload] := by
      intro q; cases q <;> decide
    exact .inl (streamDecFramePre_outside (hphase _ h))
  case streamEnd =>
    cases hp : s.seq.phase <;> rw [hp] at h
    case idle | failed => exact .inl (by rw [commandPre, streamEndPre, hp])
    all_goals cases h
  all_goals cases h

/-- A command ends as the table says: in a phase of its row, or in error with the sequencer unchanged. -/
def FollowsTable (i : Instr) (s t : State) : Prop :=
  t.seq.phase ∈ phaseTable i s.seq.phase ∨ (t.seq = s.seq ∧ t.errCode ≠ .none)

theorem followsTable_orRaise {i : Instr} {s : State} {pre : Option ErrCode} {go : State → State} (hpre : pre ≠ some .none)
    (h : pre = none → FollowsTable i s (go s)) : FollowsTable i s (orRaise pre s go) :=
  orRaise_ind (fun _ he => .inr ⟨rfl, fun hn => hpre (he.trans (congrArg some hn))⟩) h

/-- The commands of the stream, whose effects move the phase. -/
def streamCommands : List Instr :=
  [.streamEncBegin, .streamEncFrame, .streamDecBegin, .streamDecFrame, .streamEnd, .streamAbort]

/-- An effect of a command outside the stream keeps the sequencer. -/
theorem Effect.seq_of_outside {i : Instr} {s u : State} {e : ErrCode} (h : Effect s i e u) (hi : i ∉ streamCommands) :
    u.seq = s.seq := by
  cases h
  case keeps | commits | stores => rfl
  case advances hp _ => rcases hp with ⟨rfl, -⟩ | ⟨rfl, -⟩ <;> exact absurd (by decide) hi
  case fails hcmd => rcases hcmd with rfl | rfl <;> exact absurd (by decide) hi
  case idles hcmd => rcases hcmd with rfl | rfl <;> exact absurd (by decide) hi
  all_goals exact absurd (by decide) hi

/-- The table keeps the phase of a command outside the stream that its precondition lets pass. -/
theorem phaseTable_of_outside {i : Instr} {s : State} (hi : i ∉ streamCommands) (hpre : commandPre i s = none) :
    phaseTable i s.seq.phase = [s.seq.phase] := by
  cases i
  case cfgCommit =>
    have hrow : ∀ q, q ∉ [Phase.encHeader, .encPayload, .decHeader, .decPayload] → phaseTable .cfgCommit q = [q] := by
      intro q; cases q <;> decide
    exact hrow _ (cfgCommitPre_eq_none.1 hpre)
  case streamEncBegin | streamEncFrame | streamDecBegin | streamDecFrame | streamEnd | streamAbort =>
    exact absurd (by decide) hi
  all_goals rfl

theorem followsTable_outside {i : Instr} {s t : State} (hi : i ∉ streamCommands) (hpre : commandPre i s = none)
    (h : exec i s = .next t) : FollowsTable i s t := by
  obtain ⟨e, irq, r0, r1, r2, u, heff, rfl⟩ := exec_ends h
  exact .inl (by rw [phaseTable_of_outside hi hpre, finish_seq, heff.seq_of_outside hi]; exact List.mem_singleton_self _)

theorem ite_mem_pair {α : Type} (p : Prop) [Decidable p] (a b : α) : (if p then a else b) ∈ [b, a] := by
  split <;> simp

theorem advanceSeq_phase_mem (q : Sequencer) (cnt u corrected : Nat) :
    (advanceSeq q cnt u corrected).phase ∈ [q.phase, .done] := ite_mem_pair ..

/-! The commands of the stream, behind their preconditions: each branch leaves a phase of the table. -/

theorem encodeHeaderFrame_phase (s : State) : (encodeHeaderFrame s).seq.phase ∈ [Phase.encPayload, .done] := ite_mem_pair ..

theorem encodePayloadFrame_phase (s : State) : (encodePayloadFrame s).seq.phase ∈ [s.seq.phase, .done] :=
  advanceSeq_phase_mem ..

theorem decodeHeaderFrame_phase (s : State) : (decodeHeaderFrame s).seq.phase ∈ [Phase.decPayload, .done, .failed] := by
  unfold decodeHeaderFrame
  split
  · simp
  · exact List.mem_append_left [Phase.failed] (ite_mem_pair ..)

theorem decodePayloadFrame_phase (s : State) : (decodePayloadFrame s).seq.phase ∈ [s.seq.phase, .done, .failed] := by
  dsimp only [decodePayloadFrame]
  split
  · simp
  · exact List.mem_append_left [Phase.failed] (advanceSeq_phase_mem ..)

theorem followsTable_streamEncBegin {s t : State} (hpre : commandPre .streamEncBegin s = none)
    (h : exec .streamEncBegin s = .next t) : FollowsTable .streamEncBegin s t := by
  obtain ⟨-, hp, -⟩ := streamEncBeginPre_eq_none.1 hpre
  have hrow : ∀ q ∈ [Phase.idle, .done, .failed], phaseTable .streamEncBegin q = [.encHeader] := by decide
  rw [exec_streamEncBegin, show streamEncBeginPre s = none from hpre, orRaise_none] at h
  obtain rfl := Host.Outcome.next.inj h
  refine followsTable_orRaise (firstError_ne_none (by simp)) fun _ => .inl ?_
  rw [hrow _ hp]
  exact List.mem_singleton_self _

theorem followsTable_streamEncFrame {s t : State} (hpre : commandPre .streamEncFrame s = none)
    (h : exec .streamEncFrame s = .next t) : FollowsTable .streamEncFrame s t := by
  rcases streamEncFramePre_phase hpre with hp | hp
  · obtain rfl := Host.Outcome.next.inj ((exec_streamEncFrame_header hp hpre).symm.trans h)
    exact .inl (hp ▸ encodeHeaderFrame_phase s)
  · obtain rfl := Host.Outcome.next.inj ((exec_streamEncFrame_payload hp hpre).symm.trans h)
    have hphase := encodePayloadFrame_phase s
    rw [hp] at hphase
    exact .inl (hp ▸ hphase)

theorem followsTable_streamDecBegin {s t : State} (hpre : commandPre .streamDecBegin s = none)
    (h : exec .streamDecBegin s = .next t) : FollowsTable .streamDecBegin s t := by
  have hrow : ∀ q, (!mayBegin q) = false → phaseTable .streamDecBegin q = [.decHeader] := by intro q; cases q <;> decide
  rw [exec_streamDecBegin, show streamDecBeginPre s = none from hpre, orRaise_none] at h
  obtain rfl := Host.Outcome.next.inj h
  refine .inl ?_
  rw [hrow _ (firstError_cons_eq_none.1 hpre).1]
  exact List.mem_singleton_self _

theorem followsTable_streamDecFrame {s t : State} (hpre : commandPre .streamDecFrame s = none)
    (h : exec .streamDecFrame s = .next t) : FollowsTable .streamDecFrame s t := by
  rcases streamDecFramePre_phase hpre with hp | hp
  · obtain rfl := Host.Outcome.next.inj ((exec_streamDecFrame_header hp hpre).symm.trans h)
    exact .inl (hp ▸ decodeHeaderFrame_phase s)
  · obtain rfl := Host.Outcome.next.inj ((exec_streamDecFrame_payload hp hpre).symm.trans h)
    have hphase := decodePayloadFrame_phase s
    rw [hp] at hphase
    exact .inl (hp ▸ hphase)

theorem followsTable_streamEnd {s t : State} (hpre : commandPre .streamEnd s = none)
    (h : exec .streamEnd s = .next t) : FollowsTable .streamEnd s t := by
  cases hp : s.seq.phase
  case idle | failed => rw [commandPre, streamEndPre, hp] at hpre; cases hpre
  case done =>
    obtain rfl := Host.Outcome.next.inj ((exec_streamEnd_done hp).symm.trans h)
    exact .inl (hp ▸ List.mem_singleton_self _)
  case decHeader | decPayload =>
    obtain rfl := Host.Outcome.next.inj ((exec_streamEnd_decoding (by simp [hp])).symm.trans h)
    exact .inl (hp ▸ List.mem_singleton_self _)
  case encHeader | encPayload =>
    obtain rfl := Host.Outcome.next.inj ((exec_streamEnd_encoding (by simp [hp])).symm.trans h)
    exact .inl (hp ▸ List.mem_singleton_self _)

theorem followsTable_streamAbort {s t : State} (h : exec .streamAbort s = .next t) : FollowsTable .streamAbort s t := by
  obtain rfl := Host.Outcome.next.inj ((exec_streamAbort s).symm.trans h)
  exact .inl (List.mem_singleton_self _)

theorem exec_followsTable {i : Instr} {s t : State} (h : exec i s = .next t) : FollowsTable i s t := by
  cases hpre : commandPre i s with
  | some e =>
    obtain rfl := Host.Outcome.next.inj ((exec_of_commandPre_some hpre).symm.trans h)
    exact .inr ⟨rfl, fun hn => commandPre_ne_none i s (hpre.trans (congrArg some hn))⟩
  | none =>
    by_cases hi : i ∈ streamCommands
    · simp only [streamCommands, List.mem_cons, List.not_mem_nil, or_false] at hi
      rcases hi with rfl | rfl | rfl | rfl | rfl | rfl
      · exact followsTable_streamEncBegin hpre h
      · exact followsTable_streamEncFrame hpre h
      · exact followsTable_streamDecBegin hpre h
      · exact followsTable_streamDecFrame hpre h
      · exact followsTable_streamEnd hpre h
      · exact followsTable_streamAbort h
    · exact followsTable_outside hi hpre h

/-- Settles O42: by the precondition where the table has "-", else command by command. -/
theorem phaseTransitionsFollowTable : Obligations.PhaseTransitionsFollowTable := by
  refine fun i s t h => ⟨exec_followsTable h, fun hrow => (commandPre_of_no_phase hrow).imp (fun hpre => ?_)
    fun ⟨hi, hc, hpre⟩ => ⟨hi, hc, ?_⟩⟩
  all_goals exact endsInError_of_raise (exec_of_commandPre_some hpre)

end Sys2Proof.Machine
end

section
/-! Completions and faults over all commands and all steps (60_exceptions.md R320 to R333): every command ends with one of the two
completions, a failed one has written nothing, and only the host's operations stop a run. -/

namespace Sys2Proof.Machine

/-! Every command completes (R320). -/

/-- `t` ends what began in `s` with one completion: an error (R326), or a success (R325). -/
def Completes (s t : State) : Prop := (∃ e, e ≠ .none ∧ Failed s t e) ∨ ∃ r0 r1 r2, Succeeded s t r0 r1 r2

theorem completes_raise {e : ErrCode} (he : e ≠ .none) (s : State) : Completes s (raise e s) :=
  .inl ⟨e, he, raise_failed e s⟩

theorem completes_failStream {e : ErrCode} (he : e ≠ .none) (s : State) : Completes s (failStream e s) :=
  .inl ⟨e, he, rfl, rfl, rfl, rfl, rfl, rfl⟩

theorem completes_complete {s u : State} {r0 r1 r2 : Nat} (hirq : u.irqStatus = s.irqStatus := by rfl) :
    Completes s (complete r0 r1 r2 u) :=
  .inr ⟨r0, r1, r2, { complete_succeeded r0 r1 r2 u with irqStatus := by rw [complete_irqStatus, hirq] }⟩

theorem completes_orRaise {s : State} {pre : Option ErrCode} {go : State → State} (hpre : pre ≠ some .none)
    (hgo : Completes s (go s)) : Completes s (orRaise pre s go) :=
  orRaise_ind (fun _ he => completes_raise (fun hn => hpre (he.trans (congrArg some hn))) s) fun _ => hgo

/-! The tests behind the preconditions name an error too. -/

theorem validate_ne_some_none (c : ConfigRecord) : validate c ≠ some .none := firstError_ne_none (by simp)

theorem rsDecodeListPre_ne_some_none (s : State) : rsDecodeListPre s ≠ some .none := firstError_ne_none (by simp)

theorem streamEncBeginRecordPre_ne_some_none (s : State) : streamEncBeginRecordPre s ≠ some .none :=
  firstError_ne_none (by simp)

theorem headerError_ne_some_none (d : List Byte) : headerError d ≠ some .none := firstError_ne_none (by simp)

theorem parseHeader_ne_error_none (vote : VoteMode) (frame : Nat → Byte) : parseHeader vote frame ≠ .error .none := by
  cases hd : rsDec (slice (unpackFrame headerGeometry vote frame) 0 Config.cwLen) Config.hdrParity [] with
  | none => rw [parseHeader_fail hd]; nofun
  | some ok =>
    cases he : headerError ok.data with
    | none => rw [parseHeader_ok hd he]; nofun
    | some e =>
      rw [parseHeader_error hd he]
      exact fun h => headerError_ne_some_none _ (he.trans (congrArg some (Except.error.inj h)))

theorem completes_decodeHeaderFrame (s : State) : Completes s (decodeHeaderFrame s) := by
  unfold decodeHeaderFrame
  cases hparse : parseHeader s.vote (frameAt s.mem (argSrc s)) with
  | error e => exact completes_failStream (fun he => parseHeader_ne_error_none _ _ (he ▸ hparse)) s
  | ok r => exact completes_complete

theorem completes_decodePayloadFrame (s : State) : Completes s (decodePayloadFrame s) := by
  dsimp only [decodePayloadFrame]
  split
  · exact completes_failStream (by decide) s
  · exact completes_complete

theorem exec_completes (i : Instr) (s : State) : ∃ t, exec i s = .next t ∧ Completes s t := by
  have hpre := commandPre_ne_none i s
  cases i <;> refine ⟨_, rfl, ?_⟩
  case nop | streamAbort => exact completes_complete
  case cfgCommit =>
    exact completes_orRaise hpre (completes_orRaise (validate_ne_some_none _) completes_complete)
  case rsDecode =>
    refine completes_orRaise hpre (completes_orRaise (rsDecodeListPre_ne_some_none s) ?_)
    split
    · exact completes_raise (by decide) s
    · exact completes_complete
  case streamEncBegin =>
    exact completes_orRaise hpre
      (completes_orRaise (streamEncBeginRecordPre_ne_some_none s) completes_complete)
  case streamEncFrame =>
    refine completes_orRaise hpre ?_
    split <;> exact completes_complete
  case streamDecFrame =>
    refine completes_orRaise hpre ?_
    split
    · exact completes_decodeHeaderFrame s
    · exact completes_decodePayloadFrame s
  case streamEnd =>
    refine completes_orRaise hpre ?_
    cases s.seq.phase
    case idle | done | failed => exact completes_complete
    all_goals exact completes_failStream (by decide) s
  case rsEncode | quant | dequant | dequantBlock | packFrame | unpackFrame | streamDecBegin =>
    exact completes_orRaise hpre completes_complete

/-- Settles O6, command by command. -/
theorem everyCommandEndsWithOneCompletion : Obligations.EveryCommandEndsWithOneCompletion := exec_completes

/-! A failed command (R326, R327). -/

/-- An effect that ends in error is none, or the phase moved to FAILED. -/
theorem Effect.of_error {s u : State} {i : Instr} {e : ErrCode} (h : Effect s i e u) (he : e ≠ .none) :
    u = s ∨ ((i = .streamDecFrame ∨ i = .streamEnd) ∧ u = { s with seq := { s.seq with phase := .failed } }) := by
  cases h
  case keeps => exact .inl rfl
  case fails hi => exact .inr ⟨hi, rfl⟩
  all_goals exact absurd rfl he

/-- Settles O43: a completion writes none of these fields, so it is what the effect of an error leaves. -/
theorem failedCommandChangesNothingElse : Obligations.FailedCommandChangesNothingElse := by
  intro i s t h he
  obtain ⟨e, irq, r0, r1, r2, u, heff, rfl⟩ := exec_ends h
  rcases heff.of_error he with rfl | ⟨hi, rfl⟩
  · exact ⟨rfl, ⟨rfl, rfl⟩, rfl, .inl rfl⟩
  · exact ⟨rfl, ⟨rfl, rfl⟩, rfl, .inr ⟨hi, rfl⟩⟩

/-! The faults of a step (R333). -/

/-- `HostFault fs op f`: with the flights `fs`, the host's operation `op` has a cause of the fault `f`. -/
inductive HostFault (fs : List Flight) : HostOp → Fault → Prop
  /-- a register access of another width or alignment (R86) -/
  | badAccess {op : HostOp} {off : BitVec 8} {width : Nat} (hop : op = .regRead off width ∨ ∃ v, op = .regWrite off width v)
    (h : width ≠ 32 ∨ off.toNat % 4 ≠ 0) : HostFault fs op .hostBusError
  /-- a memory access that leaves system memory (R80, log 10) -/
  | leavesMemory {op : HostOp} {a : Word} {n : Nat} (hop : op = .memLoad a n ∨ ∃ bs, op = .memStore a bs ∧ bs.length = n)
    (h : ¬InMemory a.toNat n) : HostFault fs op .noSuchAddress
  /-- a store of a byte that a flight reads or writes (R91) -/
  | storeMeets {a : Word} {bs : List Byte} {fl : Flight} {r : MemRange} (hf : fl ∈ fs)
    (hr : r ∈ fl.ranges.reads ∨ r ∈ fl.ranges.writes) (h : ¬Apart a.toNat bs.length r) :
    HostFault fs (.memStore a bs) .hostDataRace
  /-- a load of a byte that a flight writes (R91) -/
  | loadMeets {a : Word} {n : Nat} {fl : Flight} {r : MemRange} (hf : fl ∈ fs) (hr : r ∈ fl.ranges.writes)
    (h : ¬Apart a.toNat n r) : HostFault fs (.memLoad a n) .hostDataRace

/-- An access and a range that are not apart share a byte. -/
theorem exists_shared_of_not_apart {a n : Nat} {r : MemRange} (h : ¬Apart a n r) :
    ∃ x, r.base ≤ x ∧ x < r.base + r.len ∧ a ≤ x ∧ x < a + n := by
  simp only [Apart, not_forall, not_or, Nat.not_lt, Nat.not_le] at h
  obtain ⟨x, ha, hn, hb, hx⟩ := h
  exact ⟨x, hb, hx, ha, hn⟩

/-- What `step` and the operations under it answer: a next state, or a fault with the cause `P`; never a refusal. -/
def NextOrFault (P : Fault → Prop) (o : Host.Outcome State Fault Refusal) : Prop :=
  (∃ t, o = .next t) ∨ ∃ f, o = .fault f ∧ P f

theorem NextOrFault.imp {P Q : Fault → Prop} {o : Host.Outcome State Fault Refusal} (h : NextOrFault P o)
    (hpq : ∀ f, P f → Q f) : NextOrFault Q o :=
  Or.imp_right (fun ⟨f, hf, hp⟩ => ⟨f, hf, hpq f hp⟩) h

theorem accessLegal_eq_false {off : BitVec 8} {width : Nat} :
    accessLegal off width = false ↔ width ≠ 32 ∨ off.toNat % 4 ≠ 0 := by
  rw [← Bool.not_eq_true, accessLegal_iff, Classical.not_and_iff_not_or_not]

theorem hostStore_leaves {a : Nat} {bs : List Byte} (h : ¬InMemory a bs.length) (s : State) :
    hostStore a bs s = .fault .noSuchAddress := by
  simp [hostStore, mt (checkRange_iff _ _).1 h]

theorem hostLoad_leaves {a : Word} {n : Nat} (h : ¬InMemory a.toNat n) (s : State) : hostLoad a n s = .fault .noSuchAddress := by
  simp [hostLoad, mt (checkRange_iff _ _).1 h]

theorem exists_range_of_storeRaces {s : State} {a n : Nat} (h : storeRaces s a n = true) :
    ∃ fl ∈ s.inFlight, ∃ r, (r ∈ fl.ranges.reads ∨ r ∈ fl.ranges.writes) ∧ ¬Apart a n r := by
  by_contra hc
  push Not at hc
  exact ne_true_of_eq_false (storeRaces_eq_false.2 hc) h

theorem exists_range_of_loadRaces {s : State} {a n : Nat} (h : loadRaces s a n = true) :
    ∃ fl ∈ s.inFlight, ∃ r ∈ fl.ranges.writes, ¬Apart a n r := by
  by_contra hc
  push Not at hc
  exact ne_true_of_eq_false (loadRaces_eq_false.2 hc) h

theorem hostStore_nextOrFault (a : Word) (bs : List Byte) (s : State) :
    NextOrFault (HostFault s.inFlight (.memStore a bs)) (hostStore a.toNat bs s) := by
  by_cases hm : InMemory a.toNat bs.length
  · have hc := (checkRange_iff _ _).2 hm
    cases hr : storeRaces s a.toNat bs.length with
    | false => exact .inl ⟨_, hostStore_next hc hr⟩
    | true =>
      obtain ⟨fl, hf, r, hrange, hshared⟩ := exists_range_of_storeRaces hr
      exact .inr ⟨_, hostStore_races hc hr, .storeMeets hf hrange hshared⟩
  · exact .inr ⟨_, hostStore_leaves hm s, .leavesMemory (.inr ⟨bs, rfl, rfl⟩) hm⟩

theorem hostLoad_nextOrFault (a : Word) (n : Nat) (s : State) :
    NextOrFault (HostFault s.inFlight (.memLoad a n)) (hostLoad a n s) := by
  by_cases hm : InMemory a.toNat n
  · have hc := (checkRange_iff _ _).2 hm
    cases hr : loadRaces s a.toNat n with
    | false => exact .inl ⟨_, hostLoad_next hc hr⟩
    | true =>
      obtain ⟨fl, hf, r, hrange, hshared⟩ := exists_range_of_loadRaces hr
      exact .inr ⟨_, hostLoad_races hc hr, .loadMeets hf hrange hshared⟩
  · exact .inr ⟨_, hostLoad_leaves hm s, .leavesMemory (.inl rfl) hm⟩

theorem runHostOp_nextOrFault (op : HostOp) (s : State) : NextOrFault (HostFault s.inFlight op) (runHostOp op s) := by
  cases op
  case regRead off width =>
    cases hl : accessLegal off width with
    | true => exact .inl ⟨_, runHostOp_regRead hl s⟩
    | false => exact .inr ⟨_, (runHostOp_illegal hl s).1, .badAccess (.inl rfl) (accessLegal_eq_false.1 hl)⟩
  case regWrite off width v =>
    cases hl : accessLegal off width with
    | true => exact .inl ⟨_, runHostOp_regWrite hl v s⟩
    | false => exact .inr ⟨_, (runHostOp_illegal hl s).2 v, .badAccess (.inr ⟨v, rfl⟩) (accessLegal_eq_false.1 hl)⟩
  case memStore a bs => exact hostStore_nextOrFault a bs s
  case memLoad a n => exact hostLoad_nextOrFault a n s
  case wait | takeIrq | assertReset | releaseReset | hwReset => exact .inl ⟨_, rfl⟩

/-- The engine's step ends with a next state: no command and no illegal word stops the block (R320, R333). -/
theorem engineStep_next (s : State) : ∃ t, engineStep s = .next t := by
  cases hs : s.pending with
  | none => exact ⟨s, engineStep_idle hs⟩
  | some w =>
    rw [engineStep_busy hs]
    cases hw : decode w with
    | none => exact ⟨_, runWord_illegal hw s⟩
    | some i =>
      obtain ⟨t, ht, -⟩ := exec_completes i s
      exact ⟨t, (runWord_legal hw s).trans ht⟩

/-- The first operation of the host's program has a cause of the fault `f`. -/
def HostStepFault (s : State) (f : Fault) : Prop := ∃ op, s.host.head? = some op ∧ HostFault s.inFlight op f

theorem hostStep_nextOrFault (s : State) : NextOrFault (HostStepFault s) (hostStep s) := by
  cases hh : s.host with
  | nil => exact .inl ⟨s, hostStep_nil hh⟩
  | cons op ops =>
    rw [hostStep_cons hh]
    exact (runHostOp_nextOrFault op { s with host := ops }).imp fun f hcause => ⟨op, by rw [hh, List.head?_cons], hcause⟩

/-- The host moves: the schedule does not name the engine, and where it names nobody no command is pending (log 1). -/
def HostMoves (s : State) : Prop := s.sched.head? ≠ some .engine ∧ (s.sched = [] → s.pending = none)

theorem step_nextOrFault (s : State) : NextOrFault (fun f => HostMoves s ∧ HostStepFault s f) (step s) := by
  cases hs : s.sched with
  | nil =>
    cases hp : s.pending with
    | none =>
      rw [step_unscheduled_idle hs (busy_of_pending_none hp)]
      exact (hostStep_nextOrFault s).imp fun f hcause => ⟨⟨by simp [hs], fun _ => hp⟩, hcause⟩
    | some w =>
      rw [step_unscheduled_busy hs (busy_of_pending_some hp)]
      exact .inl (engineStep_next s)
  | cons agent rest =>
    cases agent with
    | engine =>
      rw [step_engine hs]
      exact .inl (engineStep_next _)
    | host =>
      rw [step_host hs]
      exact (hostStep_nextOrFault { s with sched := rest }).imp fun f hcause => ⟨⟨by simp [hs], by simp [hs]⟩, hcause⟩

/-- Settles O56: by what a step answers, then cause by cause; accesses that are not apart share a byte. -/
theorem onlyHostOperationsFault : Obligations.OnlyHostOperationsFault := by
  intro s
  rcases step_nextOrFault s with ⟨t, ht⟩ | ⟨f, hf, ⟨hengine, hidle⟩, op, hop, hcause⟩
  · simp [ht]
  · refine ⟨by simp [hf], fun f' hf' => ?_⟩
    obtain rfl := Host.Outcome.fault.inj (hf.symm.trans hf')
    refine ⟨hengine, hidle, op, hop, ?_⟩
    cases hcause with
    | badAccess hacc h => exact .inl ⟨_, _, hacc, h, rfl⟩
    | leavesMemory hacc h => exact .inr (.inl ⟨_, _, hacc, h, rfl⟩)
    | storeMeets hfl hr h =>
      obtain ⟨x, hx⟩ := exists_shared_of_not_apart h
      exact .inr (.inr (.inl ⟨_, _, _, _, x, rfl, rfl, hfl, hr, hx⟩))
    | loadMeets hfl hr h =>
      obtain ⟨x, hx⟩ := exists_shared_of_not_apart h
      exact .inr (.inr (.inr ⟨_, _, _, _, x, rfl, rfl, hfl, hr, hx⟩))

end Sys2Proof.Machine
end
